-- ==== Sys2Proof/Word.lean ====
section
/-! DEFINITION. Register widths, machine words and the numbers that name registers and predicates. -/

namespace Sys2Proof

/-- The register width `W` of an implementation: "the register size can be 32, 64 or 128 bits" (R6). -/
inductive Width where
  | w32
  | w64
  | w128
  deriving DecidableEq, Repr

/-- `W` in bits (R6). -/
def Width.bits : Width → Nat
  | .w32 => 32
  | .w64 => 64
  | .w128 => 128

/-- A machine word, the contents of a general register (R6, R20). -/
abbrev Word (wd : Width) := BitVec wd.bits

/-- One byte of memory (R40). -/
abbrev Byte := BitVec 8

/-- A general register number, R0 to R31 (R20, R71). -/
abbrev Reg := Fin 32

/-- A predicate register number of the active set, P0 to P7 (R24, R71). -/
abbrev PredNum := Fin 8

/-- A predicate register set number, 0 to 15 (R24, R26). -/
abbrev SetNum := Fin 16

end Sys2Proof
end

