-- ==== Sys2Proof/Syntax.lean ====
section
/-! DEFINITION. The instruction terms that the decoder yields (R77): one constructor for each of the 81 rows of the
opcode table (R75, R76). -/

namespace Sys2Proof

/-- A subword or access size `sw` in bytes: 1, 2, 4 or 8 (R11, R73). -/
inductive Sw where
  | b1
  | b2
  | b4
  | b8
  deriving DecidableEq, Repr

/-- `sw` in bytes (R11). -/
def Sw.bytes : Sw → Nat
  | .b1 => 1
  | .b2 => 2
  | .b4 => 4
  | .b8 => 8

/-- The width `b = 8·sw` in bits (R11). -/
def Sw.bits (sw : Sw) : Nat := 8 * sw.bytes

/-- The ten relations of the compare instructions (R111). -/
inductive Rel where
  | eq
  | ne
  | lt
  | le
  | gt
  | ge
  | ltu
  | leu
  | gtu
  | geu
  deriving DecidableEq, Repr

/-- The shift amount `sa` of `pmulshr`: 0, 8, 15 or 16 (R74, R195). -/
inductive MulSa where
  | sa0
  | sa8
  | sa15
  | sa16
  deriving DecidableEq, Repr

/-- `sa` in bits (R74). -/
def MulSa.amount : MulSa → Nat
  | .sa0 => 0
  | .sa8 => 8
  | .sa15 => 15
  | .sa16 => 16

/-- The shift amount `sa` of `pshiftadd`: 1, 2 or 3 (R74, R181). -/
inductive AddSa where
  | sa1
  | sa2
  | sa3
  deriving DecidableEq, Repr

/-- `sa` in bits (R74). -/
def AddSa.amount : AddSa → Nat
  | .sa1 => 1
  | .sa2 => 2
  | .sa3 => 3

/-- An instruction of PLX 1.1. The first operand of every constructor is the qualifying predicate `qp` (R61); the
others follow the Format line of the instruction (R62 to R72), a qualifier (`sw`, `sa`, `rel`, `pos`) first. -/
inductive Instr where
  -- program flow (R100 to R104)
  | jmp (qp : PredNum) (imm23 : BitVec 23)
  | jmpLink (qp : PredNum) (imm23 : BitVec 23)
  | jmpReg (qp : PredNum) (rd : Reg)
  | jmpRegLink (qp : PredNum) (rd : Reg)
  | trap (qp : PredNum)
  -- compare and predication (R112 to R118)
  | changepr (qp : PredNum) (imm4 : SetNum)
  | changeprLd (qp : PredNum) (imm4 : SetNum) (imm8 : BitVec 8)
  | cmp (qp : PredNum) (rel : Rel) (rs1 rs2 : Reg) (pd1 pd2 : PredNum)
  | cmpPw0 (qp : PredNum) (rel : Rel) (rs1 rs2 : Reg) (pd1 pd2 : PredNum)
  | cmpPw1 (qp : PredNum) (rel : Rel) (rs1 rs2 : Reg) (pd1 pd2 : PredNum)
  | cmpi (qp : PredNum) (rel : Rel) (rs1 : Reg) (imm8 : BitVec 8) (pd1 pd2 : PredNum)
  | testbit (qp : PredNum) (rs1 : Reg) (imm8 : BitVec 8) (pd1 pd2 : PredNum)
  -- memory access (R126 to R133)
  | loadiZ (qp : PredNum) (pos : Fin 4) (rd : Reg) (imm16 : BitVec 16)
  | loadiK (qp : PredNum) (pos : Fin 4) (rd : Reg) (imm16 : BitVec 16)
  | load4 (qp : PredNum) (rd rs1 : Reg) (imm13 : BitVec 13)
  | load8 (qp : PredNum) (rd rs1 : Reg) (imm13 : BitVec 13)
  | load4Update (qp : PredNum) (rd rs1 : Reg) (imm13 : BitVec 13)
  | load8Update (qp : PredNum) (rd rs1 : Reg) (imm13 : BitVec 13)
  | loadx (qp : PredNum) (sw : Sw) (rd rs1 rs2 : Reg)
  | loadxUpdate (qp : PredNum) (sw : Sw) (rd rs1 rs2 : Reg)
  | store1 (qp : PredNum) (rd rs1 : Reg) (imm13 : BitVec 13)
  | store2 (qp : PredNum) (rd rs1 : Reg) (imm13 : BitVec 13)
  | store4 (qp : PredNum) (rd rs1 : Reg) (imm13 : BitVec 13)
  | store8 (qp : PredNum) (rd rs1 : Reg) (imm13 : BitVec 13)
  | store1Update (qp : PredNum) (rd rs1 : Reg) (imm13 : BitVec 13)
  | store2Update (qp : PredNum) (rd rs1 : Reg) (imm13 : BitVec 13)
  | store4Update (qp : PredNum) (rd rs1 : Reg) (imm13 : BitVec 13)
  | store8Update (qp : PredNum) (rd rs1 : Reg) (imm13 : BitVec 13)
  -- ALU with an immediate (R140 to R144)
  | addi (qp : PredNum) (rd rs1 : Reg) (imm13 : BitVec 13)
  | andi (qp : PredNum) (rd rs1 : Reg) (imm13 : BitVec 13)
  | ori (qp : PredNum) (rd rs1 : Reg) (imm13 : BitVec 13)
  | subi (qp : PredNum) (rd rs1 : Reg) (imm13 : BitVec 13)
  | xori (qp : PredNum) (rd rs1 : Reg) (imm13 : BitVec 13)
  -- shift and bit field with an immediate (R150 to R155)
  | slli (qp : PredNum) (rd rs1 : Reg) (imm13 : BitVec 13)
  | srai (qp : PredNum) (rd rs1 : Reg) (imm13 : BitVec 13)
  | srli (qp : PredNum) (rd rs1 : Reg) (imm13 : BitVec 13)
  | shrp (qp : PredNum) (rd rs1 rs2 : Reg) (imm8 : BitVec 8)
  | extract (qp : PredNum) (rd rs1 : Reg) (imm7 : BitVec 7) (imm6 : BitVec 6)
  | deposit (qp : PredNum) (rd rs1 : Reg) (imm7 : BitVec 7) (imm6 : BitVec 6)
  -- ALU, parallel and logical (R161 to R182)
  | padd (qp : PredNum) (sw : Sw) (rd rs1 rs2 : Reg)
  | paddU (qp : PredNum) (sw : Sw) (rd rs1 rs2 : Reg)
  | paddS (qp : PredNum) (sw : Sw) (rd rs1 rs2 : Reg)
  | paddincr (qp : PredNum) (sw : Sw) (rd rs1 rs2 : Reg)
  | psub (qp : PredNum) (sw : Sw) (rd rs1 rs2 : Reg)
  | psubU (qp : PredNum) (sw : Sw) (rd rs1 rs2 : Reg)
  | psubS (qp : PredNum) (sw : Sw) (rd rs1 rs2 : Reg)
  | psubdecr (qp : PredNum) (sw : Sw) (rd rs1 rs2 : Reg)
  | pavg (qp : PredNum) (sw : Sw) (rd rs1 rs2 : Reg)
  | pavgRaz (qp : PredNum) (sw : Sw) (rd rs1 rs2 : Reg)
  | psubavg (qp : PredNum) (sw : Sw) (rd rs1 rs2 : Reg)
  | andReg (qp : PredNum) (rd rs1 rs2 : Reg)
  | andcm (qp : PredNum) (rd rs1 rs2 : Reg)
  | orReg (qp : PredNum) (rd rs1 rs2 : Reg)
  | xorReg (qp : PredNum) (rd rs1 rs2 : Reg)
  | notReg (qp : PredNum) (rd rs1 : Reg)
  | pcmpEq (qp : PredNum) (sw : Sw) (rd rs1 rs2 : Reg)
  | pcmpGt (qp : PredNum) (sw : Sw) (rd rs1 rs2 : Reg)
  | pmax (qp : PredNum) (sw : Sw) (rd rs1 rs2 : Reg)
  | pmin (qp : PredNum) (sw : Sw) (rd rs1 rs2 : Reg)
  | pshiftaddL (qp : PredNum) (sa : AddSa) (rd rs1 rs2 : Reg)
  | pshiftaddR (qp : PredNum) (sa : AddSa) (rd rs1 rs2 : Reg)
  -- multiply (R191 to R196)
  | pmulOdd (qp : PredNum) (rd rs1 rs2 : Reg)
  | pmulOddU (qp : PredNum) (rd rs1 rs2 : Reg)
  | pmulEven (qp : PredNum) (rd rs1 rs2 : Reg)
  | pmulEvenU (qp : PredNum) (rd rs1 rs2 : Reg)
  | pmulshr (qp : PredNum) (sa : MulSa) (rd rs1 rs2 : Reg)
  | pmulshrA (qp : PredNum) (sa : MulSa) (rd rs1 rs2 : Reg)
  -- parallel shift (R201 to R206)
  | pshiftL (qp : PredNum) (sw : Sw) (rd rs1 rs2 : Reg)
  | pshiftR (qp : PredNum) (sw : Sw) (rd rs1 rs2 : Reg)
  | pshiftRa (qp : PredNum) (sw : Sw) (rd rs1 rs2 : Reg)
  | pshiftiL (qp : PredNum) (sw : Sw) (rd rs1 : Reg) (imm5 : BitVec 5)
  | pshiftiR (qp : PredNum) (sw : Sw) (rd rs1 : Reg) (imm5 : BitVec 5)
  | pshiftiRa (qp : PredNum) (sw : Sw) (rd rs1 : Reg) (imm5 : BitVec 5)
  -- subword permutation (R211 to R218)
  | mixL (qp : PredNum) (sw : Sw) (rd rs1 rs2 : Reg)
  | mixR (qp : PredNum) (sw : Sw) (rd rs1 rs2 : Reg)
  | muxRev (qp : PredNum) (sw : Sw) (rd rs1 : Reg)
  | muxMix (qp : PredNum) (sw : Sw) (rd rs1 : Reg)
  | muxShuf (qp : PredNum) (sw : Sw) (rd rs1 : Reg)
  | muxAlt (qp : PredNum) (sw : Sw) (rd rs1 : Reg)
  | muxBrcst (qp : PredNum) (sw : Sw) (rd rs1 : Reg)
  | perm (qp : PredNum) (rd rs1 rs2 : Reg)
  deriving DecidableEq, Repr

/-- The qualifying predicate of an instruction (R61). -/
def Instr.qp : Instr → PredNum
  | .jmp qp _ => qp
  | .jmpLink qp _ => qp
  | .jmpReg qp _ => qp
  | .jmpRegLink qp _ => qp
  | .trap qp => qp
  | .changepr qp _ => qp
  | .changeprLd qp _ _ => qp
  | .cmp qp _ _ _ _ _ => qp
  | .cmpPw0 qp _ _ _ _ _ => qp
  | .cmpPw1 qp _ _ _ _ _ => qp
  | .cmpi qp _ _ _ _ _ => qp
  | .testbit qp _ _ _ _ => qp
  | .loadiZ qp _ _ _ => qp
  | .loadiK qp _ _ _ => qp
  | .load4 qp _ _ _ => qp
  | .load8 qp _ _ _ => qp
  | .load4Update qp _ _ _ => qp
  | .load8Update qp _ _ _ => qp
  | .loadx qp _ _ _ _ => qp
  | .loadxUpdate qp _ _ _ _ => qp
  | .store1 qp _ _ _ => qp
  | .store2 qp _ _ _ => qp
  | .store4 qp _ _ _ => qp
  | .store8 qp _ _ _ => qp
  | .store1Update qp _ _ _ => qp
  | .store2Update qp _ _ _ => qp
  | .store4Update qp _ _ _ => qp
  | .store8Update qp _ _ _ => qp
  | .addi qp _ _ _ => qp
  | .andi qp _ _ _ => qp
  | .ori qp _ _ _ => qp
  | .subi qp _ _ _ => qp
  | .xori qp _ _ _ => qp
  | .slli qp _ _ _ => qp
  | .srai qp _ _ _ => qp
  | .srli qp _ _ _ => qp
  | .shrp qp _ _ _ _ => qp
  | .extract qp _ _ _ _ => qp
  | .deposit qp _ _ _ _ => qp
  | .padd qp _ _ _ _ => qp
  | .paddU qp _ _ _ _ => qp
  | .paddS qp _ _ _ _ => qp
  | .paddincr qp _ _ _ _ => qp
  | .psub qp _ _ _ _ => qp
  | .psubU qp _ _ _ _ => qp
  | .psubS qp _ _ _ _ => qp
  | .psubdecr qp _ _ _ _ => qp
  | .pavg qp _ _ _ _ => qp
  | .pavgRaz qp _ _ _ _ => qp
  | .psubavg qp _ _ _ _ => qp
  | .andReg qp _ _ _ => qp
  | .andcm qp _ _ _ => qp
  | .orReg qp _ _ _ => qp
  | .xorReg qp _ _ _ => qp
  | .notReg qp _ _ => qp
  | .pcmpEq qp _ _ _ _ => qp
  | .pcmpGt qp _ _ _ _ => qp
  | .pmax qp _ _ _ _ => qp
  | .pmin qp _ _ _ _ => qp
  | .pshiftaddL qp _ _ _ _ => qp
  | .pshiftaddR qp _ _ _ _ => qp
  | .pmulOdd qp _ _ _ => qp
  | .pmulOddU qp _ _ _ => qp
  | .pmulEven qp _ _ _ => qp
  | .pmulEvenU qp _ _ _ => qp
  | .pmulshr qp _ _ _ _ => qp
  | .pmulshrA qp _ _ _ _ => qp
  | .pshiftL qp _ _ _ _ => qp
  | .pshiftR qp _ _ _ _ => qp
  | .pshiftRa qp _ _ _ _ => qp
  | .pshiftiL qp _ _ _ _ => qp
  | .pshiftiR qp _ _ _ _ => qp
  | .pshiftiRa qp _ _ _ _ => qp
  | .mixL qp _ _ _ _ => qp
  | .mixR qp _ _ _ _ => qp
  | .muxRev qp _ _ _ => qp
  | .muxMix qp _ _ _ => qp
  | .muxShuf qp _ _ _ => qp
  | .muxAlt qp _ _ _ => qp
  | .muxBrcst qp _ _ _ => qp
  | .perm qp _ _ _ => qp

end Sys2Proof
end

