-- ==== Sys2Proof/Config.lean ====
section
/-! DEFINITION. The configuration parameters of the spec (R6, R7): what an implementation fixes and what the spec
leaves open under a named parameter with a default. `AW` is `W` (R30); `INIT` and the contents of `MEM` are the state a
run starts from. -/

namespace Sys2Proof

/-- `LOAD_EXT`: how a loaded value narrower than a register is widened (R7, R125 (d)). -/
inductive LoadExt where
  | zero
  | sign
  deriving DecidableEq, Repr

/-- `JMPREG_MODE`: whether `jmp.reg` and `jmp.reg.link` add the register to the pc or replace the pc with it (R7, R102,
D12). -/
inductive JmpRegMode where
  /-- What the source says: "Rd is added to the current PC" (R102). The default. -/
  | relative
  /-- NOT WHAT THE SOURCE SAYS: a switch that R102 lets a model offer, marked so. That the model offers it is the
  model's choice (DESIGN CHOICE, log entry 27). -/
  | absolute
  deriving DecidableEq, Repr

/-- `NUM`, the low bit of `pavg` and `psubavg`: the or of the two low bits of the sum before the shift (default of
R169, R171), or, read literally, of the sum after the shift (D27). -/
inductive AvgLow where
  | beforeShift
  | afterShift
  deriving DecidableEq, Repr

/-- `NUM`, the top bit of `psubavg`: the borrow (default of R171), or the inverted bit that an adder which subtracts
by adding the complement produces (D27). -/
inductive SubAvgTop where
  | borrow
  | carryOut
  deriving DecidableEq, Repr

/-- `NUM`, the left shift of `pshiftadd.sa.l`: exact before the one saturation (default of R181), or truncated to 16
bits before a saturating add (D28). -/
inductive ShiftAddLeft where
  | exact
  | truncate
  deriving DecidableEq, Repr

/-- `NUM`, the kind of right shift in `pshiftadd.sa.r`: arithmetic (default of R182), or logical, zeros entering at the
top of the subword (D28, U11; that logical is the other value is the model's, DESIGN CHOICE, log entry 14). -/
inductive ShiftAddRight where
  | arithmetic
  | logical
  deriving DecidableEq, Repr

/-- `NUM`, a shift amount that is not below the width: reduced modulo the width, or everything is shifted out. For
`pshift` and `pshifti`, any amount at or above the subword width (default modulo, R200, D30); for the immediate shifts,
`imm13 = W` only, the one value on which the source is silent (default modulo, R156, D22, U12). -/
inductive ShiftAmount where
  | modulo
  | shiftOut
  deriving DecidableEq, Repr

/-- `NUM`, which halfword of a 32-bit word is "odd indexed" in `pmul`: the upper one (default of R190), or the lower
one (D29). -/
inductive OddHalf where
  | upper
  | lower
  deriving DecidableEq, Repr

/-- `NUM`, the half of each shifted product that `pmulshr` writes, the "lower" one of the source: bits 15:0 (default of
R195), or bits 31:16 (D29; that this is the other value is the model's, DESIGN CHOICE, log entry 14). -/
inductive ProductHalf where
  | low
  | high
  deriving DecidableEq, Repr

/-- `NUM`, the end from which `perm` numbers its destination or its source subwords: the least significant (default of
R218), or the most significant; both from there is the mirrored numbering (D32). -/
inductive PermOrder where
  | fromLow
  | fromHigh
  deriving DecidableEq, Repr

/-- `NUM`, where things go that the source does not place: as the rule says (default), or as a list says, entry `k` of
which is the number of what goes to position `k`. For `mux.1.mix`, `mux.1.shuf` and `mux.1.alt`, whose figures are lost,
it is the permutation of the bytes of a register (R214 to R216, D31); for `pmul`, the word of the sources whose product
goes to word `k` (R190 (b), D29, U18). The form of the list is the model's (DESIGN CHOICE, log entry 14). -/
inductive Arrangement where
  | standard
  | listed (sources : List Nat)
  deriving DecidableEq, Repr

/-- `NUM`: the record of the arithmetic readings that the source words loosely (R7). -/
structure Num where
  avgLow : AvgLow
  subAvgTop : SubAvgTop
  shiftAddLeft : ShiftAddLeft
  shiftAddRight : ShiftAddRight
  shiftAmount : ShiftAmount
  immShiftAtWidth : ShiftAmount
  oddHalf : OddHalf
  mulPlace : Arrangement
  mulShiftHalf : ProductHalf
  muxMix : Arrangement
  muxShuf : Arrangement
  muxAlt : Arrangement
  permDest : PermOrder
  permSource : PermOrder
  deriving DecidableEq, Repr

/-- The spec's default readings (R156, R169, R171, R181, R182, R190, R195, R200, R214 to R216,
R218). -/
def Num.standard : Num where
  avgLow := .beforeShift
  subAvgTop := .borrow
  shiftAddLeft := .exact
  shiftAddRight := .arithmetic
  shiftAmount := .modulo
  immShiftAtWidth := .modulo
  oddHalf := .upper
  mulPlace := .standard
  mulShiftHalf := .low
  muxMix := .standard
  muxShuf := .standard
  muxAlt := .standard
  permDest := .fromLow
  permSource := .fromLow

/-- A word that an encoding `ENC` other than the default reads otherwise than the default: as the instruction `term`, or,
where `term` is `none`, as an illegal word (R7, D1). -/
structure EncEntry where
  word : BitVec 32
  term : Option Instr
  deriving DecidableEq, Repr

/-- A range of byte addresses, `size` bytes from `base`; a range of size 0 is empty. -/
structure AddrRange where
  base : Nat
  size : Nat
  deriving DecidableEq, Repr

/-- The parameters of a PLX machine (R7). They are fixed for a machine: no instruction reads or writes them as state.
`enc` is `ENC`, as the words on which it differs from the default table: every total decoder from 32-bit words to
instruction terms or "illegal" is such a list (D1). `absent` is the existence part of `MEM`: the addresses that do not
exist (R52). -/
structure Config where
  width : Width
  enc : List EncEntry
  loadExt : LoadExt
  jmpScale : Nat
  jmpRegMode : JmpRegMode
  num : Num
  absent : List AddrRange
  deriving DecidableEq, Repr

/-- The default parameters: `W = 64`, the default table of `ENC`, `LOAD_EXT = zero`, `JMP_SCALE = 1`, `JMPREG_MODE = relative`,
the default `NUM`, and every address exists (R6, R7, R52). -/
def Config.standard : Config where
  width := .w64
  enc := []
  loadExt := .zero
  jmpScale := 1
  jmpRegMode := .relative
  num := .standard
  absent := []

end Sys2Proof
end

