-- ==== Sys2Proof/WellFormed.lean ====
section
/-! DEFINITION. Which instruction terms are legal for a register width: the size lists of R81 and the value checks of
R82. What an operand type already excludes (a relation code above 9, a shift-amount code of 0) is Decode.lean's. -/

namespace Sys2Proof

/-- Why an instruction term is not legal for a width. -/
inductive IllFormed where
  /-- `sw` is not in the size list of the instruction's Format line (R81). -/
  | sizeNotOffered
  /-- `8·sw > W` (R81, R232 (d)). -/
  | sizeExceedsWidth
  /-- `mix` with fewer than two subwords in a register (R81, R211). -/
  | fewerThanTwoSubwords
  /-- `loadi` with `16·pos >= W` (R82, R232 (e)). -/
  | positionExceedsWidth
  /-- `testbit` with `imm8 >= W` (R82, R118, R232 (f)). -/
  | bitNumberExceedsWidth
  /-- `extract` or `deposit` with `imm7 + imm6 > W` (R82, R154, R232 (g)). -/
  | fieldExceedsWidth
  deriving DecidableEq, Repr

/-- The check of R81 on a size: it is in the instruction's list and no wider than the register. -/
def sizeCheck (wd : Width) (offered : List Sw) (sw : Sw) : Option IllFormed :=
  if sw ∉ offered then some .sizeNotOffered
  else if wd.bits < sw.bits then some .sizeExceedsWidth
  else none

/-- The check of R81 on `mix`: a size of 1, 2 or 4 bytes that leaves at least two subwords. -/
def mixCheck (wd : Width) (sw : Sw) : Option IllFormed :=
  match sizeCheck wd [.b1, .b2, .b4] sw with
  | some e => some e
  | none => if wd.bits / sw.bits < 2 then some .fewerThanTwoSubwords else none

/-- The check of R82 on `loadi`. -/
def posCheck (wd : Width) (pos : Fin 4) : Option IllFormed :=
  if wd.bits ≤ 16 * pos.val then some .positionExceedsWidth else none

/-- The check of R82 on `extract` and `deposit`. -/
def fieldCheck (wd : Width) (imm7 : BitVec 7) (imm6 : BitVec 6) : Option IllFormed :=
  if wd.bits < imm7.toNat + imm6.toNat then some .fieldExceedsWidth else none

/-- The check of R82 on `testbit`. -/
def bitCheck (wd : Width) (imm8 : BitVec 8) : Option IllFormed :=
  if wd.bits ≤ imm8.toNat then some .bitNumberExceedsWidth else none

/-- Every size (R76). -/
def sizes1248 : List Sw := [.b1, .b2, .b4, .b8]

/-- The sizes of the averages, the maxima and minima, and `mux.sw.brcst` (R76). -/
def sizes12 : List Sw := [.b1, .b2]

/-- The sizes of the parallel shifts (R76). -/
def sizes248 : List Sw := [.b2, .b4, .b8]

/-- The sizes of the indexed loads (R76). -/
def sizes48 : List Sw := [.b4, .b8]

/-- The size of the byte permutations of `mux` (R76). -/
def sizes1 : List Sw := [.b1]

/-- The legality checks of the opcode map's last columns (R76, R77 steps 5 and 6, R81, R82): why the term is not an
instruction of a machine of this width, or `none`. -/
def check (wd : Width) : Instr → Option IllFormed
  | .jmp _ _ => none
  | .jmpLink _ _ => none
  | .jmpReg _ _ => none
  | .jmpRegLink _ _ => none
  | .trap _ => none
  | .changepr _ _ => none
  | .changeprLd _ _ _ => none
  | .cmp _ _ _ _ _ _ => none
  | .cmpPw0 _ _ _ _ _ _ => none
  | .cmpPw1 _ _ _ _ _ _ => none
  | .cmpi _ _ _ _ _ _ => none
  | .testbit _ _ imm8 _ _ => bitCheck wd imm8
  | .loadiZ _ pos _ _ => posCheck wd pos
  | .loadiK _ pos _ _ => posCheck wd pos
  | .load4 _ _ _ _ => none
  | .load8 _ _ _ _ => sizeCheck wd sizes1248 .b8
  | .load4Update _ _ _ _ => none
  | .load8Update _ _ _ _ => sizeCheck wd sizes1248 .b8
  | .loadx _ sw _ _ _ => sizeCheck wd sizes48 sw
  | .loadxUpdate _ sw _ _ _ => sizeCheck wd sizes48 sw
  | .store1 _ _ _ _ => none
  | .store2 _ _ _ _ => none
  | .store4 _ _ _ _ => none
  | .store8 _ _ _ _ => sizeCheck wd sizes1248 .b8
  | .store1Update _ _ _ _ => none
  | .store2Update _ _ _ _ => none
  | .store4Update _ _ _ _ => none
  | .store8Update _ _ _ _ => sizeCheck wd sizes1248 .b8
  | .addi _ _ _ _ => none
  | .andi _ _ _ _ => none
  | .ori _ _ _ _ => none
  | .subi _ _ _ _ => none
  | .xori _ _ _ _ => none
  | .slli _ _ _ _ => none
  | .srai _ _ _ _ => none
  | .srli _ _ _ _ => none
  | .shrp _ _ _ _ _ => none
  | .extract _ _ _ imm7 imm6 => fieldCheck wd imm7 imm6
  | .deposit _ _ _ imm7 imm6 => fieldCheck wd imm7 imm6
  | .padd _ sw _ _ _ => sizeCheck wd sizes1248 sw
  | .paddU _ sw _ _ _ => sizeCheck wd sizes1248 sw
  | .paddS _ sw _ _ _ => sizeCheck wd sizes1248 sw
  | .paddincr _ sw _ _ _ => sizeCheck wd sizes1248 sw
  | .psub _ sw _ _ _ => sizeCheck wd sizes1248 sw
  | .psubU _ sw _ _ _ => sizeCheck wd sizes1248 sw
  | .psubS _ sw _ _ _ => sizeCheck wd sizes1248 sw
  | .psubdecr _ sw _ _ _ => sizeCheck wd sizes1248 sw
  | .pavg _ sw _ _ _ => sizeCheck wd sizes12 sw
  | .pavgRaz _ sw _ _ _ => sizeCheck wd sizes12 sw
  | .psubavg _ sw _ _ _ => sizeCheck wd sizes12 sw
  | .andReg _ _ _ _ => none
  | .andcm _ _ _ _ => none
  | .orReg _ _ _ _ => none
  | .xorReg _ _ _ _ => none
  | .notReg _ _ _ => none
  | .pcmpEq _ sw _ _ _ => sizeCheck wd sizes1248 sw
  | .pcmpGt _ sw _ _ _ => sizeCheck wd sizes1248 sw
  | .pmax _ sw _ _ _ => sizeCheck wd sizes12 sw
  | .pmin _ sw _ _ _ => sizeCheck wd sizes12 sw
  | .pshiftaddL _ _ _ _ _ => none
  | .pshiftaddR _ _ _ _ _ => none
  | .pmulOdd _ _ _ _ => none
  | .pmulOddU _ _ _ _ => none
  | .pmulEven _ _ _ _ => none
  | .pmulEvenU _ _ _ _ => none
  | .pmulshr _ _ _ _ _ => none
  | .pmulshrA _ _ _ _ _ => none
  | .pshiftL _ sw _ _ _ => sizeCheck wd sizes248 sw
  | .pshiftR _ sw _ _ _ => sizeCheck wd sizes248 sw
  | .pshiftRa _ sw _ _ _ => sizeCheck wd sizes248 sw
  | .pshiftiL _ sw _ _ _ => sizeCheck wd sizes248 sw
  | .pshiftiR _ sw _ _ _ => sizeCheck wd sizes248 sw
  | .pshiftiRa _ sw _ _ _ => sizeCheck wd sizes248 sw
  | .mixL _ sw _ _ _ => mixCheck wd sw
  | .mixR _ sw _ _ _ => mixCheck wd sw
  | .muxRev _ sw _ _ => sizeCheck wd sizes1 sw
  | .muxMix _ sw _ _ => sizeCheck wd sizes1 sw
  | .muxShuf _ sw _ _ => sizeCheck wd sizes1 sw
  | .muxAlt _ sw _ _ => sizeCheck wd sizes1 sw
  | .muxBrcst _ sw _ _ => sizeCheck wd sizes12 sw
  | .perm _ _ _ _ => none

/-- The term is a legal instruction of a machine of width `wd` (R81, R82). -/
abbrev WellFormed (wd : Width) (i : Instr) : Prop := check wd i = none

end Sys2Proof
end

