-- ==== Sys2Proof/Decode.lean ====
section
/-! DEFINITION. The default encoding `ENC` (R60 to R83): the decoder, total on any bytes and rejecting by name; decoding
under any other `ENC` (R7); and after it the encoder of the default. The default bit patterns are the spec's own (R76,
D1 to D5), not the real PLX 1.1 encoding. -/

namespace Sys2Proof

/-- Why a word is not a legal instruction (R78 to R82). The machine raises the same Illegal Instruction Trap for each
(R232); the name is the model's. -/
inductive Illegal where
  /-- Opcode 00 or 39 to 3F (R78, R232 (a)). -/
  | reservedOpcode
  /-- A value of `s2`, `fn`, `fn4` or `pw` that the opcode map does not list (R79, R232 (b)). -/
  | reservedSubop
  /-- A relation code above 9 (R74, R79). -/
  | reservedRelation
  /-- Shift-amount code 00 of `pshiftadd` (R74, R79). -/
  | reservedAmount
  /-- A field the instruction has no operand for is not zero (R80, R232 (c)). -/
  | nonzeroField
  /-- The `ENC` of the machine, not the default one, has no instruction at the word (R7, D1). -/
  | notInEnc
  /-- The term is not legal for the width (R81, R82). -/
  | illFormed (reason : IllFormed)
  /-- Fewer than four bytes were given (R60: an instruction is 4 bytes long). -/
  | truncated
  deriving DecidableEq, Repr

/-- The answer of the decoder. -/
abbrev Decoded := Except Illegal Instr

/-! ### Fields of a word (R61 to R70) -/

/-- `word[lo+4 : lo]` as a general register number (R71). -/
def regAt (w : BitVec 32) (lo : Nat) : Reg := ⟨(w.extractLsb' lo 5).toNat, (w.extractLsb' lo 5).isLt⟩

/-- `word[lo+2 : lo]` as a predicate number (R71). -/
def predAt (w : BitVec 32) (lo : Nat) : PredNum := ⟨(w.extractLsb' lo 3).toNat, (w.extractLsb' lo 3).isLt⟩

/-- `op = word[31:26]` (R61). -/
def opOf (w : BitVec 32) : Nat := (w.extractLsb' 26 6).toNat

/-- `qp = word[25:23]` (R61). -/
def qpOf (w : BitVec 32) : PredNum := predAt w 23

/-- `imm4` of `changepr`, `word[21:18]` (R70). -/
def setAt (w : BitVec 32) : SetNum := ⟨(w.extractLsb' 18 4).toNat, (w.extractLsb' 18 4).isLt⟩

/-- `pos` of `loadi`, `word[17:16]` (R63). -/
def posAt (w : BitVec 32) : Fin 4 := ⟨(w.extractLsb' 16 2).toNat, (w.extractLsb' 16 2).isLt⟩

/-- The subword-size code `szc` (R73). -/
def Sw.ofCode (c : BitVec 2) : Sw :=
  match c.toNat with
  | 0 => .b1
  | 1 => .b2
  | 2 => .b4
  | _ => .b8

/-- The shift-amount code of `pmulshr` (R74). -/
def MulSa.ofCode (c : BitVec 2) : MulSa :=
  match c.toNat with
  | 0 => .sa0
  | 1 => .sa8
  | 2 => .sa15
  | _ => .sa16

/-- The shift-amount code of `pshiftadd`; 00 is reserved (R74). -/
def AddSa.ofCode? (c : BitVec 2) : Option AddSa :=
  match c.toNat with
  | 0 => none
  | 1 => some .sa1
  | 2 => some .sa2
  | _ => some .sa3

/-- The relation code `rel`; 10 to 15 are reserved (R74). -/
def Rel.ofCode? (c : BitVec 4) : Option Rel :=
  match c.toNat with
  | 0 => some .eq
  | 1 => some .ne
  | 2 => some .lt
  | 3 => some .le
  | 4 => some .gt
  | 5 => some .ge
  | 6 => some .ltu
  | 7 => some .leu
  | 8 => some .gtu
  | 9 => some .geu
  | _ => none

/-- `szc`, or the shift-amount code, `word[7:6]` (R66). -/
def szcOf (w : BitVec 32) : BitVec 2 := w.extractLsb' 6 2

/-- `szc` read as a size (R73). -/
def swOf (w : BitVec 32) : Sw := Sw.ofCode (szcOf w)

/-- `fn = word[5:0]` (R65 to R67). -/
def fnOf (w : BitVec 32) : Nat := (w.extractLsb' 0 6).toNat

/-- `Rd` of formats 1 to 4, or `Rs1` of format 5, `word[22:18]`. -/
def rdOf (w : BitVec 32) : Reg := regAt w 18

/-- `Rs1` of formats 2 to 4, or `Rs2` of format 5a, `word[17:13]`. -/
def rs1Of (w : BitVec 32) : Reg := regAt w 13

/-- `Rs2` of format 4, `word[12:8]`. -/
def rs2Of (w : BitVec 32) : Reg := regAt w 8

/-- `imm13 = word[12:0]` (R64). -/
def imm13Of (w : BitVec 32) : BitVec 13 := w.extractLsb' 0 13

/-! ### Decoding the formats that have a sub-opcode -/

/-- The term, where the fields that must be zero are zero (R80). -/
def requireZero {n : Nat} (field : BitVec n) (i : Instr) : Decoded :=
  if field = 0 then .ok i else .error .nonzeroField

/-- Op 03: `s2` selects the register jump, `imm16` must be zero (R63). -/
def decodeJmpReg (w : BitVec 32) : Decoded :=
  match (w.extractLsb' 16 2).toNat with
  | 0 => requireZero (w.extractLsb' 0 16) (.jmpReg (qpOf w) (rdOf w))
  | 1 => requireZero (w.extractLsb' 0 16) (.jmpRegLink (qpOf w) (rdOf w))
  | _ => .error .reservedSubop

/-- Op 05: `fn4` selects; bit 22 and bits 5:0 must be zero, and `imm8` of `changepr` (R70). -/
def decodeChangepr (w : BitVec 32) : Decoded :=
  match (w.extractLsb' 6 4).toNat with
  | 0 =>
    if w.extractLsb' 22 1 = 0 ∧ w.extractLsb' 0 6 = 0 then
      requireZero (w.extractLsb' 10 8) (.changepr (qpOf w) (setAt w))
    else .error .nonzeroField
  | 1 =>
    if w.extractLsb' 22 1 = 0 then
      requireZero (w.extractLsb' 0 6) (.changeprLd (qpOf w) (setAt w) (w.extractLsb' 10 8))
    else .error .nonzeroField
  | _ => .error .reservedSubop

/-- Op 06: `pw` selects, bit 6 must be zero, `rel` is at bits 12:9 (R69). -/
def decodeCmp (w : BitVec 32) : Decoded :=
  match Rel.ofCode? (w.extractLsb' 9 4) with
  | none => .error .reservedRelation
  | some rel =>
    match (w.extractLsb' 7 2).toNat with
    | 0 => requireZero (w.extractLsb' 6 1) (.cmp (qpOf w) rel (rdOf w) (rs1Of w) (predAt w 3) (predAt w 0))
    | 1 => requireZero (w.extractLsb' 6 1) (.cmpPw0 (qpOf w) rel (rdOf w) (rs1Of w) (predAt w 3) (predAt w 0))
    | 2 => requireZero (w.extractLsb' 6 1) (.cmpPw1 (qpOf w) rel (rdOf w) (rs1Of w) (predAt w 3) (predAt w 0))
    | _ => .error .reservedSubop

/-- Op 07: `rel` is at bits 9:6 (R70). -/
def decodeCmpi (w : BitVec 32) : Decoded :=
  match Rel.ofCode? (w.extractLsb' 6 4) with
  | none => .error .reservedRelation
  | some rel => .ok (.cmpi (qpOf w) rel (rdOf w) (w.extractLsb' 10 8) (predAt w 3) (predAt w 0))

/-- A three-register term with a size, `mk qp sw rd rs1 rs2` (R66). -/
def sized3 (mk : PredNum → Sw → Reg → Reg → Reg → Instr) (w : BitVec 32) : Decoded :=
  .ok (mk (qpOf w) (swOf w) (rdOf w) (rs1Of w) (rs2Of w))

/-- A three-register term without a qualifier; `szc` and `fn` must be zero (R66, R80). -/
def plain3 (mk : PredNum → Reg → Reg → Reg → Instr) (w : BitVec 32) : Decoded :=
  requireZero (w.extractLsb' 0 8) (mk (qpOf w) (rdOf w) (rs1Of w) (rs2Of w))

/-- A `pmul` term; `szc` must be zero (R80). -/
def mul3 (mk : PredNum → Reg → Reg → Reg → Instr) (w : BitVec 32) : Decoded :=
  requireZero (szcOf w) (mk (qpOf w) (rdOf w) (rs1Of w) (rs2Of w))

/-- A `mux` term; `imm5` must be zero (R67, R80). -/
def mux2 (mk : PredNum → Sw → Reg → Reg → Instr) (w : BitVec 32) : Decoded :=
  requireZero (w.extractLsb' 8 5) (mk (qpOf w) (swOf w) (rdOf w) (rs1Of w))

/-- A `pshifti` term (R67). -/
def shifti2 (mk : PredNum → Sw → Reg → Reg → BitVec 5 → Instr) (w : BitVec 32) : Decoded :=
  .ok (mk (qpOf w) (swOf w) (rdOf w) (rs1Of w) (w.extractLsb' 8 5))

/-- A `pshiftadd` term; amount code 00 is reserved (R74). -/
def shiftAdd3 (mk : PredNum → AddSa → Reg → Reg → Reg → Instr) (w : BitVec 32) : Decoded :=
  match AddSa.ofCode? (szcOf w) with
  | none => .error .reservedAmount
  | some sa => .ok (mk (qpOf w) sa (rdOf w) (rs1Of w) (rs2Of w))

/-- A `pmulshr` term (R74). -/
def mulShr3 (mk : PredNum → MulSa → Reg → Reg → Reg → Instr) (w : BitVec 32) : Decoded :=
  .ok (mk (qpOf w) (MulSa.ofCode (szcOf w)) (rdOf w) (rs1Of w) (rs2Of w))

/-- A format 2 term (R64). -/
def fmt2Of (mk : PredNum → Reg → Reg → BitVec 13 → Instr) (w : BitVec 32) : Decoded :=
  .ok (mk (qpOf w) (rdOf w) (rs1Of w) (imm13Of w))

/-- An opcode whose `fn` field selects the variant: value `k` selects arm `k`, and a value past the last arm is
reserved (R76, R79). -/
def byFn (arms : List (BitVec 32 → Decoded)) (w : BitVec 32) : Decoded :=
  match arms[fnOf w]? with
  | some arm => arm w
  | none => .error .reservedSubop

/-- Steps 1 to 5 of R77: the instruction term a word encodes, whatever the register width. -/
def decodeWord (w : BitVec 32) : Decoded :=
  match opOf w with
  | 0x01 => .ok (.jmp (qpOf w) (w.extractLsb' 0 23))
  | 0x02 => .ok (.jmpLink (qpOf w) (w.extractLsb' 0 23))
  | 0x03 => decodeJmpReg w
  | 0x04 => requireZero (w.extractLsb' 0 23) (.trap (qpOf w))
  | 0x05 => decodeChangepr w
  | 0x06 => decodeCmp w
  | 0x07 => decodeCmpi w
  | 0x08 =>
    requireZero (w.extractLsb' 6 4) (.testbit (qpOf w) (rdOf w) (w.extractLsb' 10 8) (predAt w 3) (predAt w 0))
  | 0x09 => .ok (.loadiZ (qpOf w) (posAt w) (rdOf w) (w.extractLsb' 0 16))
  | 0x0A => .ok (.loadiK (qpOf w) (posAt w) (rdOf w) (w.extractLsb' 0 16))
  | 0x0B => fmt2Of .load4 w
  | 0x0C => fmt2Of .load8 w
  | 0x0D => fmt2Of .load4Update w
  | 0x0E => fmt2Of .load8Update w
  | 0x0F => byFn [sized3 .loadx, sized3 .loadxUpdate] w
  | 0x10 => fmt2Of .store1 w
  | 0x11 => fmt2Of .store2 w
  | 0x12 => fmt2Of .store4 w
  | 0x13 => fmt2Of .store8 w
  | 0x14 => fmt2Of .store1Update w
  | 0x15 => fmt2Of .store2Update w
  | 0x16 => fmt2Of .store4Update w
  | 0x17 => fmt2Of .store8Update w
  | 0x18 => fmt2Of .addi w
  | 0x19 => fmt2Of .andi w
  | 0x1A => fmt2Of .ori w
  | 0x1B => fmt2Of .subi w
  | 0x1C => fmt2Of .xori w
  | 0x1D => fmt2Of .slli w
  | 0x1E => fmt2Of .srai w
  | 0x1F => fmt2Of .srli w
  | 0x20 => .ok (.shrp (qpOf w) (rdOf w) (rs1Of w) (rs2Of w) (w.extractLsb' 0 8))
  | 0x21 => .ok (.extract (qpOf w) (rdOf w) (rs1Of w) (w.extractLsb' 6 7) (w.extractLsb' 0 6))
  | 0x22 => .ok (.deposit (qpOf w) (rdOf w) (rs1Of w) (w.extractLsb' 6 7) (w.extractLsb' 0 6))
  | 0x23 => byFn [sized3 .padd, sized3 .paddU, sized3 .paddS] w
  | 0x24 => byFn [sized3 .paddincr] w
  | 0x25 => byFn [sized3 .psub, sized3 .psubU, sized3 .psubS] w
  | 0x26 => byFn [sized3 .psubdecr] w
  | 0x27 => byFn [sized3 .pavg, sized3 .pavgRaz] w
  | 0x28 => byFn [sized3 .psubavg] w
  | 0x29 => plain3 .andReg w
  | 0x2A => plain3 .andcm w
  | 0x2B => plain3 .orReg w
  | 0x2C => plain3 .xorReg w
  | 0x2D => requireZero (w.extractLsb' 0 13) (.notReg (qpOf w) (rdOf w) (rs1Of w))
  | 0x2E => byFn [sized3 .pcmpEq, sized3 .pcmpGt] w
  | 0x2F => byFn [sized3 .pmax] w
  | 0x30 => byFn [sized3 .pmin] w
  | 0x31 => byFn [shiftAdd3 .pshiftaddL, shiftAdd3 .pshiftaddR] w
  | 0x32 => byFn [mul3 .pmulOdd, mul3 .pmulOddU, mul3 .pmulEven, mul3 .pmulEvenU] w
  | 0x33 => byFn [mulShr3 .pmulshr, mulShr3 .pmulshrA] w
  | 0x34 => byFn [sized3 .pshiftL, sized3 .pshiftR, sized3 .pshiftRa] w
  | 0x35 => byFn [shifti2 .pshiftiL, shifti2 .pshiftiR, shifti2 .pshiftiRa] w
  | 0x36 => byFn [sized3 .mixL, sized3 .mixR] w
  | 0x37 => byFn [mux2 .muxRev, mux2 .muxMix, mux2 .muxShuf, mux2 .muxAlt, mux2 .muxBrcst] w
  | 0x38 => plain3 .perm w
  | _ => .error .reservedOpcode

/-- The term a word encodes, unless the checks of R81 and R82 refuse it on a machine of width `wd`. -/
def ifLegal (wd : Width) : Decoded → Decoded
  | .error e => .error e
  | .ok i =>
    match check wd i with
    | some r => .error (.illFormed r)
    | none => .ok i

/-- Decoding by the default `ENC` for a machine of width `wd` (R77). The answer depends on the word and the width alone
(R83). -/
def decode (wd : Width) (w : BitVec 32) : Decoded := ifLegal wd (decodeWord w)

/-- The term a word encodes under an `ENC`: the first entry for the word says, and where there is none the default
encoding does (R7, D1). -/
def decodeWordUnder (enc : List EncEntry) (w : BitVec 32) : Decoded :=
  match enc.find? (fun e => e.word == w) with
  | none => decodeWord w
  | some e =>
    match e.term with
    | none => .error .notInEnc
    | some i => .ok i

/-- Decoding on a machine with the given parameters: its `ENC` gives the term, and the checks of R81 and R82, which are
on terms, hold under every `ENC` (R7, R77, R83). -/
def decodeUnder (cfg : Config) (w : BitVec 32) : Decoded := ifLegal cfg.width (decodeWordUnder cfg.enc w)

/-! ### Bytes (R45: the least significant byte of a word is at the lowest address) -/

/-- The word whose bytes, least significant first, are the given four (R45). -/
def wordOfBytes (b0 b1 b2 b3 : Byte) : BitVec 32 :=
  BitVec.ofNat 32 (b0.toNat + 2 ^ 8 * b1.toNat + 2 ^ 16 * b2.toNat + 2 ^ 24 * b3.toNat)

/-- Byte `k` of a word, in the order of R45. -/
def byteOfWord (w : BitVec 32) (k : Nat) : Byte := w.extractLsb' (8 * k) 8

/-- The four bytes of a word in address order (R45). -/
def bytesOfWord (w : BitVec 32) : List Byte := [byteOfWord w 0, byteOfWord w 1, byteOfWord w 2, byteOfWord w 3]

/-- Decoding a list of bytes by the default `ENC`: the instruction at its head and the bytes after it (R60: every instruction is four
bytes). -/
def decodeBytes (wd : Width) : List Byte → Except Illegal (Instr × List Byte)
  | b0 :: b1 :: b2 :: b3 :: rest =>
    match decode wd (wordOfBytes b0 b1 b2 b3) with
    | .ok i => .ok (i, rest)
    | .error e => .error e
  | _ => .error .truncated

/-- The instruction the decoder of the default machine (`W = 64`) reads from the word `w` of which `nbits` bits are
given, the others zero; its bytes are laid out as R45 stores them. -/
def decodeTableWord (nbits w : Nat) : Option Instr :=
  match decodeBytes .w64 (bytesOfWord (BitVec.ofNat 32 (w % 2 ^ nbits))) with
  | .ok (i, _) => some i
  | .error _ => none

/-! ### The encoder -/

/-- The code of a size (R73). -/
def Sw.code : Sw → Nat
  | .b1 => 0
  | .b2 => 1
  | .b4 => 2
  | .b8 => 3

/-- The code of a `pmulshr` amount (R74). -/
def MulSa.code : MulSa → Nat
  | .sa0 => 0
  | .sa8 => 1
  | .sa15 => 2
  | .sa16 => 3

/-- The code of a `pshiftadd` amount (R74). -/
def AddSa.code : AddSa → Nat
  | .sa1 => 1
  | .sa2 => 2
  | .sa3 => 3

/-- The code of a relation (R74). -/
def Rel.code : Rel → Nat
  | .eq => 0
  | .ne => 1
  | .lt => 2
  | .le => 3
  | .gt => 4
  | .ge => 5
  | .ltu => 6
  | .leu => 7
  | .gtu => 8
  | .geu => 9

/-- The common head of every format, `op` at 31:26 and `qp` at 25:23, over the 23 bits `rest` (R61). -/
def encHead (op : Nat) (qp : PredNum) (rest : Nat) : BitVec 32 :=
  BitVec.ofNat 32 (op * 2 ^ 26 + qp.val * 2 ^ 23 + rest)

/-- Format 0 (R62). -/
def enc0 (op : Nat) (qp : PredNum) (imm23 : BitVec 23) : BitVec 32 := encHead op qp imm23.toNat

/-- Format 1 (R63). -/
def enc1 (op : Nat) (qp : PredNum) (rd : Reg) (s2 : Fin 4) (imm16 : BitVec 16) : BitVec 32 :=
  encHead op qp (rd.val * 2 ^ 18 + s2.val * 2 ^ 16 + imm16.toNat)

/-- Format 2 (R64). -/
def enc2 (op : Nat) (qp : PredNum) (rd rs1 : Reg) (imm13 : BitVec 13) : BitVec 32 :=
  encHead op qp (rd.val * 2 ^ 18 + rs1.val * 2 ^ 13 + imm13.toNat)

/-- Format 3, immediate layout (R65). -/
def enc3 (op : Nat) (qp : PredNum) (rd rs1 : Reg) (imm7 : BitVec 7) (imm6 : BitVec 6) : BitVec 32 :=
  encHead op qp (rd.val * 2 ^ 18 + rs1.val * 2 ^ 13 + imm7.toNat * 2 ^ 6 + imm6.toNat)

/-- Formats 4a and 4b and the register layout of format 3: the field at 12:8 is `Rs2` or `imm5` (R65 to R67). -/
def enc4 (op : Nat) (qp : PredNum) (rd rs1 : Reg) (f : Fin 32) (szc fn : Nat) : BitVec 32 :=
  encHead op qp (rd.val * 2 ^ 18 + rs1.val * 2 ^ 13 + f.val * 2 ^ 8 + szc * 2 ^ 6 + fn)

/-- Format 4c (R68). -/
def enc4c (op : Nat) (qp : PredNum) (rd rs1 rs2 : Reg) (imm8 : BitVec 8) : BitVec 32 :=
  encHead op qp (rd.val * 2 ^ 18 + rs1.val * 2 ^ 13 + rs2.val * 2 ^ 8 + imm8.toNat)

/-- Format 5a (R69). -/
def enc5a (op : Nat) (qp : PredNum) (rs1 rs2 : Reg) (rel : Rel) (pw : Nat) (pd1 pd2 : PredNum) : BitVec 32 :=
  encHead op qp
    (rs1.val * 2 ^ 18 + rs2.val * 2 ^ 13 + rel.code * 2 ^ 9 + pw * 2 ^ 7 + pd1.val * 2 ^ 3 + pd2.val)

/-- Format 5b, compare layout (R70). -/
def enc5b (op : Nat) (qp : PredNum) (rs1 : Reg) (imm8 : BitVec 8) (rel : Nat) (pd1 pd2 : PredNum) : BitVec 32 :=
  encHead op qp (rs1.val * 2 ^ 18 + imm8.toNat * 2 ^ 10 + rel * 2 ^ 6 + pd1.val * 2 ^ 3 + pd2.val)

/-- Format 5b, predicate-set layout (R70). -/
def enc5p (op : Nat) (qp : PredNum) (imm4 : SetNum) (imm8 : BitVec 8) (fn4 : Nat) : BitVec 32 :=
  encHead op qp (imm4.val * 2 ^ 18 + imm8.toNat * 2 ^ 10 + fn4 * 2 ^ 6)

/-- An `imm5` as the value of the field at 12:8 (R67). -/
def imm5Field (imm5 : BitVec 5) : Fin 32 := ⟨imm5.toNat, imm5.isLt⟩

/-- The word of an instruction, from the opcode map (R76). -/
def encode : Instr → BitVec 32
  | .jmp qp imm23 => enc0 0x01 qp imm23
  | .jmpLink qp imm23 => enc0 0x02 qp imm23
  | .jmpReg qp rd => enc1 0x03 qp rd 0 0
  | .jmpRegLink qp rd => enc1 0x03 qp rd 1 0
  | .trap qp => enc0 0x04 qp 0
  | .changepr qp imm4 => enc5p 0x05 qp imm4 0 0
  | .changeprLd qp imm4 imm8 => enc5p 0x05 qp imm4 imm8 1
  | .cmp qp rel rs1 rs2 pd1 pd2 => enc5a 0x06 qp rs1 rs2 rel 0 pd1 pd2
  | .cmpPw0 qp rel rs1 rs2 pd1 pd2 => enc5a 0x06 qp rs1 rs2 rel 1 pd1 pd2
  | .cmpPw1 qp rel rs1 rs2 pd1 pd2 => enc5a 0x06 qp rs1 rs2 rel 2 pd1 pd2
  | .cmpi qp rel rs1 imm8 pd1 pd2 => enc5b 0x07 qp rs1 imm8 rel.code pd1 pd2
  | .testbit qp rs1 imm8 pd1 pd2 => enc5b 0x08 qp rs1 imm8 0 pd1 pd2
  | .loadiZ qp pos rd imm16 => enc1 0x09 qp rd pos imm16
  | .loadiK qp pos rd imm16 => enc1 0x0A qp rd pos imm16
  | .load4 qp rd rs1 imm13 => enc2 0x0B qp rd rs1 imm13
  | .load8 qp rd rs1 imm13 => enc2 0x0C qp rd rs1 imm13
  | .load4Update qp rd rs1 imm13 => enc2 0x0D qp rd rs1 imm13
  | .load8Update qp rd rs1 imm13 => enc2 0x0E qp rd rs1 imm13
  | .loadx qp sw rd rs1 rs2 => enc4 0x0F qp rd rs1 rs2 sw.code 0
  | .loadxUpdate qp sw rd rs1 rs2 => enc4 0x0F qp rd rs1 rs2 sw.code 1
  | .store1 qp rd rs1 imm13 => enc2 0x10 qp rd rs1 imm13
  | .store2 qp rd rs1 imm13 => enc2 0x11 qp rd rs1 imm13
  | .store4 qp rd rs1 imm13 => enc2 0x12 qp rd rs1 imm13
  | .store8 qp rd rs1 imm13 => enc2 0x13 qp rd rs1 imm13
  | .store1Update qp rd rs1 imm13 => enc2 0x14 qp rd rs1 imm13
  | .store2Update qp rd rs1 imm13 => enc2 0x15 qp rd rs1 imm13
  | .store4Update qp rd rs1 imm13 => enc2 0x16 qp rd rs1 imm13
  | .store8Update qp rd rs1 imm13 => enc2 0x17 qp rd rs1 imm13
  | .addi qp rd rs1 imm13 => enc2 0x18 qp rd rs1 imm13
  | .andi qp rd rs1 imm13 => enc2 0x19 qp rd rs1 imm13
  | .ori qp rd rs1 imm13 => enc2 0x1A qp rd rs1 imm13
  | .subi qp rd rs1 imm13 => enc2 0x1B qp rd rs1 imm13
  | .xori qp rd rs1 imm13 => enc2 0x1C qp rd rs1 imm13
  | .slli qp rd rs1 imm13 => enc2 0x1D qp rd rs1 imm13
  | .srai qp rd rs1 imm13 => enc2 0x1E qp rd rs1 imm13
  | .srli qp rd rs1 imm13 => enc2 0x1F qp rd rs1 imm13
  | .shrp qp rd rs1 rs2 imm8 => enc4c 0x20 qp rd rs1 rs2 imm8
  | .extract qp rd rs1 imm7 imm6 => enc3 0x21 qp rd rs1 imm7 imm6
  | .deposit qp rd rs1 imm7 imm6 => enc3 0x22 qp rd rs1 imm7 imm6
  | .padd qp sw rd rs1 rs2 => enc4 0x23 qp rd rs1 rs2 sw.code 0
  | .paddU qp sw rd rs1 rs2 => enc4 0x23 qp rd rs1 rs2 sw.code 1
  | .paddS qp sw rd rs1 rs2 => enc4 0x23 qp rd rs1 rs2 sw.code 2
  | .paddincr qp sw rd rs1 rs2 => enc4 0x24 qp rd rs1 rs2 sw.code 0
  | .psub qp sw rd rs1 rs2 => enc4 0x25 qp rd rs1 rs2 sw.code 0
  | .psubU qp sw rd rs1 rs2 => enc4 0x25 qp rd rs1 rs2 sw.code 1
  | .psubS qp sw rd rs1 rs2 => enc4 0x25 qp rd rs1 rs2 sw.code 2
  | .psubdecr qp sw rd rs1 rs2 => enc4 0x26 qp rd rs1 rs2 sw.code 0
  | .pavg qp sw rd rs1 rs2 => enc4 0x27 qp rd rs1 rs2 sw.code 0
  | .pavgRaz qp sw rd rs1 rs2 => enc4 0x27 qp rd rs1 rs2 sw.code 1
  | .psubavg qp sw rd rs1 rs2 => enc4 0x28 qp rd rs1 rs2 sw.code 0
  | .andReg qp rd rs1 rs2 => enc4 0x29 qp rd rs1 rs2 0 0
  | .andcm qp rd rs1 rs2 => enc4 0x2A qp rd rs1 rs2 0 0
  | .orReg qp rd rs1 rs2 => enc4 0x2B qp rd rs1 rs2 0 0
  | .xorReg qp rd rs1 rs2 => enc4 0x2C qp rd rs1 rs2 0 0
  | .notReg qp rd rs1 => enc4 0x2D qp rd rs1 0 0 0
  | .pcmpEq qp sw rd rs1 rs2 => enc4 0x2E qp rd rs1 rs2 sw.code 0
  | .pcmpGt qp sw rd rs1 rs2 => enc4 0x2E qp rd rs1 rs2 sw.code 1
  | .pmax qp sw rd rs1 rs2 => enc4 0x2F qp rd rs1 rs2 sw.code 0
  | .pmin qp sw rd rs1 rs2 => enc4 0x30 qp rd rs1 rs2 sw.code 0
  | .pshiftaddL qp sa rd rs1 rs2 => enc4 0x31 qp rd rs1 rs2 sa.code 0
  | .pshiftaddR qp sa rd rs1 rs2 => enc4 0x31 qp rd rs1 rs2 sa.code 1
  | .pmulOdd qp rd rs1 rs2 => enc4 0x32 qp rd rs1 rs2 0 0
  | .pmulOddU qp rd rs1 rs2 => enc4 0x32 qp rd rs1 rs2 0 1
  | .pmulEven qp rd rs1 rs2 => enc4 0x32 qp rd rs1 rs2 0 2
  | .pmulEvenU qp rd rs1 rs2 => enc4 0x32 qp rd rs1 rs2 0 3
  | .pmulshr qp sa rd rs1 rs2 => enc4 0x33 qp rd rs1 rs2 sa.code 0
  | .pmulshrA qp sa rd rs1 rs2 => enc4 0x33 qp rd rs1 rs2 sa.code 1
  | .pshiftL qp sw rd rs1 rs2 => enc4 0x34 qp rd rs1 rs2 sw.code 0
  | .pshiftR qp sw rd rs1 rs2 => enc4 0x34 qp rd rs1 rs2 sw.code 1
  | .pshiftRa qp sw rd rs1 rs2 => enc4 0x34 qp rd rs1 rs2 sw.code 2
  | .pshiftiL qp sw rd rs1 imm5 => enc4 0x35 qp rd rs1 (imm5Field imm5) sw.code 0
  | .pshiftiR qp sw rd rs1 imm5 => enc4 0x35 qp rd rs1 (imm5Field imm5) sw.code 1
  | .pshiftiRa qp sw rd rs1 imm5 => enc4 0x35 qp rd rs1 (imm5Field imm5) sw.code 2
  | .mixL qp sw rd rs1 rs2 => enc4 0x36 qp rd rs1 rs2 sw.code 0
  | .mixR qp sw rd rs1 rs2 => enc4 0x36 qp rd rs1 rs2 sw.code 1
  | .muxRev qp sw rd rs1 => enc4 0x37 qp rd rs1 0 sw.code 0
  | .muxMix qp sw rd rs1 => enc4 0x37 qp rd rs1 0 sw.code 1
  | .muxShuf qp sw rd rs1 => enc4 0x37 qp rd rs1 0 sw.code 2
  | .muxAlt qp sw rd rs1 => enc4 0x37 qp rd rs1 0 sw.code 3
  | .muxBrcst qp sw rd rs1 => enc4 0x37 qp rd rs1 0 sw.code 4
  | .perm qp rd rs1 rs2 => enc4 0x38 qp rd rs1 rs2 0 0

/-- The bytes of an instruction in address order (R45). -/
def encodeBytes (i : Instr) : List Byte := bytesOfWord (encode i)

end Sys2Proof
end

