-- ==== Sys2Proof/Machine/State.lean ====
section
/-! DEFINITION. The machine's state as plain data (R38), the run outcomes (R230), the reasons a step can stop, and the
state at the start of a run (R37, R251). -/

namespace Sys2Proof.Machine

/-- The bytes of memory that differ from what an unlisted address reads as, by strictly rising address (R40). -/
abbrev Memory := List Host.Cell

/-- The run outcome (R230). The last three are terminal. The arguments of the two traps are what R235 lets an outcome
carry for proofs and tests; no instruction can read them. -/
inductive RunOutcome (W : Nat) where
  /-- The next step may be taken. -/
  | running
  /-- An executed `trap` instruction stopped the processor (R233). -/
  | halted
  /-- An unaligned fetch, load or store was attempted, at this address (R231). -/
  | unalignedAddressTrap (address : BitVec W)
  /-- An illegal encoding was fetched, this word (R232). -/
  | illegalInstructionTrap (word : BitVec 32)
  deriving DecidableEq, Repr

/-- The architectural state of a machine with `W`-bit registers (R38). -/
structure Mach (W : Nat) where
  /-- R1 to R31, R1 first; R0 is hardwired and is not stored (R20, R21). -/
  gpr : Vector (BitVec W) 31
  /-- The sixteen predicate register sets; bit `j` of a set is `Pj` (R24). -/
  pr : Vector (BitVec 8) 16
  /-- The number of the active predicate set (R26). -/
  aps : SetNum
  /-- The program counter, `AW = W` bits (R30). -/
  pc : BitVec W
  /-- The one byte-addressed memory (R40). -/
  mem : Memory
  /-- The run outcome carried beside the state (R230). -/
  outcome : RunOutcome W
  deriving DecidableEq, Repr

/-- A PLX machine: its configuration parameters (R7), which no step changes, and its state. -/
structure State where
  cfg : Config
  mach : Mach cfg.width.bits
  deriving DecidableEq, Repr

/-- The register width `W` of the machine (R6). -/
abbrev State.W (s : State) : Nat := s.cfg.width.bits

/-- The machine with the same configuration and the given state. -/
def State.withMach (s : State) (m : Mach s.W) : State := ⟨s.cfg, m⟩

/-- Why a step faults. The two traps of the spec are no faults: they are next states with a terminal outcome. -/
inductive Fault where
  /-- `step` in a state whose outcome is terminal: "no rule of this spec takes a step from them" (R230). Safe. -/
  | runEnded
  /-- A fetch, load or store that touches an address outside `MEM`: the spec gives it no meaning, and no trap (R52).
  Safe. The argument is the first address of the access. -/
  | outsideMem (address : Nat)
  deriving DecidableEq, Repr

/-- Why a step is refused. -/
inductive Refusal where
  /-- `exec` on an instruction that has no meaning yet. Safe. -/
  | notModelled (mnemonic : String)
  /-- A compare whose two destinations are one predicate other than P0: `refuse("Pd1 = Pd2")` (R110). Safe. -/
  | pd1EqualsPd2
  /-- An update load whose destination is its base register, other than R0: `refuse("load.update with Rd = Rs1")`
  (R129, R131). Safe. -/
  | loadUpdateRdEqualsRs1
  deriving DecidableEq, Repr

/-- The outcome of an operation on a machine with `W`-bit registers. -/
abbrev MOut (W : Nat) := Host.Outcome (Mach W) Fault Refusal

/-- The start of a run of the default machine (R37, R250 to R252). There is no reset event, signal or vector (R250): this
is a launch state. The spec fixes R0 = 0, P0 = 1 of every set and the outcome `Running`; for every other register,
predicate, `aps`, the pc and memory R250 finds no initial value, they are open (`INIT`, `MEM`), and the values here are
the model's (DESIGN CHOICE, log entries 3 and 4). -/
def State.reset : State where
  cfg := Config.standard
  mach :=
    { gpr := Vector.replicate 31 0
      pr := Vector.replicate 16 1
      aps := 0
      pc := 0
      mem := []
      outcome := .running }

end Sys2Proof.Machine
end

