-- ==== Sys2Proof/Machine/Ops.lean ====
section
/-! DEFINITION. The named operations over registers, predicates and memory, the raising of an exception, and the shape
every instruction has: its qualifying predicate, its effect, the advance of the pc. -/

namespace Sys2Proof.Machine

/-! ### General registers (R20 to R23) -/

/-- `x[r]`: R0 reads as 0, whatever was written to it (R21). -/
def Mach.rget {W : Nat} (m : Mach W) (r : Reg) : BitVec W :=
  if h : r.val = 0 then 0 else m.gpr[r.val - 1]'(by omega)

/-- `x[r] <- v`: a write to R0 has no effect (R21). -/
def Mach.rset {W : Nat} (m : Mach W) (r : Reg) (v : BitVec W) : Mach W :=
  if h : r.val = 0 then m else { m with gpr := m.gpr.set (r.val - 1) v (by omega) }

/-! ### Predicates (R24 to R27) -/

/-- The contents of the active predicate set. -/
def Mach.activeSet {W : Nat} (m : Mach W) : BitVec 8 := m.pr[m.aps.val]'m.aps.isLt

/-- `p[j]` of the active set: P0 reads as 1 whatever the set holds (R25). -/
def Mach.pget {W : Nat} (m : Mach W) (j : PredNum) : Bool :=
  if j = 0 then true else m.activeSet.getLsbD j.val

/-- The byte with bit `j` made `b`. -/
def putBit (v : BitVec 8) (j : Nat) (b : Bool) : BitVec 8 :=
  if b then v ||| (1#8 <<< j) else v &&& ~~~(1#8 <<< j)

/-- `p[j] <- b` in the active set: a write to P0 is discarded (R25). -/
def Mach.pset {W : Nat} (m : Mach W) (j : PredNum) (b : Bool) : Mach W :=
  if j = 0 then m
  else { m with pr := m.pr.set m.aps.val (putBit m.activeSet j.val b) m.aps.isLt }

/-- `aps <- k`: another predicate set becomes the active one (R26, R112). -/
def Mach.selectSet {W : Nat} (m : Mach W) (k : SetNum) : Mach W := { m with aps := k }

/-- `PR[k] <- image[7:1] ‖ 1`: the whole set but P0, which stays 1 (R25, R113). -/
def Mach.loadSet {W : Nat} (m : Mach W) (k : SetNum) (image : BitVec 8) : Mach W :=
  { m with pr := m.pr.set k.val (image ||| 1#8) k.isLt }

/-! ### The program counter (R30, R33) -/

/-- `pc <- target`. -/
def Mach.jumpTo {W : Nat} (m : Mach W) (target : BitVec W) : Mach W := { m with pc := target }

/-- The address of the next sequential instruction, modulo `2^AW` (R33, R35). -/
def Mach.nextPc {W : Nat} (m : Mach W) : BitVec W := m.pc + 4

/-- `pc <- pc + 4` (R33). -/
def Mach.advance {W : Nat} (m : Mach W) : Mach W := m.jumpTo m.nextPc

/-! ### Memory (R40 to R46) -/

/-- What an address that memory does not list reads as. The initial contents are the open parameter `MEM` (R37, R52);
0 is the model's (DESIGN CHOICE, log entry 4). -/
def unlistedByte : Byte := 0

/-- The byte at an address, `M[a]` (R40). -/
def Memory.read : Memory → Nat → Byte
  | [], _ => unlistedByte
  | (k, b) :: rest, a => if k = a then b else Memory.read rest a

/-- The memory with no entry for `a`. -/
def Memory.drop (mem : Memory) (a : Nat) : Memory := List.filter (fun c => c.1 != a) mem

/-- The memory with an entry for `a` put before the first higher address. -/
def Memory.insert : Memory → Nat → Byte → Memory
  | [], a, b => [(a, b)]
  | (k, c) :: rest, a, b => if k < a then (k, c) :: Memory.insert rest a b else (a, b) :: (k, c) :: rest

/-- `M[a] <- b`, keeping the addresses strictly rising and no entry that equals what an unlisted address reads as. -/
def Memory.write (mem : Memory) (a : Nat) (b : Byte) : Memory :=
  if b = unlistedByte then Memory.drop mem a else Memory.insert (Memory.drop mem a) a b

/-- The canonical form: addresses strictly rising, and no entry that equals what an unlisted address reads as. -/
def Memory.wf : Memory → Bool
  | [] => true
  | (k, b) :: rest => b != unlistedByte && rest.all (fun c => k < c.1) && Memory.wf rest

/-- `MemRead(a, n)` as a number: little-endian, the byte at `a` least significant (R43, R45). An aligned access does
not wrap (R41). -/
def Memory.readLE (mem : Memory) (a : Nat) : Nat → Nat
  | 0 => 0
  | n + 1 => (mem.read a).toNat + 256 * Memory.readLE mem (a + 1) n

/-- `MemWrite(a, n, v)`: the `n` low bytes of `v`, the least significant at `a` (R44). -/
def Memory.writeLE (mem : Memory) (a : Nat) (v : Nat) : Nat → Memory
  | 0 => mem
  | n + 1 => Memory.writeLE (mem.write a (BitVec.ofNat 8 v)) (a + 1) (v / 256) n

/-- `M[a .. a+n-1]` written with the low `n` bytes of `v`. -/
def Mach.store {W : Nat} (m : Mach W) (n a v : Nat) : Mach W := { m with mem := m.mem.writeLE a v n }

/-- Whether the byte at `b` exists: it lies in no absent range (`MEM`, R52). -/
def byteExists (absent : List AddrRange) (b : Nat) : Bool :=
  absent.all fun r => b < r.base || r.base + r.size ≤ b

/-- Whether all of `n` bytes from `a` exist (`MEM`, R52). -/
def present (absent : List AddrRange) (a n : Nat) : Bool :=
  (List.range n).all fun k => byteExists absent (a + k)

/-! ### Exceptions (R230 to R236) -/

/-- Taking an exception, or halting: the run ends in the named outcome, and the state is the one before the
instruction: registers, predicate sets, `aps` and memory unchanged, `pc` left at the instruction (R236). There is no
handler address, saved state or cause code (R234 to R236), and no return from an exception (R239). -/
def Mach.raise {W : Nat} (m : Mach W) (o : RunOutcome W) : Mach W := { m with outcome := o }

/-- An access of `n` bytes at `a`, in the order of R237: an address that is not a multiple of `n` raises the Unaligned
Address Trap, nothing being written (R47, R49); an address outside `MEM` has no meaning (R52); otherwise the access is
performed, as `k` says. -/
def access {W : Nat} (cfg : Config) (m : Mach W) (n : Nat) (a : BitVec W) (k : MOut W) : MOut W :=
  if a.toNat % n ≠ 0 then .next (m.raise (.unalignedAddressTrap a))
  else if present cfg.absent a.toNat n then k
  else .fault (.outsideMem a.toNat)

/-! ### The shape of an instruction (R31 to R33) -/

/-- An operation's answer as an answer of the whole machine. -/
def State.answer (s : State) : MOut s.W → Host.Outcome State Fault Refusal
  | .next m => .next (s.withMach m)
  | .fault f => .fault f
  | .refused r => .refused r

/-- Steps 4 and 5 of R31: when `p[qp]` is 0 the instruction does nothing but `pc <- pc + 4` (R32); otherwise its
Operation runs. -/
def State.predicated (s : State) (qp : PredNum) (operation : Mach s.W → MOut s.W) :
    Host.Outcome State Fault Refusal :=
  s.answer (if s.mach.pget qp then operation s.mach else .next s.mach.advance)

/-- The instructions whose one effect is `x[rd] <- v`: the write, then `pc <- pc + 4` (R33). -/
def State.writesReg (s : State) (qp : PredNum) (rd : Reg) (v : Mach s.W → BitVec s.W) :
    Host.Outcome State Fault Refusal :=
  s.predicated qp fun m => .next (m.rset rd (v m)).advance

/-! ### Fetch (R31 steps 1 and 2, R45) -/

/-- The instruction word at `pc`: `MemRead(pc, 4)` (R45). -/
def Mach.fetchWord {W : Nat} (m : Mach W) : BitVec 32 := BitVec.ofNat 32 (m.mem.readLE m.pc.toNat 4)

/-- What a fetch answers. -/
inductive Fetched where
  /-- The word at `pc`. -/
  | word (w : BitVec 32)
  /-- `pc` is not a multiple of 4 (R48). -/
  | misaligned
  /-- The four bytes at `pc` do not all exist (R52). -/
  | outside
  deriving DecidableEq, Repr

/-- The fetch of the instruction at `pc` (R31 steps 1 and 2, R48). -/
def Mach.fetch {W : Nat} (m : Mach W) (absent : List AddrRange) : Fetched :=
  if m.pc.toNat % 4 ≠ 0 then .misaligned
  else if present absent m.pc.toNat 4 then .word m.fetchWord
  else .outside

/-- The memory with the four bytes of `w` where the instruction at `pc` is fetched (R45). -/
def Mach.placeWord {W : Nat} (m : Mach W) (w : Nat) : Mach W := m.store 4 m.pc.toNat w

/-- The state in which the exception or the halt `o` has been taken (R236). -/
def State.raise (s : State) (o : RunOutcome s.W) : State := s.withMach (s.mach.raise o)

end Sys2Proof.Machine
end

