-- ==== Sys2Proof/Machine/Operands.lean ====
section
/-! DEFINITION. The operand forms: immediates and their extension (R72), effective addresses (R125), loaded and stored
values, and shift amounts. -/

namespace Sys2Proof.Machine

/-! ### Immediates (R72) -/

/-- `sext_W(imm)`. -/
def sext (W : Nat) {k : Nat} (imm : BitVec k) : BitVec W := imm.signExtend W

/-- `zext_W(imm)`. -/
def zext (W : Nat) {k : Nat} (imm : BitVec k) : BitVec W := imm.setWidth W

/-- `zext_W(imm16) << (16·pos)` (R126). -/
def placeImm16 (W : Nat) (pos : Fin 4) (imm16 : BitVec 16) : BitVec W := zext W imm16 <<< (16 * pos.val)

/-! ### Jump targets (R100 to R103) -/

/-- `pc + JMP_SCALE · sext_AW(imm23)`, from the jump's own address (R100, R105). -/
def Mach.relativeTarget {W : Nat} (m : Mach W) (scale : Nat) (imm23 : BitVec 23) : BitVec W :=
  m.pc + BitVec.ofNat W scale * sext W imm23

/-- The target of a register jump: `pc + x[Rd]`, or `x[Rd]` under `JMPREG_MODE = absolute`, which is not what the source
says (R102; log entry 27). -/
def Mach.registerTarget {W : Nat} (m : Mach W) (mode : JmpRegMode) (rd : Reg) : BitVec W :=
  match mode with
  | .relative => m.pc + m.rget rd
  | .absolute => m.rget rd

/-! ### Effective addresses (R125 (b), R128 to R133) -/

/-- Displacement mode: `x[Rs1] + sext_W(imm13)`, modulo `2^W` (R128). It is also the base that an update form writes
back (R129). -/
def Mach.displaced {W : Nat} (m : Mach W) (rs1 : Reg) (imm13 : BitVec 13) : BitVec W :=
  m.rget rs1 + sext W imm13

/-- Indexed mode: `x[Rs1] + x[Rs2]`, modulo `2^W` (R130). It is also the base that the update form writes back
(R131). -/
def Mach.indexed {W : Nat} (m : Mach W) (rs1 rs2 : Reg) : BitVec W := m.rget rs1 + m.rget rs2

/-- The value loaded from `n` bytes at `a`: the `8n` bits of `MemRead(a, n)`, widened by `LOAD_EXT` where the register
is wider (R125 (d)); where `8n = W` both extensions give the bits themselves. -/
def Mach.loaded {W : Nat} (m : Mach W) (ext : LoadExt) (n : Nat) (a : BitVec W) : BitVec W :=
  match ext with
  | .zero => zext W (BitVec.ofNat (8 * n) (m.mem.readLE a.toNat n))
  | .sign => sext W (BitVec.ofNat (8 * n) (m.mem.readLE a.toNat n))

/-! ### Shift amounts (R145 (d)) -/

/-- `u(imm13) mod W` of the immediate shifts (R156); under the other reading of `NUM`, `imm13 = W` shifts everything out
(D22, U12). -/
def immShiftAmount (reading : ShiftAmount) (W : Nat) (imm13 : BitVec 13) : Nat :=
  match reading with
  | .modulo => imm13.toNat % W
  | .shiftOut => if imm13.toNat = W then W else imm13.toNat % W

/-- `u(imm8) mod 2W` of `shrp` (R153). -/
def pairShiftAmount (W : Nat) (imm8 : BitVec 8) : Nat := imm8.toNat % (2 * W)

/-- The amount by which subwords of `b` bits are shifted: modulo `b` (R200), or, under the other reading of `NUM`, as
it is, so that an amount of `b` or more shifts everything out (D30). -/
def subwordShiftAmount (reading : ShiftAmount) (b amount : Nat) : Nat :=
  match reading with
  | .modulo => amount % b
  | .shiftOut => min amount b

/-- The low half of the pair `hi ‖ lo` shifted right logically by `k` (R153). -/
def shiftRightPair {W : Nat} (hi lo : BitVec W) (k : Nat) : BitVec W := ((hi ++ lo) >>> k).setWidth W

end Sys2Proof.Machine
end

