-- ==== Sys2Proof/Machine/AluImmediate.lean ====
section
/-! DEFINITION. ALU with an immediate: `addi`, `andi`, `ori`, `subi`, `xori` (R140 to R144). -/

namespace Sys2Proof.Machine

/-- `addi Rd, Rs1, imm13`: the immediate is sign-extended (R140). -/
def execAddi (qp : PredNum) (rd rs1 : Reg) (imm13 : BitVec 13) (s : State) : Host.Outcome State Fault Refusal :=
  s.writesReg qp rd fun m => m.rget rs1 + sext s.W imm13

/-- `andi Rd, Rs1, imm13`: the immediate is zero-extended (R141). -/
def execAndi (qp : PredNum) (rd rs1 : Reg) (imm13 : BitVec 13) (s : State) : Host.Outcome State Fault Refusal :=
  s.writesReg qp rd fun m => m.rget rs1 &&& zext s.W imm13

/-- `ori Rd, Rs1, imm13`: the immediate is zero-extended (R142). -/
def execOri (qp : PredNum) (rd rs1 : Reg) (imm13 : BitVec 13) (s : State) : Host.Outcome State Fault Refusal :=
  s.writesReg qp rd fun m => m.rget rs1 ||| zext s.W imm13

/-- `subi Rd, Rs1, imm13`: the immediate is sign-extended (R143). -/
def execSubi (qp : PredNum) (rd rs1 : Reg) (imm13 : BitVec 13) (s : State) : Host.Outcome State Fault Refusal :=
  s.writesReg qp rd fun m => m.rget rs1 - sext s.W imm13

/-- `xori Rd, Rs1, imm13`: the immediate is zero-extended (R144). -/
def execXori (qp : PredNum) (rd rs1 : Reg) (imm13 : BitVec 13) (s : State) : Host.Outcome State Fault Refusal :=
  s.writesReg qp rd fun m => m.rget rs1 ^^^ zext s.W imm13

end Sys2Proof.Machine
end

