-- ==== Sys2Proof/Machine/Subword.lean ====
section
/-! DEFINITION. Subwords (R11), saturation (R12), bit fields, and the common forms of the parallel instructions
(R160) and of the permutations (R210). -/

namespace Sys2Proof.Machine

/-- `SW(v, b, k) = v[(k+1)·b-1 : k·b]`, subword 0 the least significant (R11). -/
def subword {W : Nat} (v : BitVec W) (b k : Nat) : BitVec b := v.extractLsb' (k * b) b

/-- `f (n-1) ‖ ... ‖ f 1 ‖ f 0`, `n` subwords of `b` bits in a `W`-bit register (R160). -/
def assemble (W b : Nat) (f : Nat → BitVec b) : Nat → BitVec W
  | 0 => 0
  | n + 1 => assemble W b f n ||| ((f n).setWidth W <<< (n * b))

/-- A register made of its `W / b` subwords. -/
def bySubword (W b : Nat) (f : Nat → BitVec b) : BitVec W := assemble W b f (W / b)

/-- The common form of the parallel instructions on one source: `r_k = f(SW(v, b, k))` at every position. -/
def parallel1 {W : Nat} (b : Nat) (f : BitVec b → BitVec b) (v : BitVec W) : BitVec W :=
  bySubword W b fun k => f (subword v b k)

/-- The common form of the parallel instructions: `r_k = f(SW(x, b, k), SW(y, b, k))` at every position (R160). -/
def parallel2 {W : Nat} (b : Nat) (f : BitVec b → BitVec b → BitVec b) (x y : BitVec W) : BitVec W :=
  bySubword W b fun k => f (subword x b k) (subword y b k)

/-- The common form of the permutations: `r_k = a_(sel k)`, whole subwords moved (R210). -/
def permute {W : Nat} (b : Nat) (sel : Nat → Nat) (a : BitVec W) : BitVec W :=
  bySubword W b fun k => subword a b (sel k)

/-- Unsigned saturation `satu_b` (R12). -/
def satU (b : Nat) (z : Int) : BitVec b := BitVec.ofInt b (min (max z 0) (((2 ^ b : Nat) : Int) - 1))

/-- Signed saturation `sats_b` (R12). -/
def satS (b : Nat) (z : Int) : BitVec b :=
  BitVec.ofInt b (min (max z (-((2 ^ (b - 1) : Nat) : Int))) (((2 ^ (b - 1) : Nat) : Int) - 1))

/-- The register with `len` ones from bit `pos`. -/
def fieldMask (W pos len : Nat) : BitVec W := (BitVec.allOnes len).setWidth W <<< pos

/-- `t[pos+len-1 : pos] <- v[len-1 : 0]`, the remaining bits of `t` unchanged (R127, R155). -/
def insertField {W : Nat} (t : BitVec W) (pos len : Nat) (v : BitVec W) : BitVec W :=
  (t &&& ~~~fieldMask W pos len) ||| ((v <<< pos) &&& fieldMask W pos len)

/-- `zext_W(v[pos+len-1 : pos])` (R154). -/
def extractField {W : Nat} (v : BitVec W) (pos len : Nat) : BitVec W := (v.extractLsb' pos len).setWidth W

/-! ### Subword functions of the parallel ALU (R161 to R182) -/

/-- `trunc_b(u(a) + u(c))` (R161). -/
def addMod {b : Nat} (a c : BitVec b) : BitVec b := a + c

/-- `satu_b(u(a) + u(c))` (R162). -/
def addSatU {b : Nat} (a c : BitVec b) : BitVec b := satU b ((a.toNat : Int) + c.toNat)

/-- `sats_b(s(a) + s(c))` (R163). -/
def addSatS {b : Nat} (a c : BitVec b) : BitVec b := satS b (a.toInt + c.toInt)

/-- `trunc_b(u(a) + u(c) + 1)` (R164). -/
def addIncr {b : Nat} (a c : BitVec b) : BitVec b := a + c + 1

/-- `trunc_b(u(a) - u(c))` (R165). -/
def subMod {b : Nat} (a c : BitVec b) : BitVec b := a - c

/-- `satu_b(u(a) - u(c))` (R166). -/
def subSatU {b : Nat} (a c : BitVec b) : BitVec b := satU b ((a.toNat : Int) - c.toNat)

/-- `sats_b(s(a) - s(c))` (R167). -/
def subSatS {b : Nat} (a c : BitVec b) : BitVec b := satS b (a.toInt - c.toInt)

/-- `trunc_b(u(a) - u(c) - 1)` (R168). -/
def subDecr {b : Nat} (a c : BitVec b) : BitVec b := a - c - 1

/-- `v` with its least significant bit replaced. -/
def putLowBit {b : Nat} (v : BitVec b) (low : Bool) : BitVec b :=
  (v &&& ~~~(1#b)) ||| (BitVec.ofBool low).setWidth b

/-- `t[b:1]` of a `b+1`-bit `t`, its least significant bit replaced by the or of two low bits: `t[1] | t[0]`, before
the shift (R169, R171), or, under the literal reading of `NUM`, bits 1 and 0 of `t[b:1]` (D27). -/
def halveToOdd {b : Nat} (reading : AvgLow) (t : BitVec (b + 1)) : BitVec b :=
  let shifted := t.extractLsb' 1 b
  match reading with
  | .beforeShift => putLowBit shifted (t.getLsbD 1 || t.getLsbD 0)
  | .afterShift => putLowBit shifted (shifted.getLsbD 1 || shifted.getLsbD 0)

/-- `pavg`: the `b+1`-bit sum, halved to odd (R169). -/
def average {b : Nat} (reading : AvgLow) (a c : BitVec b) : BitVec b :=
  halveToOdd reading (a.setWidth (b + 1) + c.setWidth (b + 1))

/-- `pavg.raz`: bits `b:1` of the `b+1`-bit `u(a) + u(c) + 1` (R170). -/
def averageRaz {b : Nat} (a c : BitVec b) : BitVec b :=
  (a.setWidth (b + 1) + c.setWidth (b + 1) + 1).extractLsb' 1 b

/-- `psubavg`: the `b+1`-bit difference, whose top bit is the borrow, halved to odd (R171); under the other reading of
`NUM` the top bit of the result is inverted (D27). -/
def subAverage {b : Nat} (num : Num) (a c : BitVec b) : BitVec b :=
  let r := halveToOdd num.avgLow (a.setWidth (b + 1) - c.setWidth (b + 1))
  match num.subAvgTop with
  | .borrow => r
  | .carryOut => r ^^^ (1#b <<< (b - 1))

/-- All ones where the condition holds, else all zeros (R177, R178). -/
def maskIf (b : Nat) (c : Bool) : BitVec b := if c then BitVec.allOnes b else 0

/-- `pcmp.sw.eq` (R177). -/
def cmpEqMask {b : Nat} (a c : BitVec b) : BitVec b := maskIf b (a == c)

/-- `pcmp.sw.gt`, signed and strict (R178). -/
def cmpGtMask {b : Nat} (a c : BitVec b) : BitVec b := maskIf b (c.slt a)

/-- `if s(a) >= s(c) then a else c` (R179). -/
def maxSigned {b : Nat} (a c : BitVec b) : BitVec b := if c.sle a then a else c

/-- `if s(a) <= s(c) then a else c` (R180). -/
def minSigned {b : Nat} (a c : BitVec b) : BitVec b := if a.sle c then a else c

/-- `sats_16(s(a)·2^sa + s(c))` (R181); under the other reading of `NUM` the shifted subword is first truncated to 16
bits (D28). -/
def shiftLeftAdd (reading : ShiftAddLeft) (sa : Nat) (a c : BitVec 16) : BitVec 16 :=
  match reading with
  | .exact => satS 16 (a.toInt * ((2 ^ sa : Nat) : Int) + c.toInt)
  | .truncate => satS 16 ((a <<< sa).toInt + c.toInt)

/-- `sats_16(floor(s(a) / 2^sa) + s(c))` (R182); under the other reading of `NUM` the shift is logical (D28, U11; log
entry 14). -/
def shiftRightAdd (reading : ShiftAddRight) (sa : Nat) (a c : BitVec 16) : BitVec 16 :=
  match reading with
  | .arithmetic => satS 16 ((a.sshiftRight sa).toInt + c.toInt)
  | .logical => satS 16 ((a >>> sa).toNat + c.toInt)

/-! ### Where things go (`NUM`) -/

/-- What goes to position `k` of `n`: what the rule says, or, under a listed arrangement of `NUM` that is a permutation of
the `n` numbers, what the list says (D29, D31). -/
def arranged (reading : Arrangement) (std : Nat → Nat → Nat) (n k : Nat) : Nat :=
  match reading with
  | .standard => std n k
  | .listed sources => if sources.isPerm (List.range n) then sources.getD k 0 else std n k

/-! ### Products (R190 to R196) -/

/-- The signed 32-bit product of two halfwords (R191). -/
def mulS (a c : BitVec 16) : BitVec 32 := BitVec.ofInt 32 (a.toInt * c.toInt)

/-- The unsigned 32-bit product of two halfwords (R192). -/
def mulU (a c : BitVec 16) : BitVec 32 := BitVec.ofNat 32 (a.toNat * c.toNat)

/-- The common form of `pmul`: the product of the two halfwords at position `half` (1 the upper, 0 the lower) of a word of
the sources is written to that word, or to the word that the arrangement of `NUM` gives it (R190 (b), D29). -/
def mulHalves {W : Nat} (product : BitVec 16 → BitVec 16 → BitVec 32) (place : Arrangement) (half : Nat)
    (x y : BitVec W) : BitVec W :=
  bySubword W 32 fun k =>
    let j := arranged place (fun _ k => k) (W / 32) k
    product (subword x 16 (2 * j + half)) (subword y 16 (2 * j + half))

/-- The position in a word of its "odd indexed" halfword (R190 (a), and the other parity of `NUM`, D29). -/
def oddHalfPos : OddHalf → Nat
  | .upper => 1
  | .lower => 0

/-- The position in a word of its "even indexed" halfword (R190 (a)). -/
def evenHalfPos : OddHalf → Nat
  | .upper => 0
  | .lower => 1

/-- The half of a shifted product that is written: its low 16 bits (R195), or, under the other reading of `NUM`, its high
16 bits (D29). -/
def productHalf (reading : ProductHalf) (t : BitVec 32) : BitVec 16 :=
  match reading with
  | .low => t.setWidth 16
  | .high => t.extractLsb' 16 16

/-- `pmulshr`: half of the unsigned product shifted right logically by `sa` (R195). -/
def mulShiftU (half : ProductHalf) (sa : Nat) (a c : BitVec 16) : BitVec 16 := productHalf half (mulU a c >>> sa)

/-- `pmulshr.a`: half of the signed product shifted right arithmetically by `sa` (R196). -/
def mulShiftS (half : ProductHalf) (sa : Nat) (a c : BitVec 16) : BitVec 16 :=
  productHalf half ((mulS a c).sshiftRight sa)

/-! ### Subword selections of the permutations (R211 to R218) -/

/-- `mix.sw.l`: `r_(2j+1) = a_(2j+1)`, `r_(2j) = c_(2j+1)` (R211). -/
def mixLeft {W : Nat} (b : Nat) (a c : BitVec W) : BitVec W :=
  bySubword W b fun k => if k % 2 = 1 then subword a b k else subword c b (k + 1)

/-- `mix.sw.r`: `r_(2j+1) = a_(2j)`, `r_(2j) = c_(2j)` (R212). -/
def mixRight {W : Nat} (b : Nat) (a c : BitVec W) : BitVec W :=
  bySubword W b fun k => if k % 2 = 1 then subword a b (k - 1) else subword c b k

/-- `mux.sw.rev` on `n` subwords: `r_k = a_(n-1-k)` (R213). -/
def muxRevSel (n k : Nat) : Nat := n - 1 - k

/-- `mux.sw.mix` on `n` subwords, `h = n/2`: the upper half of the result is the mix left of the two halves of the
source, the lower half their mix right (R214). -/
def muxMixSel (n k : Nat) : Nat :=
  let h := n / 2
  if h ≤ k then (if (k - h) % 2 = 1 then k else k - h + 1)
  else (if k % 2 = 1 then h + k - 1 else k)

/-- `mux.sw.shuf` on `n` subwords: `r_(2i+1) = a_(h+i)`, `r_(2i) = a_i` (R215). -/
def muxShufSel (n k : Nat) : Nat := if k % 2 = 1 then n / 2 + k / 2 else k / 2

/-- `mux.sw.alt` on `n` subwords: `r_(h+i) = a_(2i+1)`, `r_i = a_(2i)` (R216). -/
def muxAltSel (n k : Nat) : Nat := if n / 2 ≤ k then 2 * (k - n / 2) + 1 else 2 * k

/-- `log2 n` for the numbers of halfwords a register can hold: 2, 4 or 8 (R218). -/
def selectorBits (n : Nat) : Nat := if n ≤ 2 then 1 else if n ≤ 4 then 2 else 3

/-- Selector `j` of a `perm` control on `n` subwords, `sel_j = u(ctl[(j+1)·g-1 : j·g])` (R218). -/
def permSelector {W : Nat} (ctl : BitVec W) (n j : Nat) : Nat :=
  (ctl.extractLsb' (j * selectorBits n) (selectorBits n)).toNat

/-- Number `k` of `n`, counted from the least significant end, as counted from the given end, and back (D32). -/
def countedFrom (order : PermOrder) (n k : Nat) : Nat :=
  match order with
  | .fromLow => k
  | .fromHigh => n - 1 - k

/-- `perm` on `n` subwords: the source subword of destination `k`, destinations and sources each numbered from the least
significant end (R218), or from the most significant one under the other readings of `NUM` (D32). -/
def permSel {W : Nat} (dest source : PermOrder) (ctl : BitVec W) (n k : Nat) : Nat :=
  countedFrom source n (permSelector ctl n (countedFrom dest n k))

end Sys2Proof.Machine
end

