-- ==== Sys2Proof/Machine/AluParallel.lean ====
section
/-! DEFINITION. ALU, parallel and logical (R160 to R183): `padd`, `paddincr`, `psub`, `psubdecr`, `pavg`, `psubavg`, `and`,
`andcm`, `or`, `xor`, `not`, `pcmp`, `pmax`, `pmin`, `pshiftadd`. -/

namespace Sys2Proof.Machine

/-- `padd.sw Rd, Rs1, Rs2` (R161). -/
def execPadd (qp : PredNum) (sw : Sw) (rd rs1 rs2 : Reg) (s : State) : Host.Outcome State Fault Refusal :=
  s.writesReg qp rd fun m => parallel2 sw.bits addMod (m.rget rs1) (m.rget rs2)

/-- `padd.sw.u Rd, Rs1, Rs2` (R162). -/
def execPaddU (qp : PredNum) (sw : Sw) (rd rs1 rs2 : Reg) (s : State) : Host.Outcome State Fault Refusal :=
  s.writesReg qp rd fun m => parallel2 sw.bits addSatU (m.rget rs1) (m.rget rs2)

/-- `padd.sw.s Rd, Rs1, Rs2` (R163). -/
def execPaddS (qp : PredNum) (sw : Sw) (rd rs1 rs2 : Reg) (s : State) : Host.Outcome State Fault Refusal :=
  s.writesReg qp rd fun m => parallel2 sw.bits addSatS (m.rget rs1) (m.rget rs2)

/-- `paddincr.sw Rd, Rs1, Rs2`; the destination is `Rd` (R164, C3). -/
def execPaddincr (qp : PredNum) (sw : Sw) (rd rs1 rs2 : Reg) (s : State) : Host.Outcome State Fault Refusal :=
  s.writesReg qp rd fun m => parallel2 sw.bits addIncr (m.rget rs1) (m.rget rs2)

/-- `psub.sw Rd, Rs1, Rs2` (R165). -/
def execPsub (qp : PredNum) (sw : Sw) (rd rs1 rs2 : Reg) (s : State) : Host.Outcome State Fault Refusal :=
  s.writesReg qp rd fun m => parallel2 sw.bits subMod (m.rget rs1) (m.rget rs2)

/-- `psub.sw.u Rd, Rs1, Rs2` (R166). -/
def execPsubU (qp : PredNum) (sw : Sw) (rd rs1 rs2 : Reg) (s : State) : Host.Outcome State Fault Refusal :=
  s.writesReg qp rd fun m => parallel2 sw.bits subSatU (m.rget rs1) (m.rget rs2)

/-- `psub.sw.s Rd, Rs1, Rs2` (R167). -/
def execPsubS (qp : PredNum) (sw : Sw) (rd rs1 rs2 : Reg) (s : State) : Host.Outcome State Fault Refusal :=
  s.writesReg qp rd fun m => parallel2 sw.bits subSatS (m.rget rs1) (m.rget rs2)

/-- `psubdecr.sw Rd, Rs1, Rs2` (R168). -/
def execPsubdecr (qp : PredNum) (sw : Sw) (rd rs1 rs2 : Reg) (s : State) : Host.Outcome State Fault Refusal :=
  s.writesReg qp rd fun m => parallel2 sw.bits subDecr (m.rget rs1) (m.rget rs2)

/-- `pavg.sw Rd, Rs1, Rs2`; the destination is `Rd` (R169, C3). -/
def execPavg (qp : PredNum) (sw : Sw) (rd rs1 rs2 : Reg) (s : State) : Host.Outcome State Fault Refusal :=
  s.writesReg qp rd fun m => parallel2 sw.bits (average s.cfg.num.avgLow) (m.rget rs1) (m.rget rs2)

/-- `pavg.sw.raz Rd, Rs1, Rs2`; the destination is `Rd` (R170, C3). -/
def execPavgRaz (qp : PredNum) (sw : Sw) (rd rs1 rs2 : Reg) (s : State) : Host.Outcome State Fault Refusal :=
  s.writesReg qp rd fun m => parallel2 sw.bits averageRaz (m.rget rs1) (m.rget rs2)

/-- `psubavg.sw Rd, Rs1, Rs2`; the destination is `Rd` (R171, C3). -/
def execPsubavg (qp : PredNum) (sw : Sw) (rd rs1 rs2 : Reg) (s : State) : Host.Outcome State Fault Refusal :=
  s.writesReg qp rd fun m => parallel2 sw.bits (subAverage s.cfg.num) (m.rget rs1) (m.rget rs2)

/-- `and Rd, Rs1, Rs2` (R172). -/
def execAndReg (qp : PredNum) (rd rs1 rs2 : Reg) (s : State) : Host.Outcome State Fault Refusal :=
  s.writesReg qp rd fun m => m.rget rs1 &&& m.rget rs2

/-- `andcm Rd, Rs1, Rs2`: it is `Rs2` that is complemented (R173). -/
def execAndcm (qp : PredNum) (rd rs1 rs2 : Reg) (s : State) : Host.Outcome State Fault Refusal :=
  s.writesReg qp rd fun m => m.rget rs1 &&& ~~~m.rget rs2

/-- `or Rd, Rs1, Rs2` (R174). -/
def execOrReg (qp : PredNum) (rd rs1 rs2 : Reg) (s : State) : Host.Outcome State Fault Refusal :=
  s.writesReg qp rd fun m => m.rget rs1 ||| m.rget rs2

/-- `xor Rd, Rs1, Rs2` (R175). -/
def execXorReg (qp : PredNum) (rd rs1 rs2 : Reg) (s : State) : Host.Outcome State Fault Refusal :=
  s.writesReg qp rd fun m => m.rget rs1 ^^^ m.rget rs2

/-- `not Rd, Rs1` (R176). -/
def execNotReg (qp : PredNum) (rd rs1 : Reg) (s : State) : Host.Outcome State Fault Refusal :=
  s.writesReg qp rd fun m => ~~~m.rget rs1

/-- `pcmp.sw.eq Rd, Rs1, Rs2` (R177). -/
def execPcmpEq (qp : PredNum) (sw : Sw) (rd rs1 rs2 : Reg) (s : State) : Host.Outcome State Fault Refusal :=
  s.writesReg qp rd fun m => parallel2 sw.bits cmpEqMask (m.rget rs1) (m.rget rs2)

/-- `pcmp.sw.gt Rd, Rs1, Rs2` (R178). -/
def execPcmpGt (qp : PredNum) (sw : Sw) (rd rs1 rs2 : Reg) (s : State) : Host.Outcome State Fault Refusal :=
  s.writesReg qp rd fun m => parallel2 sw.bits cmpGtMask (m.rget rs1) (m.rget rs2)

/-- `pmax.sw Rd, Rs1, Rs2` (R179). -/
def execPmax (qp : PredNum) (sw : Sw) (rd rs1 rs2 : Reg) (s : State) : Host.Outcome State Fault Refusal :=
  s.writesReg qp rd fun m => parallel2 sw.bits maxSigned (m.rget rs1) (m.rget rs2)

/-- `pmin.sw Rd, Rs1, Rs2` (R180). -/
def execPmin (qp : PredNum) (sw : Sw) (rd rs1 rs2 : Reg) (s : State) : Host.Outcome State Fault Refusal :=
  s.writesReg qp rd fun m => parallel2 sw.bits minSigned (m.rget rs1) (m.rget rs2)

/-- `pshiftadd.sa.l Rd, Rs1, Rs2` (R181). -/
def execPshiftaddL (qp : PredNum) (sa : AddSa) (rd rs1 rs2 : Reg) (s : State) : Host.Outcome State Fault Refusal :=
  s.writesReg qp rd fun m => parallel2 16 (shiftLeftAdd s.cfg.num.shiftAddLeft sa.amount) (m.rget rs1) (m.rget rs2)

/-- `pshiftadd.sa.r Rd, Rs1, Rs2` (R182). -/
def execPshiftaddR (qp : PredNum) (sa : AddSa) (rd rs1 rs2 : Reg) (s : State) : Host.Outcome State Fault Refusal :=
  s.writesReg qp rd fun m => parallel2 16 (shiftRightAdd s.cfg.num.shiftAddRight sa.amount) (m.rget rs1) (m.rget rs2)

end Sys2Proof.Machine
end

