-- ==== Sys2Proof/Machine/Flags.lean ====
section
/-! DEFINITION. The predicates a compare computes and writes. PLX has no flags or condition codes (R28); its predicate
registers are what a compare writes and every instruction reads. -/

namespace Sys2Proof.Machine

/-- `REL(rel, a, b)`: the relation on all `W` bits of both operands (R111). -/
def relHolds {W : Nat} (rel : Rel) (a b : BitVec W) : Bool :=
  match rel with
  | .eq => a == b
  | .ne => a != b
  | .lt => a.slt b
  | .le => a.sle b
  | .gt => b.slt a
  | .ge => b.sle a
  | .ltu => a.ult b
  | .leu => a.ule b
  | .gtu => b.ult a
  | .geu => b.ule a

/-- `p[Pd1] <- t; p[Pd2] <- ~t` in the active set (R110). -/
def Mach.writePair {W : Nat} (m : Mach W) (pd1 pd2 : PredNum) (t : Bool) : Mach W :=
  (m.pset pd1 t).pset pd2 (!t)

/-- Two destinations that are one predicate other than P0 receive two different values, and the spec refuses to say
which survives; P0 for both is legal (R110). -/
def guardPair {W : Nat} (pd1 pd2 : PredNum) (answer : MOut W) : MOut W :=
  if pd1 = pd2 ∧ pd1 ≠ 0 then .refused .pd1EqualsPd2 else answer

/-- The instructions that write a predicate pair and go on: the pair `t`, `~t` where `t` is given, or nothing
(R110, R115, R116). -/
def State.writesPair (s : State) (qp pd1 pd2 : PredNum) (t : Mach s.W → Option Bool) :
    Host.Outcome State Fault Refusal :=
  s.predicated qp fun m =>
    guardPair pd1 pd2 (.next (match t m with
      | some b => (m.writePair pd1 pd2 b).advance
      | none => m.advance))

end Sys2Proof.Machine
end

