-- ==== Sys2Proof/Machine/Compare.lean ====
section
/-! DEFINITION. Compare and predication: `changepr`, `changepr.ld`, `cmp.rel`, `cmp.rel.pw0`, `cmp.rel.pw1`, `cmpi.rel`,
`testbit` (R110 to R118). -/

namespace Sys2Proof.Machine

/-- `changepr imm4` (R112). -/
def execChangepr (qp : PredNum) (imm4 : SetNum) (s : State) : Host.Outcome State Fault Refusal :=
  s.predicated qp fun m => .next (m.selectSet imm4).advance

/-- `changepr.ld imm4, imm8` (R113). -/
def execChangeprLd (qp : PredNum) (imm4 : SetNum) (imm8 : BitVec 8) (s : State) :
    Host.Outcome State Fault Refusal :=
  s.predicated qp fun m => .next ((m.selectSet imm4).loadSet imm4 imm8).advance

/-- `cmp.rel Rs1, Rs2, Pd1, Pd2` (R114). -/
def execCmp (qp : PredNum) (rel : Rel) (rs1 rs2 : Reg) (pd1 pd2 : PredNum) (s : State) :
    Host.Outcome State Fault Refusal :=
  s.writesPair qp pd1 pd2 fun m => some (relHolds rel (m.rget rs1) (m.rget rs2))

/-- `cmp.rel.pw0 Rs1, Rs2, Pd1, Pd2`: 0 to `Pd1` and 1 to `Pd2` when the relation is true, else nothing (R115). -/
def execCmpPw0 (qp : PredNum) (rel : Rel) (rs1 rs2 : Reg) (pd1 pd2 : PredNum) (s : State) :
    Host.Outcome State Fault Refusal :=
  s.writesPair qp pd1 pd2 fun m => if relHolds rel (m.rget rs1) (m.rget rs2) then some false else none

/-- `cmp.rel.pw1 Rs1, Rs2, Pd1, Pd2`: 1 to `Pd1` and 0 to `Pd2` when the relation is true, else nothing (R116). -/
def execCmpPw1 (qp : PredNum) (rel : Rel) (rs1 rs2 : Reg) (pd1 pd2 : PredNum) (s : State) :
    Host.Outcome State Fault Refusal :=
  s.writesPair qp pd1 pd2 fun m => if relHolds rel (m.rget rs1) (m.rget rs2) then some true else none

/-- `cmpi.rel Rs1, imm8, Pd1, Pd2`: the immediate is sign-extended for every relation (R117). -/
def execCmpi (qp : PredNum) (rel : Rel) (rs1 : Reg) (imm8 : BitVec 8) (pd1 pd2 : PredNum) (s : State) :
    Host.Outcome State Fault Refusal :=
  s.writesPair qp pd1 pd2 fun m => some (relHolds rel (m.rget rs1) (sext s.W imm8))

/-- `testbit Rs1, imm8, Pd1, Pd2` (R118). -/
def execTestbit (qp : PredNum) (rs1 : Reg) (imm8 : BitVec 8) (pd1 pd2 : PredNum) (s : State) :
    Host.Outcome State Fault Refusal :=
  s.writesPair qp pd1 pd2 fun m => some ((m.rget rs1).getLsbD imm8.toNat)

end Sys2Proof.Machine
end

