-- ==== Sys2Proof/Machine/MemoryAccess.lean ====
section
/-! DEFINITION. Memory access: `loadi`, `load`, `load.update`, `loadx`, `loadx.update`, `store`, `store.update` (R125 to
R133). -/

namespace Sys2Proof.Machine

/-! ### Shared forms -/

/-- A plain load of `n` bytes at `ea` into `rd` (R128, R130). -/
def State.loads (s : State) (qp : PredNum) (n : Nat) (rd : Reg) (ea : Mach s.W → BitVec s.W) :
    Host.Outcome State Fault Refusal :=
  s.predicated qp fun m =>
    access s.cfg m n (ea m) (.next (m.rset rd (m.loaded s.cfg.loadExt n (ea m))).advance)

/-- A post-modify load of `n` bytes at `x[rs1]` into `rd`, the base then replaced by `base`; `rd = rs1` other than R0
would be written twice and is refused (R129, R131). -/
def State.loadsUpdate (s : State) (qp : PredNum) (n : Nat) (rd rs1 : Reg) (base : Mach s.W → BitVec s.W) :
    Host.Outcome State Fault Refusal :=
  s.predicated qp fun m =>
    access s.cfg m n (m.rget rs1)
      (if rd = rs1 ∧ rd ≠ 0 then .refused .loadUpdateRdEqualsRs1
       else .next ((m.rset rd (m.loaded s.cfg.loadExt n (m.rget rs1))).rset rs1 (base m)).advance)

/-- A plain store of the `n` low bytes of `rd` at `ea` (R132). -/
def State.stores (s : State) (qp : PredNum) (n : Nat) (rd : Reg) (ea : Mach s.W → BitVec s.W) :
    Host.Outcome State Fault Refusal :=
  s.predicated qp fun m =>
    access s.cfg m n (ea m) (.next (m.store n (ea m).toNat (m.rget rd).toNat).advance)

/-- A post-modify store of the `n` low bytes of `rd` at `x[rs1]`, the base then replaced by `base` (R133). -/
def State.storesUpdate (s : State) (qp : PredNum) (n : Nat) (rd rs1 : Reg) (base : Mach s.W → BitVec s.W) :
    Host.Outcome State Fault Refusal :=
  s.predicated qp fun m =>
    access s.cfg m n (m.rget rs1)
      (.next ((m.store n (m.rget rs1).toNat (m.rget rd).toNat).rset rs1 (base m)).advance)

/-! ### Load immediate -/

/-- `loadi.z.pos Rd, imm16` (R126). -/
def execLoadiZ (qp : PredNum) (pos : Fin 4) (rd : Reg) (imm16 : BitVec 16) (s : State) :
    Host.Outcome State Fault Refusal :=
  s.writesReg qp rd fun _ => placeImm16 s.W pos imm16

/-- `loadi.k.pos Rd, imm16` (R127). -/
def execLoadiK (qp : PredNum) (pos : Fin 4) (rd : Reg) (imm16 : BitVec 16) (s : State) :
    Host.Outcome State Fault Refusal :=
  s.writesReg qp rd fun m => insertField (m.rget rd) (16 * pos.val) 16 (zext s.W imm16)

/-! ### Loads -/

/-- `load.4 Rd, Rs1, imm13` (R128). -/
def execLoad4 (qp : PredNum) (rd rs1 : Reg) (imm13 : BitVec 13) (s : State) : Host.Outcome State Fault Refusal :=
  s.loads qp 4 rd fun m => m.displaced rs1 imm13

/-- `load.8 Rd, Rs1, imm13` (R128). -/
def execLoad8 (qp : PredNum) (rd rs1 : Reg) (imm13 : BitVec 13) (s : State) : Host.Outcome State Fault Refusal :=
  s.loads qp 8 rd fun m => m.displaced rs1 imm13

/-- `load.4.update Rd, Rs1, imm13` (R129). -/
def execLoad4Update (qp : PredNum) (rd rs1 : Reg) (imm13 : BitVec 13) (s : State) :
    Host.Outcome State Fault Refusal :=
  s.loadsUpdate qp 4 rd rs1 fun m => m.displaced rs1 imm13

/-- `load.8.update Rd, Rs1, imm13` (R129). -/
def execLoad8Update (qp : PredNum) (rd rs1 : Reg) (imm13 : BitVec 13) (s : State) :
    Host.Outcome State Fault Refusal :=
  s.loadsUpdate qp 8 rd rs1 fun m => m.displaced rs1 imm13

/-- `loadx.sw Rd, Rs1, Rs2` (R130). -/
def execLoadx (qp : PredNum) (sw : Sw) (rd rs1 rs2 : Reg) (s : State) : Host.Outcome State Fault Refusal :=
  s.loads qp sw.bytes rd fun m => m.indexed rs1 rs2

/-- `loadx.sw.update Rd, Rs1, Rs2` (R131). -/
def execLoadxUpdate (qp : PredNum) (sw : Sw) (rd rs1 rs2 : Reg) (s : State) :
    Host.Outcome State Fault Refusal :=
  s.loadsUpdate qp sw.bytes rd rs1 fun m => m.indexed rs1 rs2

/-! ### Stores -/

/-- `store.1 Rd, Rs1, imm13` (R132). -/
def execStore1 (qp : PredNum) (rd rs1 : Reg) (imm13 : BitVec 13) (s : State) : Host.Outcome State Fault Refusal :=
  s.stores qp 1 rd fun m => m.displaced rs1 imm13

/-- `store.2 Rd, Rs1, imm13` (R132). -/
def execStore2 (qp : PredNum) (rd rs1 : Reg) (imm13 : BitVec 13) (s : State) : Host.Outcome State Fault Refusal :=
  s.stores qp 2 rd fun m => m.displaced rs1 imm13

/-- `store.4 Rd, Rs1, imm13` (R132). -/
def execStore4 (qp : PredNum) (rd rs1 : Reg) (imm13 : BitVec 13) (s : State) : Host.Outcome State Fault Refusal :=
  s.stores qp 4 rd fun m => m.displaced rs1 imm13

/-- `store.8 Rd, Rs1, imm13` (R132). -/
def execStore8 (qp : PredNum) (rd rs1 : Reg) (imm13 : BitVec 13) (s : State) : Host.Outcome State Fault Refusal :=
  s.stores qp 8 rd fun m => m.displaced rs1 imm13

/-- `store.1.update Rd, Rs1, imm13` (R133). -/
def execStore1Update (qp : PredNum) (rd rs1 : Reg) (imm13 : BitVec 13) (s : State) :
    Host.Outcome State Fault Refusal :=
  s.storesUpdate qp 1 rd rs1 fun m => m.displaced rs1 imm13

/-- `store.2.update Rd, Rs1, imm13` (R133). -/
def execStore2Update (qp : PredNum) (rd rs1 : Reg) (imm13 : BitVec 13) (s : State) :
    Host.Outcome State Fault Refusal :=
  s.storesUpdate qp 2 rd rs1 fun m => m.displaced rs1 imm13

/-- `store.4.update Rd, Rs1, imm13` (R133). -/
def execStore4Update (qp : PredNum) (rd rs1 : Reg) (imm13 : BitVec 13) (s : State) :
    Host.Outcome State Fault Refusal :=
  s.storesUpdate qp 4 rd rs1 fun m => m.displaced rs1 imm13

/-- `store.8.update Rd, Rs1, imm13` (R133). -/
def execStore8Update (qp : PredNum) (rd rs1 : Reg) (imm13 : BitVec 13) (s : State) :
    Host.Outcome State Fault Refusal :=
  s.storesUpdate qp 8 rd rs1 fun m => m.displaced rs1 imm13

end Sys2Proof.Machine
end

