-- ==== Sys2Proof/Machine/Multiply.lean ====
section
/-! DEFINITION. Multiply (R190 to R196): `pmul` and `pmulshr`, on 2-byte subwords. -/

namespace Sys2Proof.Machine

/-- `pmul.odd Rd, Rs1, Rs2` (R191). -/
def execPmulOdd (qp : PredNum) (rd rs1 rs2 : Reg) (s : State) : Host.Outcome State Fault Refusal :=
  s.writesReg qp rd fun m =>
    mulHalves mulS s.cfg.num.mulPlace (oddHalfPos s.cfg.num.oddHalf) (m.rget rs1) (m.rget rs2)

/-- `pmul.odd.u Rd, Rs1, Rs2` (R192). -/
def execPmulOddU (qp : PredNum) (rd rs1 rs2 : Reg) (s : State) : Host.Outcome State Fault Refusal :=
  s.writesReg qp rd fun m =>
    mulHalves mulU s.cfg.num.mulPlace (oddHalfPos s.cfg.num.oddHalf) (m.rget rs1) (m.rget rs2)

/-- `pmul.even Rd, Rs1, Rs2` (R193). -/
def execPmulEven (qp : PredNum) (rd rs1 rs2 : Reg) (s : State) : Host.Outcome State Fault Refusal :=
  s.writesReg qp rd fun m =>
    mulHalves mulS s.cfg.num.mulPlace (evenHalfPos s.cfg.num.oddHalf) (m.rget rs1) (m.rget rs2)

/-- `pmul.even.u Rd, Rs1, Rs2` (R194). -/
def execPmulEvenU (qp : PredNum) (rd rs1 rs2 : Reg) (s : State) : Host.Outcome State Fault Refusal :=
  s.writesReg qp rd fun m =>
    mulHalves mulU s.cfg.num.mulPlace (evenHalfPos s.cfg.num.oddHalf) (m.rget rs1) (m.rget rs2)

/-- `pmulshr.sa Rd, Rs1, Rs2` (R195). -/
def execPmulshr (qp : PredNum) (sa : MulSa) (rd rs1 rs2 : Reg) (s : State) : Host.Outcome State Fault Refusal :=
  s.writesReg qp rd fun m => parallel2 16 (mulShiftU s.cfg.num.mulShiftHalf sa.amount) (m.rget rs1) (m.rget rs2)

/-- `pmulshr.sa.a Rd, Rs1, Rs2` (R196). -/
def execPmulshrA (qp : PredNum) (sa : MulSa) (rd rs1 rs2 : Reg) (s : State) : Host.Outcome State Fault Refusal :=
  s.writesReg qp rd fun m => parallel2 16 (mulShiftS s.cfg.num.mulShiftHalf sa.amount) (m.rget rs1) (m.rget rs2)

end Sys2Proof.Machine
end

