-- ==== Sys2Proof/Machine/ParallelShift.lean ====
section
/-! DEFINITION. Parallel shift by a register or an immediate (R200 to R206): `pshift`, `pshifti`. -/

namespace Sys2Proof.Machine

/-- Every subword of `v` shifted left logically by one amount (R200, R201). -/
def shiftSubwordsLeft {W : Nat} (reading : ShiftAmount) (b amount : Nat) (v : BitVec W) : BitVec W :=
  parallel1 b (fun a => a <<< subwordShiftAmount reading b amount) v

/-- Every subword of `v` shifted right logically by one amount (R200, R202). -/
def shiftSubwordsRight {W : Nat} (reading : ShiftAmount) (b amount : Nat) (v : BitVec W) : BitVec W :=
  parallel1 b (fun a => a >>> subwordShiftAmount reading b amount) v

/-- Every subword of `v` shifted right arithmetically by one amount (R200, R203). -/
def shiftSubwordsRightArith {W : Nat} (reading : ShiftAmount) (b amount : Nat) (v : BitVec W) : BitVec W :=
  parallel1 b (fun a => a.sshiftRight (subwordShiftAmount reading b amount)) v

/-- `pshift.sw.l Rd, Rs1, Rs2`: the amount is the whole of `Rs2` (R201). -/
def execPshiftL (qp : PredNum) (sw : Sw) (rd rs1 rs2 : Reg) (s : State) : Host.Outcome State Fault Refusal :=
  s.writesReg qp rd fun m => shiftSubwordsLeft s.cfg.num.shiftAmount sw.bits (m.rget rs2).toNat (m.rget rs1)

/-- `pshift.sw.r Rd, Rs1, Rs2` (R202). -/
def execPshiftR (qp : PredNum) (sw : Sw) (rd rs1 rs2 : Reg) (s : State) : Host.Outcome State Fault Refusal :=
  s.writesReg qp rd fun m => shiftSubwordsRight s.cfg.num.shiftAmount sw.bits (m.rget rs2).toNat (m.rget rs1)

/-- `pshift.sw.ra Rd, Rs1, Rs2` (R203). -/
def execPshiftRa (qp : PredNum) (sw : Sw) (rd rs1 rs2 : Reg) (s : State) : Host.Outcome State Fault Refusal :=
  s.writesReg qp rd fun m => shiftSubwordsRightArith s.cfg.num.shiftAmount sw.bits (m.rget rs2).toNat (m.rget rs1)

/-- `pshifti.sw.l Rd, Rs1, imm5` (R204). -/
def execPshiftiL (qp : PredNum) (sw : Sw) (rd rs1 : Reg) (imm5 : BitVec 5) (s : State) :
    Host.Outcome State Fault Refusal :=
  s.writesReg qp rd fun m => shiftSubwordsLeft s.cfg.num.shiftAmount sw.bits imm5.toNat (m.rget rs1)

/-- `pshifti.sw.r Rd, Rs1, imm5` (R205). -/
def execPshiftiR (qp : PredNum) (sw : Sw) (rd rs1 : Reg) (imm5 : BitVec 5) (s : State) :
    Host.Outcome State Fault Refusal :=
  s.writesReg qp rd fun m => shiftSubwordsRight s.cfg.num.shiftAmount sw.bits imm5.toNat (m.rget rs1)

/-- `pshifti.sw.ra Rd, Rs1, imm5` (R206). -/
def execPshiftiRa (qp : PredNum) (sw : Sw) (rd rs1 : Reg) (imm5 : BitVec 5) (s : State) :
    Host.Outcome State Fault Refusal :=
  s.writesReg qp rd fun m => shiftSubwordsRightArith s.cfg.num.shiftAmount sw.bits imm5.toNat (m.rget rs1)

end Sys2Proof.Machine
end

