-- ==== Sys2Proof/Machine/Permutation.lean ====
section
/-! DEFINITION. Subword permutation (R210 to R218): `mix`, `mux`, `perm`. -/

namespace Sys2Proof.Machine

/-- `mix.sw.l Rd, Rs1, Rs2` (R211). -/
def execMixL (qp : PredNum) (sw : Sw) (rd rs1 rs2 : Reg) (s : State) : Host.Outcome State Fault Refusal :=
  s.writesReg qp rd fun m => mixLeft sw.bits (m.rget rs1) (m.rget rs2)

/-- `mix.sw.r Rd, Rs1, Rs2` (R212). -/
def execMixR (qp : PredNum) (sw : Sw) (rd rs1 rs2 : Reg) (s : State) : Host.Outcome State Fault Refusal :=
  s.writesReg qp rd fun m => mixRight sw.bits (m.rget rs1) (m.rget rs2)

/-- `mux.sw.rev Rd, Rs1` (R213). -/
def execMuxRev (qp : PredNum) (sw : Sw) (rd rs1 : Reg) (s : State) : Host.Outcome State Fault Refusal :=
  s.writesReg qp rd fun m => permute sw.bits (muxRevSel (s.W / sw.bits)) (m.rget rs1)

/-- `mux.sw.mix Rd, Rs1` (R214, under `NUM`). -/
def execMuxMix (qp : PredNum) (sw : Sw) (rd rs1 : Reg) (s : State) : Host.Outcome State Fault Refusal :=
  s.writesReg qp rd fun m => permute sw.bits (arranged s.cfg.num.muxMix muxMixSel (s.W / sw.bits)) (m.rget rs1)

/-- `mux.sw.shuf Rd, Rs1` (R215, under `NUM`). -/
def execMuxShuf (qp : PredNum) (sw : Sw) (rd rs1 : Reg) (s : State) : Host.Outcome State Fault Refusal :=
  s.writesReg qp rd fun m => permute sw.bits (arranged s.cfg.num.muxShuf muxShufSel (s.W / sw.bits)) (m.rget rs1)

/-- `mux.sw.alt Rd, Rs1` (R216, under `NUM`). -/
def execMuxAlt (qp : PredNum) (sw : Sw) (rd rs1 : Reg) (s : State) : Host.Outcome State Fault Refusal :=
  s.writesReg qp rd fun m => permute sw.bits (arranged s.cfg.num.muxAlt muxAltSel (s.W / sw.bits)) (m.rget rs1)

/-- `mux.sw.brcst Rd, Rs1`: the least significant subword everywhere (R217). -/
def execMuxBrcst (qp : PredNum) (sw : Sw) (rd rs1 : Reg) (s : State) : Host.Outcome State Fault Refusal :=
  s.writesReg qp rd fun m => permute sw.bits (fun _ => 0) (m.rget rs1)

/-- `perm Rd, Rs1, Rs2`: halfwords of `Rs1` selected by the low bits of `Rs2` (R218). -/
def execPerm (qp : PredNum) (rd rs1 rs2 : Reg) (s : State) : Host.Outcome State Fault Refusal :=
  s.writesReg qp rd fun m =>
    permute 16 (permSel s.cfg.num.permDest s.cfg.num.permSource (m.rget rs2) (s.W / 16)) (m.rget rs1)

end Sys2Proof.Machine
end

