-- ==== Sys2Proof/Machine/ProgramFlow.lean ====
section
/-! DEFINITION. Program flow: `jmp`, `jmp.link`, `jmp.reg`, `jmp.reg.link`, `trap` (R100 to R105). -/

namespace Sys2Proof.Machine

/-- The link register R31 (R22). -/
def linkReg : Reg := 31

/-- `jmp imm23` (R100). -/
def execJmp (qp : PredNum) (imm23 : BitVec 23) (s : State) : Host.Outcome State Fault Refusal :=
  s.predicated qp fun m => .next (m.jumpTo (m.relativeTarget s.cfg.jmpScale imm23))

/-- `jmp.link imm23`: the link, then the jump from the instruction's own address (R101). -/
def execJmpLink (qp : PredNum) (imm23 : BitVec 23) (s : State) : Host.Outcome State Fault Refusal :=
  s.predicated qp fun m =>
    .next ((m.rset linkReg m.nextPc).jumpTo (m.relativeTarget s.cfg.jmpScale imm23))

/-- `jmp.reg Rd` (R102). -/
def execJmpReg (qp : PredNum) (rd : Reg) (s : State) : Host.Outcome State Fault Refusal :=
  s.predicated qp fun m => .next (m.jumpTo (m.registerTarget s.cfg.jmpRegMode rd))

/-- `jmp.reg.link Rd`: `Rd` is read before the link is written, so R31 as `Rd` gives its old value (R103, R34). -/
def execJmpRegLink (qp : PredNum) (rd : Reg) (s : State) : Host.Outcome State Fault Refusal :=
  s.predicated qp fun m =>
    .next ((m.rset linkReg m.nextPc).jumpTo (m.registerTarget s.cfg.jmpRegMode rd))

/-- `trap`: the run ends in `Halted`, nothing else changes (R104, R233). -/
def execTrap (qp : PredNum) (s : State) : Host.Outcome State Fault Refusal :=
  s.predicated qp fun m => .next (m.raise .halted)

end Sys2Proof.Machine
end

