-- ==== Sys2Proof/Machine/ShiftImmediate.lean ====
section
/-! DEFINITION. Shift and bit field with an immediate: `slli`, `srai`, `srli`, `shrp`, `extract`, `deposit` (R150 to
R156). -/

namespace Sys2Proof.Machine

/-- `slli Rd, Rs1, imm13` (R150). -/
def execSlli (qp : PredNum) (rd rs1 : Reg) (imm13 : BitVec 13) (s : State) : Host.Outcome State Fault Refusal :=
  s.writesReg qp rd fun m => m.rget rs1 <<< immShiftAmount s.cfg.num.immShiftAtWidth s.W imm13

/-- `srai Rd, Rs1, imm13` (R151). -/
def execSrai (qp : PredNum) (rd rs1 : Reg) (imm13 : BitVec 13) (s : State) : Host.Outcome State Fault Refusal :=
  s.writesReg qp rd fun m => (m.rget rs1).sshiftRight (immShiftAmount s.cfg.num.immShiftAtWidth s.W imm13)

/-- `srli Rd, Rs1, imm13` (R152). -/
def execSrli (qp : PredNum) (rd rs1 : Reg) (imm13 : BitVec 13) (s : State) : Host.Outcome State Fault Refusal :=
  s.writesReg qp rd fun m => m.rget rs1 >>> immShiftAmount s.cfg.num.immShiftAtWidth s.W imm13

/-- `shrp Rd, Rs1, Rs2, imm8`: `Rs1` is the high half of the pair (R153). -/
def execShrp (qp : PredNum) (rd rs1 rs2 : Reg) (imm8 : BitVec 8) (s : State) : Host.Outcome State Fault Refusal :=
  s.writesReg qp rd fun m => shiftRightPair (m.rget rs1) (m.rget rs2) (pairShiftAmount s.W imm8)

/-- `extract Rd, Rs1, imm7, imm6` (R154). -/
def execExtract (qp : PredNum) (rd rs1 : Reg) (imm7 : BitVec 7) (imm6 : BitVec 6) (s : State) :
    Host.Outcome State Fault Refusal :=
  s.writesReg qp rd fun m => extractField (m.rget rs1) imm7.toNat imm6.toNat

/-- `deposit Rd, Rs1, imm7, imm6` (R155). -/
def execDeposit (qp : PredNum) (rd rs1 : Reg) (imm7 : BitVec 7) (imm6 : BitVec 6) (s : State) :
    Host.Outcome State Fault Refusal :=
  s.writesReg qp rd fun m => insertField (m.rget rd) imm7.toNat imm6.toNat (m.rget rs1)

end Sys2Proof.Machine
end

