-- ==== Sys2Proof/Machine/Dispatch.lean ====
section
/-! DEFINITION. The meaning of every instruction: one arm per constructor of `Instr`. -/

namespace Sys2Proof.Machine

/-- What an instruction does (R31 steps 4 to 6). -/
def exec (i : Instr) (s : State) : Host.Outcome State Fault Refusal :=
  match i with
  | .jmp qp imm23 => Sys2Proof.Machine.execJmp qp imm23 s
  | .jmpLink qp imm23 => Sys2Proof.Machine.execJmpLink qp imm23 s
  | .jmpReg qp rd => Sys2Proof.Machine.execJmpReg qp rd s
  | .jmpRegLink qp rd => Sys2Proof.Machine.execJmpRegLink qp rd s
  | .trap qp => Sys2Proof.Machine.execTrap qp s
  | .changepr qp imm4 => Sys2Proof.Machine.execChangepr qp imm4 s
  | .changeprLd qp imm4 imm8 => Sys2Proof.Machine.execChangeprLd qp imm4 imm8 s
  | .cmp qp rel rs1 rs2 pd1 pd2 => Sys2Proof.Machine.execCmp qp rel rs1 rs2 pd1 pd2 s
  | .cmpPw0 qp rel rs1 rs2 pd1 pd2 => Sys2Proof.Machine.execCmpPw0 qp rel rs1 rs2 pd1 pd2 s
  | .cmpPw1 qp rel rs1 rs2 pd1 pd2 => Sys2Proof.Machine.execCmpPw1 qp rel rs1 rs2 pd1 pd2 s
  | .cmpi qp rel rs1 imm8 pd1 pd2 => Sys2Proof.Machine.execCmpi qp rel rs1 imm8 pd1 pd2 s
  | .testbit qp rs1 imm8 pd1 pd2 => Sys2Proof.Machine.execTestbit qp rs1 imm8 pd1 pd2 s
  | .loadiZ qp pos rd imm16 => Sys2Proof.Machine.execLoadiZ qp pos rd imm16 s
  | .loadiK qp pos rd imm16 => Sys2Proof.Machine.execLoadiK qp pos rd imm16 s
  | .load4 qp rd rs1 imm13 => Sys2Proof.Machine.execLoad4 qp rd rs1 imm13 s
  | .load8 qp rd rs1 imm13 => Sys2Proof.Machine.execLoad8 qp rd rs1 imm13 s
  | .load4Update qp rd rs1 imm13 => Sys2Proof.Machine.execLoad4Update qp rd rs1 imm13 s
  | .load8Update qp rd rs1 imm13 => Sys2Proof.Machine.execLoad8Update qp rd rs1 imm13 s
  | .loadx qp sw rd rs1 rs2 => Sys2Proof.Machine.execLoadx qp sw rd rs1 rs2 s
  | .loadxUpdate qp sw rd rs1 rs2 => Sys2Proof.Machine.execLoadxUpdate qp sw rd rs1 rs2 s
  | .store1 qp rd rs1 imm13 => Sys2Proof.Machine.execStore1 qp rd rs1 imm13 s
  | .store2 qp rd rs1 imm13 => Sys2Proof.Machine.execStore2 qp rd rs1 imm13 s
  | .store4 qp rd rs1 imm13 => Sys2Proof.Machine.execStore4 qp rd rs1 imm13 s
  | .store8 qp rd rs1 imm13 => Sys2Proof.Machine.execStore8 qp rd rs1 imm13 s
  | .store1Update qp rd rs1 imm13 => Sys2Proof.Machine.execStore1Update qp rd rs1 imm13 s
  | .store2Update qp rd rs1 imm13 => Sys2Proof.Machine.execStore2Update qp rd rs1 imm13 s
  | .store4Update qp rd rs1 imm13 => Sys2Proof.Machine.execStore4Update qp rd rs1 imm13 s
  | .store8Update qp rd rs1 imm13 => Sys2Proof.Machine.execStore8Update qp rd rs1 imm13 s
  | .addi qp rd rs1 imm13 => Sys2Proof.Machine.execAddi qp rd rs1 imm13 s
  | .andi qp rd rs1 imm13 => Sys2Proof.Machine.execAndi qp rd rs1 imm13 s
  | .ori qp rd rs1 imm13 => Sys2Proof.Machine.execOri qp rd rs1 imm13 s
  | .subi qp rd rs1 imm13 => Sys2Proof.Machine.execSubi qp rd rs1 imm13 s
  | .xori qp rd rs1 imm13 => Sys2Proof.Machine.execXori qp rd rs1 imm13 s
  | .slli qp rd rs1 imm13 => Sys2Proof.Machine.execSlli qp rd rs1 imm13 s
  | .srai qp rd rs1 imm13 => Sys2Proof.Machine.execSrai qp rd rs1 imm13 s
  | .srli qp rd rs1 imm13 => Sys2Proof.Machine.execSrli qp rd rs1 imm13 s
  | .shrp qp rd rs1 rs2 imm8 => Sys2Proof.Machine.execShrp qp rd rs1 rs2 imm8 s
  | .extract qp rd rs1 imm7 imm6 => Sys2Proof.Machine.execExtract qp rd rs1 imm7 imm6 s
  | .deposit qp rd rs1 imm7 imm6 => Sys2Proof.Machine.execDeposit qp rd rs1 imm7 imm6 s
  | .padd qp sw rd rs1 rs2 => Sys2Proof.Machine.execPadd qp sw rd rs1 rs2 s
  | .paddU qp sw rd rs1 rs2 => Sys2Proof.Machine.execPaddU qp sw rd rs1 rs2 s
  | .paddS qp sw rd rs1 rs2 => Sys2Proof.Machine.execPaddS qp sw rd rs1 rs2 s
  | .paddincr qp sw rd rs1 rs2 => Sys2Proof.Machine.execPaddincr qp sw rd rs1 rs2 s
  | .psub qp sw rd rs1 rs2 => Sys2Proof.Machine.execPsub qp sw rd rs1 rs2 s
  | .psubU qp sw rd rs1 rs2 => Sys2Proof.Machine.execPsubU qp sw rd rs1 rs2 s
  | .psubS qp sw rd rs1 rs2 => Sys2Proof.Machine.execPsubS qp sw rd rs1 rs2 s
  | .psubdecr qp sw rd rs1 rs2 => Sys2Proof.Machine.execPsubdecr qp sw rd rs1 rs2 s
  | .pavg qp sw rd rs1 rs2 => Sys2Proof.Machine.execPavg qp sw rd rs1 rs2 s
  | .pavgRaz qp sw rd rs1 rs2 => Sys2Proof.Machine.execPavgRaz qp sw rd rs1 rs2 s
  | .psubavg qp sw rd rs1 rs2 => Sys2Proof.Machine.execPsubavg qp sw rd rs1 rs2 s
  | .andReg qp rd rs1 rs2 => Sys2Proof.Machine.execAndReg qp rd rs1 rs2 s
  | .andcm qp rd rs1 rs2 => Sys2Proof.Machine.execAndcm qp rd rs1 rs2 s
  | .orReg qp rd rs1 rs2 => Sys2Proof.Machine.execOrReg qp rd rs1 rs2 s
  | .xorReg qp rd rs1 rs2 => Sys2Proof.Machine.execXorReg qp rd rs1 rs2 s
  | .notReg qp rd rs1 => Sys2Proof.Machine.execNotReg qp rd rs1 s
  | .pcmpEq qp sw rd rs1 rs2 => Sys2Proof.Machine.execPcmpEq qp sw rd rs1 rs2 s
  | .pcmpGt qp sw rd rs1 rs2 => Sys2Proof.Machine.execPcmpGt qp sw rd rs1 rs2 s
  | .pmax qp sw rd rs1 rs2 => Sys2Proof.Machine.execPmax qp sw rd rs1 rs2 s
  | .pmin qp sw rd rs1 rs2 => Sys2Proof.Machine.execPmin qp sw rd rs1 rs2 s
  | .pshiftaddL qp sa rd rs1 rs2 => Sys2Proof.Machine.execPshiftaddL qp sa rd rs1 rs2 s
  | .pshiftaddR qp sa rd rs1 rs2 => Sys2Proof.Machine.execPshiftaddR qp sa rd rs1 rs2 s
  | .pmulOdd qp rd rs1 rs2 => Sys2Proof.Machine.execPmulOdd qp rd rs1 rs2 s
  | .pmulOddU qp rd rs1 rs2 => Sys2Proof.Machine.execPmulOddU qp rd rs1 rs2 s
  | .pmulEven qp rd rs1 rs2 => Sys2Proof.Machine.execPmulEven qp rd rs1 rs2 s
  | .pmulEvenU qp rd rs1 rs2 => Sys2Proof.Machine.execPmulEvenU qp rd rs1 rs2 s
  | .pmulshr qp sa rd rs1 rs2 => Sys2Proof.Machine.execPmulshr qp sa rd rs1 rs2 s
  | .pmulshrA qp sa rd rs1 rs2 => Sys2Proof.Machine.execPmulshrA qp sa rd rs1 rs2 s
  | .pshiftL qp sw rd rs1 rs2 => Sys2Proof.Machine.execPshiftL qp sw rd rs1 rs2 s
  | .pshiftR qp sw rd rs1 rs2 => Sys2Proof.Machine.execPshiftR qp sw rd rs1 rs2 s
  | .pshiftRa qp sw rd rs1 rs2 => Sys2Proof.Machine.execPshiftRa qp sw rd rs1 rs2 s
  | .pshiftiL qp sw rd rs1 imm5 => Sys2Proof.Machine.execPshiftiL qp sw rd rs1 imm5 s
  | .pshiftiR qp sw rd rs1 imm5 => Sys2Proof.Machine.execPshiftiR qp sw rd rs1 imm5 s
  | .pshiftiRa qp sw rd rs1 imm5 => Sys2Proof.Machine.execPshiftiRa qp sw rd rs1 imm5 s
  | .mixL qp sw rd rs1 rs2 => Sys2Proof.Machine.execMixL qp sw rd rs1 rs2 s
  | .mixR qp sw rd rs1 rs2 => Sys2Proof.Machine.execMixR qp sw rd rs1 rs2 s
  | .muxRev qp sw rd rs1 => Sys2Proof.Machine.execMuxRev qp sw rd rs1 s
  | .muxMix qp sw rd rs1 => Sys2Proof.Machine.execMuxMix qp sw rd rs1 s
  | .muxShuf qp sw rd rs1 => Sys2Proof.Machine.execMuxShuf qp sw rd rs1 s
  | .muxAlt qp sw rd rs1 => Sys2Proof.Machine.execMuxAlt qp sw rd rs1 s
  | .muxBrcst qp sw rd rs1 => Sys2Proof.Machine.execMuxBrcst qp sw rd rs1 s
  | .perm qp rd rs1 rs2 => Sys2Proof.Machine.execPerm qp rd rs1 rs2 s

end Sys2Proof.Machine
end

