-- ==== Sys2Proof/Machine/Step.lean ====
section
/-! DEFINITION. One step of the machine (R31), and the placing of an instruction where the next step fetches it. -/

namespace Sys2Proof.Machine

/-- One step (R31), with the tests in the order of R237. No step is taken from a terminal outcome (R230). A pc that is
not a multiple of 4 raises the Unaligned Address Trap, the address being the pc (R48). A word outside `MEM` has no
meaning (R52). A word that under the machine's `ENC` is not a legal instruction for the width raises the Illegal
Instruction Trap, whatever its predicate (R83). Otherwise the instruction executes. -/
def step (s : State) : Host.Outcome State Fault Refusal :=
  if s.mach.outcome ≠ .running then .fault .runEnded
  else match s.mach.fetch s.cfg.absent with
    | .misaligned => .next (s.raise (.unalignedAddressTrap s.mach.pc))
    | .outside => .fault (.outsideMem s.mach.pc.toNat)
    | .word w =>
      match decodeUnder s.cfg w with
      | .error _ => .next (s.raise (.illegalInstructionTrap w))
      | .ok i => exec i s

/-- `s` with the instruction of which `nbits` bits are given, the others zero, stored at `pc`, where `step` fetches
its next instruction (R45). -/
def State.withFetchWord (s : State) (nbits w : Nat) : State :=
  s.withMach (s.mach.placeWord (w % 2 ^ nbits))

end Sys2Proof.Machine
end

