-- ==== Sys2Proof/Safety.lean ====
section
/-! DEFINITION. The terms claims are stated in: the legal instructions, the invariant of the state, what it means for an
instruction to complete, and what an instruction leaves unchanged (its frame). -/

namespace Sys2Proof.Machine

/-! ### Legal instructions -/

/-- The sizes of the Format lines (R76) and the limits of R81 and R82, in bits: a subword no wider than the register, two
subwords for `mix`, a `loadi` position, a `testbit` bit number and an `extract` or `deposit` field inside it. -/
def Legal (wd : Width) : Instr → Prop
  | .padd _ sw _ _ _ | .paddU _ sw _ _ _ | .paddS _ sw _ _ _ | .paddincr _ sw _ _ _ | .psub _ sw _ _ _
  | .psubU _ sw _ _ _ | .psubS _ sw _ _ _ | .psubdecr _ sw _ _ _ | .pcmpEq _ sw _ _ _ | .pcmpGt _ sw _ _ _ =>
    sw.bits ≤ wd.bits
  | .pavg _ sw _ _ _ | .pavgRaz _ sw _ _ _ | .psubavg _ sw _ _ _ | .pmax _ sw _ _ _ | .pmin _ sw _ _ _
  | .muxBrcst _ sw _ _ => sw = .b1 ∨ sw = .b2
  | .pshiftL _ sw _ _ _ | .pshiftR _ sw _ _ _ | .pshiftRa _ sw _ _ _ | .pshiftiL _ sw _ _ _ | .pshiftiR _ sw _ _ _
  | .pshiftiRa _ sw _ _ _ => (sw = .b2 ∨ sw = .b4 ∨ sw = .b8) ∧ sw.bits ≤ wd.bits
  | .loadx _ sw _ _ _ | .loadxUpdate _ sw _ _ _ => (sw = .b4 ∨ sw = .b8) ∧ sw.bits ≤ wd.bits
  | .mixL _ sw _ _ _ | .mixR _ sw _ _ _ => (sw = .b1 ∨ sw = .b2 ∨ sw = .b4) ∧ 2 * sw.bits ≤ wd.bits
  | .muxRev _ sw _ _ | .muxMix _ sw _ _ | .muxShuf _ sw _ _ | .muxAlt _ sw _ _ => sw = .b1
  | .load8 _ _ _ _ | .load8Update _ _ _ _ | .store8 _ _ _ _ | .store8Update _ _ _ _ => 64 ≤ wd.bits
  | .loadiZ _ pos _ _ | .loadiK _ pos _ _ => 16 * pos.val < wd.bits
  | .testbit _ _ imm8 _ _ => imm8.toNat < wd.bits
  | .extract _ _ _ imm7 imm6 | .deposit _ _ _ imm7 imm6 => imm7.toNat + imm6.toNat ≤ wd.bits
  | .jmp _ _ | .jmpLink _ _ | .jmpReg _ _ | .jmpRegLink _ _ | .trap _ | .changepr _ _ | .changeprLd _ _ _
  | .cmp _ _ _ _ _ _ | .cmpPw0 _ _ _ _ _ _ | .cmpPw1 _ _ _ _ _ _ | .cmpi _ _ _ _ _ _ | .load4 _ _ _ _
  | .load4Update _ _ _ _ | .store1 _ _ _ _ | .store2 _ _ _ _ | .store4 _ _ _ _ | .store1Update _ _ _ _
  | .store2Update _ _ _ _ | .store4Update _ _ _ _ | .addi _ _ _ _ | .andi _ _ _ _ | .ori _ _ _ _ | .subi _ _ _ _
  | .xori _ _ _ _ | .slli _ _ _ _ | .srai _ _ _ _ | .srli _ _ _ _ | .shrp _ _ _ _ _ | .andReg _ _ _ _
  | .andcm _ _ _ _ | .orReg _ _ _ _ | .xorReg _ _ _ _ | .notReg _ _ _ | .pshiftaddL _ _ _ _ _
  | .pshiftaddR _ _ _ _ _ | .pmulOdd _ _ _ _ | .pmulOddU _ _ _ _ | .pmulEven _ _ _ _ | .pmulEvenU _ _ _ _
  | .pmulshr _ _ _ _ _ | .pmulshrA _ _ _ _ _ | .perm _ _ _ _ => True

/-! ### The invariant -/

/-- What every reachable state satisfies: memory is in its canonical form and lists only addresses of the address
space (R40, R41), and P0 of every predicate set holds 1 (R25). -/
structure Mach.Inv {W : Nat} (m : Mach W) : Prop where
  memCanonical : m.mem.wf = true
  memInSpace : ∀ c ∈ m.mem, c.1 < 2 ^ W
  p0Set : ∀ k : SetNum, (m.pr[k.val]'k.isLt).getLsbD 0 = true

/-- The invariant of a machine. -/
def State.Inv (s : State) : Prop := s.mach.Inv

/-! ### Safe runs -/

/-- `n` steps from `s` end in a state: no step of them faulted (an access outside `MEM`, a step after the end of the
run) or was refused (R247 (e)). -/
def SafeFor (n : Nat) (s : State) : Prop := ∃ t, Sys2Proof.core.run n s = .next t

/-- The run has ended: the outcome is terminal (R230). -/
def State.Ended (s : State) : Prop := s.mach.outcome ≠ .running

/-! ### Completion -/

/-- `exec i s` answers a next state of the same machine, and what that state holds. -/
def Completes (i : Instr) (s : State) (holds : Mach s.W → Prop) : Prop :=
  ∃ m : Mach s.W, exec i s = .next (s.withMach m) ∧ holds m

/-- The predicate sets, their bits and the active-set number are as before. -/
def Mach.SamePredicates {W : Nat} (m m' : Mach W) : Prop := m'.pr = m.pr ∧ m'.aps = m.aps

/-- Every byte of memory reads as before. -/
def Mach.SameMemory {W : Nat} (m m' : Mach W) : Prop := ∀ a, m'.mem.read a = m.mem.read a

/-- Every byte of memory outside the `n` bytes from `ea` reads as before. -/
def Mach.SameMemoryOutside {W : Nat} (m m' : Mach W) (ea n : Nat) : Prop :=
  ∀ a, a < ea ∨ ea + n ≤ a → m'.mem.read a = m.mem.read a

/-- The `n` bytes from `ea` hold the `n` low bytes of `v`, the least significant at `ea` (R44). -/
def Mach.Holds {W : Nat} (m' : Mach W) (ea n : Nat) (v : BitVec W) : Prop :=
  ∀ k < n, m'.mem.read (ea + k) = v.extractLsb' (8 * k) 8

/-- Every general register reads as before. -/
def Mach.SameRegs {W : Nat} (m m' : Mach W) : Prop := ∀ r, m'.rget r = m.rget r

/-- Every general register but `rd` reads as before. -/
def Mach.SameRegsBut {W : Nat} (m m' : Mach W) (rd : Reg) : Prop := ∀ r, r ≠ rd → m'.rget r = m.rget r

/-- What register `rd` reads after `v` was written to it: `v`, but for R0, which reads 0 (R21). -/
def written {W : Nat} (rd : Reg) (v : BitVec W) : BitVec W := if rd = 0 then 0 else v

/-- The effect of an instruction whose one result is `x[rd] <- v`, with its frame: every other register, every
predicate set, `aps`, every byte of memory and the outcome unchanged, the pc at the next instruction. -/
structure Mach.WritesReg {W : Nat} (m m' : Mach W) (rd : Reg) (v : BitVec W) : Prop where
  result : m'.rget rd = written rd v
  regs : m.SameRegsBut m' rd
  preds : m.SamePredicates m'
  mem : m.SameMemory m'
  outcome : m'.outcome = m.outcome
  pc : m'.pc = m.pc + 4

/-- The effect of an instruction that only moves the pc. -/
structure Mach.OnlyPc {W : Nat} (m m' : Mach W) (target : BitVec W) : Prop where
  regs : m.SameRegs m'
  preds : m.SamePredicates m'
  mem : m.SameMemory m'
  outcome : m'.outcome = m.outcome
  pc : m'.pc = target

/-- The value of predicate `j` of set `k`, P0 reading 1 (R24, R25). -/
def Mach.predOf {W : Nat} (m : Mach W) (k : SetNum) (j : PredNum) : Bool :=
  if j = 0 then true else (m.pr[k.val]'k.isLt).getLsbD j.val

/-- The effect of an instruction that writes `t` to `pd1` and its complement to `pd2` of the active set, a write to P0
being discarded, with its frame: every other predicate of every set, `aps`, every register, every byte of memory and
the outcome unchanged, the pc at the next instruction (R110). -/
structure Mach.WritesPair {W : Nat} (m m' : Mach W) (pd1 pd2 : PredNum) (t : Bool) : Prop where
  first : m'.pget pd1 = (if pd1 = 0 then true else t)
  second : m'.pget pd2 = (if pd2 = 0 then true else !t)
  aps : m'.aps = m.aps
  others : ∀ k j, ¬(k = m.aps ∧ (j = pd1 ∨ j = pd2)) → m'.predOf k j = m.predOf k j
  regs : m.SameRegs m'
  mem : m.SameMemory m'
  outcome : m'.outcome = m.outcome
  pc : m'.pc = m.pc + 4

/-- The effect of an instruction that stores `n` bytes of `v` at `ea`, with its frame, the registers apart. -/
structure Mach.StoresAt {W : Nat} (m m' : Mach W) (ea n : Nat) (v : BitVec W) : Prop where
  bytes : m'.Holds ea n v
  mem : m.SameMemoryOutside m' ea n
  preds : m.SamePredicates m'
  outcome : m'.outcome = m.outcome
  pc : m'.pc = m.pc + 4

/-- The effect of an instruction whose one result is a register made of `b`-bit subwords, subword `k` satisfying
`holds k`, with its frame (R160, R210). -/
def Mach.WritesSubwords {W : Nat} (m m' : Mach W) (rd : Reg) (b : Nat) (holds : Nat → BitVec b → Prop) : Prop :=
  ∃ v, m.WritesReg m' rd v ∧ ∀ k < W / b, holds k (subword v b k)

/-- The effect of a jump and link: the link in R31, the pc at the target, nothing else (R101, R103). -/
structure Mach.Links {W : Nat} (m m' : Mach W) (target : BitVec W) : Prop where
  link : m'.rget linkReg = m.pc + 4
  regs : m.SameRegsBut m' linkReg
  preds : m.SamePredicates m'
  mem : m.SameMemory m'
  outcome : m'.outcome = m.outcome
  pc : m'.pc = target

/-- `v` is the value loaded from the `n` bytes at `ea`: byte `k` of it is the byte at `ea + k` (R43), and every bit
above is 0, or a copy of the top loaded bit under `LOAD_EXT = sign` (R125 (d)). -/
def Mach.LoadedAs {W : Nat} (m : Mach W) (ext : LoadExt) (ea n : Nat) (v : BitVec W) : Prop :=
  (∀ k < n, v.extractLsb' (8 * k) 8 = m.mem.read (ea + k)) ∧
    ∀ i < W, 8 * n ≤ i → v.getLsbD i = (ext == .sign && v.getLsbD (8 * n - 1))

/-- The effect of an update load: the data in `rd`, the new base in `rs1`, nothing else (R129, R131). -/
structure Mach.LoadsAndUpdates {W : Nat} (m m' : Mach W) (rd rs1 : Reg) (v base : BitVec W) : Prop where
  data : m'.rget rd = written rd v
  base : m'.rget rs1 = written rs1 base
  regs : ∀ r, r ≠ rd → r ≠ rs1 → m'.rget r = m.rget r
  preds : m.SamePredicates m'
  mem : m.SameMemory m'
  outcome : m'.outcome = m.outcome
  pc : m'.pc = m.pc + 4

/-- The default of an arrangement of `NUM` applies on `n` positions: the reading is the default, or lists no permutation of
the `n` numbers (D29, D31). -/
def DefaultArrangement (n : Nat) (reading : Arrangement) : Prop := ∀ l, reading = .listed l → ¬l.Perm (List.range n)

/-! ### What an instruction may touch -/

/-- The address and the size in bytes of the bytes an instruction stores, where it stores any (R42, R132, R133). -/
def storeAt {W : Nat} (i : Instr) (m : Mach W) : Option (BitVec W × Nat) :=
  match i with
  | .store1 _ _ rs1 imm13 => some (m.displaced rs1 imm13, 1)
  | .store2 _ _ rs1 imm13 => some (m.displaced rs1 imm13, 2)
  | .store4 _ _ rs1 imm13 => some (m.displaced rs1 imm13, 4)
  | .store8 _ _ rs1 imm13 => some (m.displaced rs1 imm13, 8)
  | .store1Update _ _ rs1 _ => some (m.rget rs1, 1)
  | .store2Update _ _ rs1 _ => some (m.rget rs1, 2)
  | .store4Update _ _ rs1 _ => some (m.rget rs1, 4)
  | .store8Update _ _ rs1 _ => some (m.rget rs1, 8)
  | _ => none

/-- The address and the size in bytes of the bytes an instruction loads, where it loads any (R42, R128 to R131). -/
def loadAt {W : Nat} (i : Instr) (m : Mach W) : Option (BitVec W × Nat) :=
  match i with
  | .load4 _ _ rs1 imm13 => some (m.displaced rs1 imm13, 4)
  | .load8 _ _ rs1 imm13 => some (m.displaced rs1 imm13, 8)
  | .load4Update _ _ rs1 _ => some (m.rget rs1, 4)
  | .load8Update _ _ rs1 _ => some (m.rget rs1, 8)
  | .loadx _ sw _ rs1 rs2 => some (m.indexed rs1 rs2, sw.bytes)
  | .loadxUpdate _ sw _ rs1 _ => some (m.rget rs1, sw.bytes)
  | _ => none

/-- The general registers an instruction may write: its `Rd`, but for the instructions of R23 that read it only, its
base in the update forms, and R31 in the linking jumps. -/
def writtenRegs : Instr → List Reg
  | .jmp _ _ => []
  | .jmpLink _ _ => [linkReg]
  | .jmpReg _ _ => []
  | .jmpRegLink _ _ => [linkReg]
  | .trap _ => []
  | .changepr _ _ => []
  | .changeprLd _ _ _ => []
  | .cmp _ _ _ _ _ _ => []
  | .cmpPw0 _ _ _ _ _ _ => []
  | .cmpPw1 _ _ _ _ _ _ => []
  | .cmpi _ _ _ _ _ _ => []
  | .testbit _ _ _ _ _ => []
  | .loadiZ _ _ rd _ => [rd]
  | .loadiK _ _ rd _ => [rd]
  | .load4 _ rd _ _ => [rd]
  | .load8 _ rd _ _ => [rd]
  | .load4Update _ rd rs1 _ => [rd, rs1]
  | .load8Update _ rd rs1 _ => [rd, rs1]
  | .loadx _ _ rd _ _ => [rd]
  | .loadxUpdate _ _ rd rs1 _ => [rd, rs1]
  | .store1 _ _ _ _ => []
  | .store2 _ _ _ _ => []
  | .store4 _ _ _ _ => []
  | .store8 _ _ _ _ => []
  | .store1Update _ _ rs1 _ => [rs1]
  | .store2Update _ _ rs1 _ => [rs1]
  | .store4Update _ _ rs1 _ => [rs1]
  | .store8Update _ _ rs1 _ => [rs1]
  | .addi _ rd _ _ => [rd]
  | .andi _ rd _ _ => [rd]
  | .ori _ rd _ _ => [rd]
  | .subi _ rd _ _ => [rd]
  | .xori _ rd _ _ => [rd]
  | .slli _ rd _ _ => [rd]
  | .srai _ rd _ _ => [rd]
  | .srli _ rd _ _ => [rd]
  | .shrp _ rd _ _ _ => [rd]
  | .extract _ rd _ _ _ => [rd]
  | .deposit _ rd _ _ _ => [rd]
  | .padd _ _ rd _ _ => [rd]
  | .paddU _ _ rd _ _ => [rd]
  | .paddS _ _ rd _ _ => [rd]
  | .paddincr _ _ rd _ _ => [rd]
  | .psub _ _ rd _ _ => [rd]
  | .psubU _ _ rd _ _ => [rd]
  | .psubS _ _ rd _ _ => [rd]
  | .psubdecr _ _ rd _ _ => [rd]
  | .pavg _ _ rd _ _ => [rd]
  | .pavgRaz _ _ rd _ _ => [rd]
  | .psubavg _ _ rd _ _ => [rd]
  | .andReg _ rd _ _ => [rd]
  | .andcm _ rd _ _ => [rd]
  | .orReg _ rd _ _ => [rd]
  | .xorReg _ rd _ _ => [rd]
  | .notReg _ rd _ => [rd]
  | .pcmpEq _ _ rd _ _ => [rd]
  | .pcmpGt _ _ rd _ _ => [rd]
  | .pmax _ _ rd _ _ => [rd]
  | .pmin _ _ rd _ _ => [rd]
  | .pshiftaddL _ _ rd _ _ => [rd]
  | .pshiftaddR _ _ rd _ _ => [rd]
  | .pmulOdd _ rd _ _ => [rd]
  | .pmulOddU _ rd _ _ => [rd]
  | .pmulEven _ rd _ _ => [rd]
  | .pmulEvenU _ rd _ _ => [rd]
  | .pmulshr _ _ rd _ _ => [rd]
  | .pmulshrA _ _ rd _ _ => [rd]
  | .pshiftL _ _ rd _ _ => [rd]
  | .pshiftR _ _ rd _ _ => [rd]
  | .pshiftRa _ _ rd _ _ => [rd]
  | .pshiftiL _ _ rd _ _ => [rd]
  | .pshiftiR _ _ rd _ _ => [rd]
  | .pshiftiRa _ _ rd _ _ => [rd]
  | .mixL _ _ rd _ _ => [rd]
  | .mixR _ _ rd _ _ => [rd]
  | .muxRev _ _ rd _ => [rd]
  | .muxMix _ _ rd _ => [rd]
  | .muxShuf _ _ rd _ => [rd]
  | .muxAlt _ _ rd _ => [rd]
  | .muxBrcst _ _ rd _ => [rd]
  | .perm _ rd _ _ => [rd]

end Sys2Proof.Machine
end

