-- ==== Sys2Proof/Certificates/Slice0/Obligations.lean ====
section
/-! DEFINITION. The statements for the provers. A statement about an instruction's result says that `exec` answers a next
state, what that state holds, and its frame (`Completes`, `WritesReg`, `WritesSubwords`, `WritesPair`, `StoresAt`,
`OnlyPc`, ... of Safety.lean). -/

section

open Sys2Proof Sys2Proof.Machine

/-! ### Encoding and decoding -/

/-- Decoding the word of a legal instruction gives the instruction back, with every operand at every value its field
admits; the word of a term that is not legal at the width is illegal: a subword wider than the register or a size that
is not offered (R81), a `loadi` position, a `testbit` bit number or an `extract` or `deposit` field past the register
(R82). The bit patterns are the spec's own choice (D1 to D5, log entry 5), and so are the limits of D16, D21, D24 and
D39 (log entries 5 and 19). -/
def Obligations.DecodeOfEncode : Prop :=
  ∀ (wd : Width) (i : Instr),
    (Legal wd i → decode wd (encode i) = .ok i) ∧
      (¬Legal wd i → ∃ r, decode wd (encode i) = .error (.illFormed r))

/-- A word that decodes is the word of the instruction it decodes to: no bit of a legal word is without a meaning, and
what the decoder accepts is of a size and with values that R81 and R82 allow at the width (R77, R80 to R82). The bit
patterns are the spec's own choice (D1 to D5, log entry 5), and so are the limits of D16, D21, D24 and D39 (log entries
5 and 19). -/
def Obligations.EncodeOfDecode : Prop :=
  ∀ (wd : Width) (w : BitVec 32) (i : Instr), decode wd w = .ok i → encode i = w ∧ Legal wd i

/-- Words written out in the spec decode to the instructions they stand for, one or two of each family: vectors of
95_test_vectors.md, and the last from the examples of R217 (the words are the spec's own choice, D1, log entry 5). -/
def Obligations.ExampleWordsDecode : Prop :=
  decode .w64 0x047FFFF8 = .ok (.jmp 0 (-8)) ∧
  decode .w64 0x140E9440 = .ok (.changeprLd 0 3 0xA5) ∧
  decode .w64 0x1884200A = .ok (.cmp 1 .eq 1 1 1 2) ∧
  decode .w64 0x2407BEEF = .ok (.loadiZ 0 3 1 0xBEEF) ∧
  decode .w64 0x34045FFC = .ok (.load4Update 0 1 2 (-4)) ∧
  decode .w64 0x4C044000 = .ok (.store8 0 1 2 0) ∧
  decode .w64 0x60044005 = .ok (.addi 0 1 2 5) ∧
  decode .w64 0x840C220C = .ok (.extract 0 3 1 8 12) ∧
  decode .w64 0x8C0C2281 = .ok (.paddU 0 .b4 3 1 2) ∧
  decode .w64 0xCC0C2281 = .ok (.pmulshrA 0 .sa15 3 1 2) ∧
  decode .w64 0xD40C3F82 = .ok (.pshiftiRa 0 .b4 3 1 31) ∧
  decode .w64 0xDC0C2044 = .ok (.muxBrcst 0 .b2 3 1)

/-- Opcodes 00 and 39 to 3F are reserved, so the all-zero word and the all-ones word are illegal (R78; which opcodes are
reserved is the spec's choice, D3, log entry 5). -/
def Obligations.ReservedOpcodesAreIllegal : Prop :=
  ∀ (wd : Width) (w : BitVec 32),
    (w.extractLsb' 26 6).toNat = 0 ∨ 0x39 ≤ (w.extractLsb' 26 6).toNat → decode wd w = .error .reservedOpcode

/-- The words of `changepr`, `addi`, `subi`, `andi`, `ori`, `xori` and the logical instructions, by the opcode and the
layout of the opcode map, decode to them with every operand at every value; a non-zero `Rs2` field of `not` is illegal.
The opcodes and layouts are the spec's own choice (D1 to D5, log entry 5), and the name of the reason is the model's
(log entry 25). -/
def Obligations.OpcodeMapWords : Prop :=
  ∀ (wd : Width) (qp : PredNum) (k : SetNum) (rd rs1 rs2 : Reg) (imm : BitVec 13),
    decode wd (enc5p 0x05 qp k 0 0) = .ok (.changepr qp k) ∧
    decode wd (enc2 0x18 qp rd rs1 imm) = .ok (.addi qp rd rs1 imm) ∧
    decode wd (enc2 0x1B qp rd rs1 imm) = .ok (.subi qp rd rs1 imm) ∧
    decode wd (enc2 0x19 qp rd rs1 imm) = .ok (.andi qp rd rs1 imm) ∧
    decode wd (enc2 0x1A qp rd rs1 imm) = .ok (.ori qp rd rs1 imm) ∧
    decode wd (enc2 0x1C qp rd rs1 imm) = .ok (.xori qp rd rs1 imm) ∧
    decode wd (enc4 0x29 qp rd rs1 rs2 0 0) = .ok (.andReg qp rd rs1 rs2) ∧
    decode wd (enc4 0x2A qp rd rs1 rs2 0 0) = .ok (.andcm qp rd rs1 rs2) ∧
    decode wd (enc4 0x2B qp rd rs1 rs2 0 0) = .ok (.orReg qp rd rs1 rs2) ∧
    decode wd (enc4 0x2C qp rd rs1 rs2 0 0) = .ok (.xorReg qp rd rs1 rs2) ∧
    decode wd (enc4 0x2D qp rd rs1 0 0 0) = .ok (.notReg qp rd rs1) ∧
    (rs2 ≠ 0 → decode wd (enc4 0x2D qp rd rs1 rs2 0 0) = .error .nonzeroField)

/-! ### The step -/

/-- A step runs the instruction whose bytes stand at the pc: when the machine runs, the pc is aligned, the four bytes
exist and decode to `i`, the step is the meaning of `i` (R31, R45). The word is decoded by the machine's `ENC` (R7, D1):
a word it does not list, as the default encoding decodes it; a word it lists, as its first entry for the word says,
where that term is legal at the width (R81, R82; how an `ENC` is written, and the names of reasons, are the model's, log
entries 1 and 25). -/
def Obligations.StepRunsDecodedInstruction : Prop :=
  (∀ (cfg : Config) (w : BitVec 32),
    ((∀ e ∈ cfg.enc, e.word ≠ w) → decodeUnder cfg w = decode cfg.width w) ∧
    ∀ before after term, cfg.enc = before ++ ⟨w, term⟩ :: after → (∀ e ∈ before, e.word ≠ w) →
      (term = none → decodeUnder cfg w = .error .notInEnc) ∧
      ∀ i, term = some i →
        (Legal cfg.width i → decodeUnder cfg w = .ok i) ∧
          (¬Legal cfg.width i → ∃ r, decodeUnder cfg w = .error (.illFormed r))) ∧
  ∀ (s : State) (w : BitVec 32) (i : Instr),
    s.mach.outcome = .running → s.mach.pc.toNat % 4 = 0 → present s.cfg.absent s.mach.pc.toNat 4 = true →
    (∀ k < 4, s.mach.mem.read (s.mach.pc.toNat + k) = w.extractLsb' (8 * k) 8) →
    decodeUnder s.cfg w = .ok i → step s = exec i s

/-- The two traps of the fetch. A pc that is not a multiple of 4 raises the Unaligned Address Trap before anything is
fetched; an illegal word raises the Illegal Instruction Trap, whatever predicate its `qp` field names. Nothing else
changes (R31, R48, R83, R232, R236, R237; D8, D13, D33, log entries 5, 7, 15 and 17). -/
def Obligations.FetchTraps : Prop :=
  ∀ (s : State), s.mach.outcome = .running →
    (s.mach.pc.toNat % 4 ≠ 0 →
      step s = .next (s.withMach { s.mach with outcome := .unalignedAddressTrap s.mach.pc })) ∧
    ∀ (w : BitVec 32) (e : Illegal), s.mach.pc.toNat % 4 = 0 → present s.cfg.absent s.mach.pc.toNat 4 = true →
      (∀ k < 4, s.mach.mem.read (s.mach.pc.toNat + k) = w.extractLsb' (8 * k) 8) →
      decodeUnder s.cfg w = .error e →
      step s = .next (s.withMach { s.mach with outcome := .illegalInstructionTrap w })

/-- No step is taken from a terminal outcome (R230; D33, log entry 7). -/
def Obligations.TerminalOutcomesTakeNoStep : Prop :=
  ∀ (s : State), s.mach.outcome ≠ .running → step s = .fault .runEnded

/-- An instruction whose qualifying predicate is 0 does nothing but advance the pc, whatever it is (R32; D7, D9, log
entry 15). -/
def Obligations.NullifiedOnlyAdvancesPc : Prop :=
  ∀ (i : Instr) (s : State), s.mach.pget i.qp = false →
    exec i s = .next (s.withMach { s.mach with pc := s.mach.pc + 4 })

/-! ### Reset and invariants -/

/-- What the spec fixes at the start of a run: R0 reads 0, P0 of every set is 1, the outcome is `Running` (R37, R251).
Every other value of `State.reset` is the model's (log entries 3 and 4) and nothing is said of it. -/
def Obligations.ResetFixedValues : Prop :=
  State.reset.mach.rget 0 = 0 ∧ (∀ k : SetNum, (State.reset.mach.pr[k.val]'k.isLt).getLsbD 0 = true) ∧
    State.reset.mach.outcome = .running

/-- The invariant holds at reset: memory is in its canonical form, lists only addresses of the address space, and P0 of
every set is stored as 1 (R25, R40, R41; the form of memory is the model's). -/
def Obligations.ResetMeetsInvariant : Prop := State.reset.Inv

/-- Every step keeps the invariant, from every state that meets it: memory stays canonical and inside the address space,
P0 of every set stays 1 (R25, R40, R41; the form of memory is the model's). And no step changes the parameters of the
machine (R7, R38; log entry 1). -/
def Obligations.StepKeepsInvariant : Prop :=
  ∀ (s t : State), s.Inv → step s = .next t → t.Inv ∧ t.cfg = s.cfg

/-! ### Rules of the whole machine -/

/-- Traps are precise, and so is `Halted`: a step that ends the run changes nothing but the outcome (R49, R233, R236;
D33, log entry 7). -/
def Obligations.EndOfRunIsPrecise : Prop :=
  ∀ (s t : State), step s = .next t → t.mach.outcome ≠ .running →
    ∃ o, t = s.withMach { s.mach with outcome := o }

/-- What may end a run from `exec`: only an executed `trap` halts, and only a load or store at an address that is not
a multiple of its size, under a true predicate, raises the Unaligned Address Trap, which carries that address (R231,
R233, R235; D33, log entries 7 and 8). -/
def Obligations.OnlyTheseInstructionsEndTheRun : Prop :=
  ∀ (i : Instr) (s t : State), s.mach.outcome = .running → exec i s = .next t →
    ∃ m, t = s.withMach m ∧
      (m.outcome = .running ∨
        (m.outcome = .halted ∧ ∃ qp, i = .trap qp ∧ s.mach.pget qp = true) ∨
        ∃ a n, (loadAt i s.mach = some (a, n) ∨ storeAt i s.mach = some (a, n)) ∧ a.toNat % n ≠ 0 ∧
          s.mach.pget i.qp = true ∧ m.outcome = .unalignedAddressTrap a)

/-- Only `changepr` and `changepr.ld` write `aps` (R26). -/
def Obligations.OnlySetSelectionWritesAps : Prop :=
  ∀ (i : Instr) (s t : State), exec i s = .next t → t.mach.aps ≠ s.mach.aps →
    (∃ qp k, i = .changepr qp k ∧ t.mach.aps = k) ∨ ∃ qp k v, i = .changeprLd qp k v ∧ t.mach.aps = k

/-- Predicate sets: an instruction changes no predicate but `Pd1` and `Pd2` of the active set, if it is a compare or
`testbit`, or those of the set it loads, if it is `changepr.ld` (R24, R27). -/
def Obligations.OnlyComparesAndLoadsWritePredicates : Prop :=
  ∀ (i : Instr) (s t : State) (k : SetNum) (j : PredNum), exec i s = .next t →
    t.mach.predOf k j ≠ s.mach.predOf k j →
    (∃ qp v, i = .changeprLd qp k v) ∨
      (k = s.mach.aps ∧ ∃ qp pd1 pd2, (j = pd1 ∨ j = pd2) ∧
        ((∃ rel rs1 rs2, i = .cmp qp rel rs1 rs2 pd1 pd2 ∨ i = .cmpPw0 qp rel rs1 rs2 pd1 pd2 ∨
            i = .cmpPw1 qp rel rs1 rs2 pd1 pd2) ∨
          (∃ rel rs1 imm8, i = .cmpi qp rel rs1 imm8 pd1 pd2) ∨ ∃ rs1 imm8, i = .testbit qp rs1 imm8 pd1 pd2))

/-- Memory: an instruction changes no byte outside those it stores to; one that is no store changes none (R42, R54). -/
def Obligations.OnlyStoresChangeMemory : Prop :=
  ∀ (i : Instr) (s t : State) (a : Nat), exec i s = .next t → t.mach.mem.read a ≠ s.mach.mem.read a →
    ∃ ea n, storeAt i s.mach = some (ea, n) ∧ ea.toNat ≤ a ∧ a < ea.toNat + n

/-- General registers: an instruction changes no register but those R23 lets it write. -/
def Obligations.OnlyWrittenRegistersChange : Prop :=
  ∀ (i : Instr) (s t : State), exec i s = .next t →
    ∃ m, t = s.withMach m ∧ ∀ r, r ∉ writtenRegs i → m.rget r = s.mach.rget r

/-- The pc after an instruction: the next sequential instruction; for `jmp` and `jmp.link` also the target that is the
instruction's own address plus the scaled immediate, for `jmp.reg` and `jmp.reg.link` the one their register gives; where
the run ends, the instruction's own address (R33, R105, R236; the targets are those of D11 and D12, log entries 12 and
27). -/
def Obligations.OnlyJumpsRedirect : Prop :=
  ∀ (i : Instr) (s t : State), exec i s = .next t →
    ∃ m, t = s.withMach m ∧
      (m.pc = s.mach.pc + 4 ∨ (m.pc = s.mach.pc ∧ m.outcome ≠ .running) ∨
        (∃ qp imm, (i = .jmp qp imm ∨ i = .jmpLink qp imm) ∧ m.pc = s.mach.relativeTarget s.cfg.jmpScale imm) ∨
        ∃ qp rd, (i = .jmpReg qp rd ∨ i = .jmpRegLink qp rd) ∧ m.pc = s.mach.registerTarget s.cfg.jmpRegMode rd)

/-! ### Registers and memory -/

/-- The register file: R0 reads 0 whatever was written to it; any other register reads what was last written to it, and
a write leaves every other register alone (R20, R21). -/
def Obligations.RegisterFile : Prop :=
  ∀ (W : Nat) (m : Mach W) (r r' : Reg) (v : BitVec W),
    m.rget 0 = 0 ∧ (m.rset r v).rget r = (if r = 0 then 0 else v) ∧ (r' ≠ r → (m.rset r v).rget r' = m.rget r')

/-- Mixed-width accesses: after an 8-byte store at `a` a 4-byte read at `a` gives the low word and one at `a + 4` the
high word; after a 1-byte store at `a + 3` a 4-byte read at `a` has that byte on top (R43, R44, R46; the order of the
bytes between is the spec's reading, log entry 24). -/
def Obligations.MixedWidthAccesses : Prop :=
  ∀ (W : Nat) (m : Mach W) (a : Nat) (v : BitVec 64) (b : BitVec 8),
    BitVec.ofNat 32 ((m.store 8 a v.toNat).mem.readLE a 4) = v.extractLsb' 0 32 ∧
    BitVec.ofNat 32 ((m.store 8 a v.toNat).mem.readLE (a + 4) 4) = v.extractLsb' 32 32 ∧
    BitVec.ofNat 64 ((m.store 8 a v.toNat).mem.readLE a 8) = v ∧
    (BitVec.ofNat 32 ((m.store 1 (a + 3) b.toNat).mem.readLE a 4)).extractLsb' 24 8 = b ∧
    (BitVec.ofNat 32 ((m.store 1 (a + 3) b.toNat).mem.readLE a 4)).extractLsb' 0 24 =
      (BitVec.ofNat 32 (m.mem.readLE a 4)).extractLsb' 0 24

/-! ### Program flow -/

/-- `jmp` and `jmp.link`: the target is the instruction's own address plus the sign-extended immediate times
`JMP_SCALE`; `jmp.link` also leaves the address of the next instruction in R31; nothing else changes (R100, R101, R105;
the sign extension and the scale are the spec's decision D11, log entry 12). -/
def Obligations.JumpResults : Prop :=
  ∀ (s : State) (qp : PredNum) (imm : BitVec 23), s.mach.pget qp = true →
    ∀ target, target = s.mach.pc + BitVec.ofNat s.W s.cfg.jmpScale * imm.signExtend s.W →
      Completes (.jmp qp imm) s (s.mach.OnlyPc · target) ∧ Completes (.jmpLink qp imm) s (s.mach.Links · target)

/-- `jmp.reg` and `jmp.reg.link`: the register as it was before the link is added to the instruction's own address; the
link goes to R31 (R102, R103, R105; D12, log entry 12). Under `JMPREG_MODE = absolute`, a switch that is not what the
source says (R102, log entry 27), the register is the target. -/
def Obligations.RegisterJumpResults : Prop :=
  ∀ (s : State) (qp : PredNum) (rd : Reg), s.mach.pget qp = true →
    ∀ target, target = (if s.cfg.jmpRegMode = .relative then s.mach.pc + s.mach.rget rd else s.mach.rget rd) →
      Completes (.jmpReg qp rd) s (s.mach.OnlyPc · target) ∧ Completes (.jmpRegLink qp rd) s (s.mach.Links · target)

/-- `trap` ends the run in `Halted` and changes nothing else (R104, R233; its predication is the spec's decision D9, log
entry 15). -/
def Obligations.TrapHalts : Prop :=
  ∀ (s : State) (qp : PredNum), s.mach.pget qp = true →
    exec (.trap qp) s = .next (s.withMach { s.mach with outcome := .halted })

/-! ### Compare and predication -/

/-- `changepr`: the active set becomes `imm4`, no predicate bit of any set changes, and each predicate then reads that
set's bit (R112). -/
def Obligations.ChangePredicateSetResult : Prop :=
  ∀ (s : State) (qp : PredNum) (k : SetNum), s.mach.pget qp = true →
    Completes (.changepr qp k) s fun m =>
      m.aps = k ∧ m.pr = s.mach.pr ∧ (∀ j, m.pget j = s.mach.predOf k j) ∧ s.mach.SameRegs m ∧
        s.mach.SameMemory m ∧ m.outcome = s.mach.outcome ∧ m.pc = s.mach.pc + 4

/-- `changepr.ld`: the active set becomes `imm4` and its P1 to P7 become the bits of `imm8`, P0 staying 1; every other
set is unchanged (R113; that bit `j` is `Pj` is the spec's decision D18, log entry 18). -/
def Obligations.LoadPredicateSetResult : Prop :=
  ∀ (s : State) (qp : PredNum) (k : SetNum) (imm8 : BitVec 8), s.mach.pget qp = true →
    Completes (.changeprLd qp k imm8) s fun m =>
      m.aps = k ∧ (∀ j, m.pget j = (if j = 0 then true else imm8.getLsbD j.val)) ∧
        (∀ k' j, k' ≠ k → m.predOf k' j = s.mach.predOf k' j) ∧ s.mach.SameRegs m ∧ s.mach.SameMemory m ∧
        m.outcome = s.mach.outcome ∧ m.pc = s.mach.pc + 4

/-- The ten relations, signed and unsigned, on all `W` bits of both operands; the first operand of `cmp` and `cmpi` is
`Rs1`, the second `Rs2` or the sign-extended immediate (R111). Signed numbers are two's complement (R10, from general
knowledge, log entry 26); that the immediate is sign-extended for the unsigned relations too is the spec's decision D20
(log entry 19). The second clause is about a `Pd1` other than P0 with `Pd2` = P0; `CompareResults` has the others. -/
def Obligations.RelationTable : Prop :=
  (∀ (W : Nat) (a b : BitVec W),
    (relHolds .eq a b = true ↔ a = b) ∧ (relHolds .ne a b = true ↔ a ≠ b) ∧
    (relHolds .lt a b = true ↔ a.toInt < b.toInt) ∧ (relHolds .le a b = true ↔ a.toInt ≤ b.toInt) ∧
    (relHolds .gt a b = true ↔ a.toInt > b.toInt) ∧ (relHolds .ge a b = true ↔ a.toInt ≥ b.toInt) ∧
    (relHolds .ltu a b = true ↔ a.toNat < b.toNat) ∧ (relHolds .leu a b = true ↔ a.toNat ≤ b.toNat) ∧
    (relHolds .gtu a b = true ↔ a.toNat > b.toNat) ∧ (relHolds .geu a b = true ↔ a.toNat ≥ b.toNat)) ∧
  ∀ (s : State) (qp pd1 : PredNum) (rel : Rel) (rs1 rs2 : Reg) (imm8 : BitVec 8),
    s.mach.pget qp = true → pd1 ≠ 0 →
      (Completes (.cmp qp rel rs1 rs2 pd1 0) s fun m =>
        m.pget pd1 = relHolds rel (s.mach.rget rs1) (s.mach.rget rs2)) ∧
      Completes (.cmpi qp rel rs1 imm8 pd1 0) s fun m =>
        m.pget pd1 = relHolds rel (s.mach.rget rs1) (imm8.signExtend s.W)

/-- `cmp.rel`, `cmpi.rel` and `testbit`: the bit goes to `Pd1` and its complement to `Pd2` of the active set, a write to
P0 being discarded; the immediate of `cmpi` is sign-extended for every relation (R110, R114, R117, R118; D20, D21, log
entry 19). A `testbit` with `imm8 >= W` is illegal (R82, R118, D21); its word is the spec's own (D1 to D5, log entry 5),
the name of the reason the model's (log entry 25). Two writes to one predicate other than P0 are
`CompareToOnePredicateRefused`. -/
def Obligations.CompareResults : Prop :=
  (∀ (wd : Width) (qp pd1 pd2 : PredNum) (rs1 : Reg) (imm8 : BitVec 8),
    decode wd (enc5b 0x08 qp rs1 imm8 0 pd1 pd2) =
      if imm8.toNat < wd.bits then .ok (.testbit qp rs1 imm8 pd1 pd2)
      else .error (.illFormed .bitNumberExceedsWidth)) ∧
  ∀ (s : State) (qp pd1 pd2 : PredNum) (rel : Rel) (rs1 rs2 : Reg) (imm8 : BitVec 8),
    s.mach.pget qp = true → (pd1 ≠ pd2 ∨ pd1 = 0) →
      Completes (.cmp qp rel rs1 rs2 pd1 pd2) s
        (s.mach.WritesPair · pd1 pd2 (relHolds rel (s.mach.rget rs1) (s.mach.rget rs2))) ∧
      Completes (.cmpi qp rel rs1 imm8 pd1 pd2) s
        (s.mach.WritesPair · pd1 pd2 (relHolds rel (s.mach.rget rs1) (imm8.signExtend s.W))) ∧
      (imm8.toNat < s.W → Completes (.testbit qp rs1 imm8 pd1 pd2) s
        (s.mach.WritesPair · pd1 pd2 ((s.mach.rget rs1).getLsbD imm8.toNat)))

/-- `cmp.rel.pw0` writes 0 to `Pd1` and 1 to `Pd2`, `cmp.rel.pw1` 1 and 0, when the relation is true; when it is false
nothing is written (R115, R116). -/
def Obligations.ParallelWriteCompareResults : Prop :=
  ∀ (s : State) (qp pd1 pd2 : PredNum) (rel : Rel) (rs1 rs2 : Reg),
    s.mach.pget qp = true → (pd1 ≠ pd2 ∨ pd1 = 0) →
      (relHolds rel (s.mach.rget rs1) (s.mach.rget rs2) = true →
        Completes (.cmpPw0 qp rel rs1 rs2 pd1 pd2) s (s.mach.WritesPair · pd1 pd2 false) ∧
        Completes (.cmpPw1 qp rel rs1 rs2 pd1 pd2) s (s.mach.WritesPair · pd1 pd2 true)) ∧
      (relHolds rel (s.mach.rget rs1) (s.mach.rget rs2) = false →
        Completes (.cmpPw0 qp rel rs1 rs2 pd1 pd2) s (s.mach.OnlyPc · (s.mach.pc + 4)) ∧
        Completes (.cmpPw1 qp rel rs1 rs2 pd1 pd2) s (s.mach.OnlyPc · (s.mach.pc + 4)))

/-- A compare or `testbit` that is executed with one predicate other than P0 for both destinations is refused, the
parallel-write forms whether or not the relation holds (R110, R115; D19, log entry 9). -/
def Obligations.CompareToOnePredicateRefused : Prop :=
  ∀ (s : State) (qp pd : PredNum) (rel : Rel) (rs1 rs2 : Reg) (imm8 : BitVec 8),
    s.mach.pget qp = true → pd ≠ 0 →
      exec (.cmp qp rel rs1 rs2 pd pd) s = .refused .pd1EqualsPd2 ∧
      exec (.cmpPw0 qp rel rs1 rs2 pd pd) s = .refused .pd1EqualsPd2 ∧
      exec (.cmpPw1 qp rel rs1 rs2 pd pd) s = .refused .pd1EqualsPd2 ∧
      exec (.cmpi qp rel rs1 imm8 pd pd) s = .refused .pd1EqualsPd2 ∧
      exec (.testbit qp rs1 imm8 pd pd) s = .refused .pd1EqualsPd2

/-- Two `cmp.rel.pw0` aimed at the same predicates give the same state in either order, and so do two `cmp.rel.pw1`,
where neither destination qualifies them (R258). -/
def Obligations.ParallelWriteComparesCommute : Prop :=
  ∀ (s : State) (qp qp' pd1 pd2 : PredNum) (rel rel' : Rel) (rs1 rs2 rs1' rs2' : Reg),
    pd1 ≠ pd2 → qp ≠ pd1 → qp ≠ pd2 → qp' ≠ pd1 → qp' ≠ pd2 →
    ∀ c c' : Instr,
      (c = .cmpPw0 qp rel rs1 rs2 pd1 pd2 ∧ c' = .cmpPw0 qp' rel' rs1' rs2' pd1 pd2) ∨
        (c = .cmpPw1 qp rel rs1 rs2 pd1 pd2 ∧ c' = .cmpPw1 qp' rel' rs1' rs2' pd1 pd2) →
      ∃ t u t', exec c s = .next t ∧ exec c' t = .next u ∧ exec c' s = .next t' ∧ exec c t' = .next u

/-! ### Memory access -/

/-- `loadi.z` puts the immediate at bit `16·pos` of a cleared register; `loadi.k` replaces the 16 bits there and keeps the
others. A position outside the register (2 and 3 on a 32-bit machine) is illegal (R82, R126, R127). The words of opcodes
09 and 0A are the spec's own choice (D1 to D5, log entry 5), and the name of the reason is the model's (log entry 25). -/
def Obligations.LoadImmediateResults : Prop :=
  (∀ (wd : Width) (qp : PredNum) (pos : Fin 4) (rd : Reg) (imm : BitVec 16),
    (decode wd (enc1 0x09 qp rd pos imm) =
      if 16 * pos.val < wd.bits then .ok (.loadiZ qp pos rd imm) else .error (.illFormed .positionExceedsWidth)) ∧
    (decode wd (enc1 0x0A qp rd pos imm) =
      if 16 * pos.val < wd.bits then .ok (.loadiK qp pos rd imm) else .error (.illFormed .positionExceedsWidth))) ∧
  ∀ (s : State) (qp : PredNum) (pos : Fin 4) (rd : Reg) (imm : BitVec 16), s.mach.pget qp = true →
    16 * pos.val < s.W →
    (Completes (.loadiZ qp pos rd imm) s fun m => ∃ v, s.mach.WritesReg m rd v ∧
      ∀ i < s.W, v.getLsbD i = (decide (16 * pos.val ≤ i) && imm.getLsbD (i - 16 * pos.val))) ∧
    (Completes (.loadiK qp pos rd imm) s fun m => ∃ v, s.mach.WritesReg m rd v ∧
      ∀ i < s.W, v.getLsbD i =
        if 16 * pos.val ≤ i ∧ i < 16 * pos.val + 16 then imm.getLsbD (i - 16 * pos.val)
        else (s.mach.rget rd).getLsbD i)

/-- The plain loads, where the address is aligned and exists: `Rd` gets the bytes at `x[Rs1] + sext(imm13)`, or at
`x[Rs1] + x[Rs2]`, the least significant first, widened by `LOAD_EXT` where the register is wider (R125, R128, R130;
D14, D15, log entries 13, 19 and 24). -/
def Obligations.LoadResults : Prop :=
  ∀ (s : State) (qp : PredNum) (rd rs1 rs2 : Reg) (imm13 : BitVec 13), s.mach.pget qp = true →
    (∀ ea, ea = s.mach.rget rs1 + imm13.signExtend s.W →
      (ea.toNat % 4 = 0 → present s.cfg.absent ea.toNat 4 = true →
        Completes (.load4 qp rd rs1 imm13) s fun m =>
          ∃ v, s.mach.WritesReg m rd v ∧ s.mach.LoadedAs s.cfg.loadExt ea.toNat 4 v) ∧
      (64 ≤ s.W → ea.toNat % 8 = 0 → present s.cfg.absent ea.toNat 8 = true →
        Completes (.load8 qp rd rs1 imm13) s fun m =>
          ∃ v, s.mach.WritesReg m rd v ∧ s.mach.LoadedAs s.cfg.loadExt ea.toNat 8 v)) ∧
    ∀ ea, ea = s.mach.rget rs1 + s.mach.rget rs2 →
      ∀ sw : Sw, (sw = .b4 ∨ sw = .b8) → sw.bits ≤ s.W → ea.toNat % sw.bytes = 0 →
        present s.cfg.absent ea.toNat sw.bytes = true →
        Completes (.loadx qp sw rd rs1 rs2) s fun m =>
          ∃ v, s.mach.WritesReg m rd v ∧ s.mach.LoadedAs s.cfg.loadExt ea.toNat sw.bytes v

/-- The update loads, where the address `x[Rs1]` is aligned and exists and `Rd` is not the base (or both are R0): `Rd`
gets the bytes at the old base, and the base is then replaced by `x[Rs1] + sext(imm13)`, or `x[Rs1] + x[Rs2]`, whatever
its alignment (R125, R129, R131; D14, D15, log entries 13, 19 and 24). `Rd = Rs1` is `UpdateLoadToItsBaseRefused`. -/
def Obligations.UpdateLoadResults : Prop :=
  ∀ (s : State) (qp : PredNum) (rd rs1 rs2 : Reg) (imm13 : BitVec 13), s.mach.pget qp = true →
    (rd ≠ rs1 ∨ rd = 0) → ∀ ea, ea = s.mach.rget rs1 →
    (ea.toNat % 4 = 0 → present s.cfg.absent ea.toNat 4 = true →
      Completes (.load4Update qp rd rs1 imm13) s fun m => ∃ v,
        s.mach.LoadsAndUpdates m rd rs1 v (ea + imm13.signExtend s.W) ∧
          s.mach.LoadedAs s.cfg.loadExt ea.toNat 4 v) ∧
    (64 ≤ s.W → ea.toNat % 8 = 0 → present s.cfg.absent ea.toNat 8 = true →
      Completes (.load8Update qp rd rs1 imm13) s fun m => ∃ v,
        s.mach.LoadsAndUpdates m rd rs1 v (ea + imm13.signExtend s.W) ∧
          s.mach.LoadedAs s.cfg.loadExt ea.toNat 8 v) ∧
    ∀ sw : Sw, (sw = .b4 ∨ sw = .b8) → sw.bits ≤ s.W → ea.toNat % sw.bytes = 0 →
      present s.cfg.absent ea.toNat sw.bytes = true →
      Completes (.loadxUpdate qp sw rd rs1 rs2) s fun m => ∃ v,
        s.mach.LoadsAndUpdates m rd rs1 v (ea + s.mach.rget rs2) ∧
          s.mach.LoadedAs s.cfg.loadExt ea.toNat sw.bytes v

/-- An update load whose `Rd` is its base register, other than R0, is refused where its access is aligned and exists
(R129, R131; D17, log entry 10). -/
def Obligations.UpdateLoadToItsBaseRefused : Prop :=
  ∀ (s : State) (qp : PredNum) (r rs2 : Reg) (imm13 : BitVec 13), s.mach.pget qp = true → r ≠ 0 →
    (∀ ea, ea = s.mach.rget r →
      (ea.toNat % 4 = 0 → present s.cfg.absent ea.toNat 4 = true →
        exec (.load4Update qp r r imm13) s = .refused .loadUpdateRdEqualsRs1) ∧
      (ea.toNat % 8 = 0 → present s.cfg.absent ea.toNat 8 = true →
        exec (.load8Update qp r r imm13) s = .refused .loadUpdateRdEqualsRs1) ∧
      ∀ sw : Sw, (sw = .b4 ∨ sw = .b8) → ea.toNat % sw.bytes = 0 → present s.cfg.absent ea.toNat sw.bytes = true →
        exec (.loadxUpdate qp sw r r rs2) s = .refused .loadUpdateRdEqualsRs1)

/-- A load or store at an address that is not a multiple of its size raises the Unaligned Address Trap, and nothing
else changes: no register, no base, no byte (R47, R49, R125, R231; that the trap carries the address is R235's
convenience, D33, log entry 8). -/
def Obligations.MisalignedAccessTraps : Prop :=
  ∀ (i : Instr) (s : State) (a : BitVec s.W) (n : Nat), s.mach.pget i.qp = true →
    (loadAt i s.mach = some (a, n) ∨ storeAt i s.mach = some (a, n)) → a.toNat % n ≠ 0 →
    exec i s = .next (s.withMach { s.mach with outcome := .unalignedAddressTrap a })

/-- A fetch, load or store that is aligned and touches a byte that does not exist has no meaning: the model faults, and
raises no trap (R52; D35, log entry 11). The bytes that do not exist are those of the absent ranges, of which an empty
one takes none away. -/
def Obligations.AccessOutsideMemoryFaults : Prop :=
  (∀ (absent : List AddrRange) (a n : Nat),
    present absent a n = true ↔ ∀ k < n, ∀ r ∈ absent, a + k < r.base ∨ r.base + r.size ≤ a + k) ∧
  ∀ (s : State) (a n k : Nat) (r : AddrRange), r ∈ s.cfg.absent → k < n → r.base ≤ a + k → a + k < r.base + r.size →
    (a = s.mach.pc.toNat → n = 4 → a % 4 = 0 → s.mach.outcome = .running → step s = .fault (.outsideMem a)) ∧
    ∀ (i : Instr) (ea : BitVec s.W), a = ea.toNat → s.mach.pget i.qp = true →
      (loadAt i s.mach = some (ea, n) ∨ storeAt i s.mach = some (ea, n)) → a % n = 0 →
      exec i s = .fault (.outsideMem a)

/-- The plain stores, where the address `x[Rs1] + sext(imm13)` is aligned and exists: the low bytes of `Rd` stand at the
address, the least significant first, every other byte and every register is unchanged; `store.1` needs no alignment
(R125, R132; D14, log entries 19 and 24). -/
def Obligations.StoreResults : Prop :=
  ∀ (s : State) (qp : PredNum) (rd rs1 : Reg) (imm13 : BitVec 13), s.mach.pget qp = true →
    ∀ ea, ea = s.mach.rget rs1 + imm13.signExtend s.W →
    (present s.cfg.absent ea.toNat 1 = true →
      Completes (.store1 qp rd rs1 imm13) s fun m =>
        s.mach.StoresAt m ea.toNat 1 (s.mach.rget rd) ∧ s.mach.SameRegs m) ∧
    (ea.toNat % 2 = 0 → present s.cfg.absent ea.toNat 2 = true →
      Completes (.store2 qp rd rs1 imm13) s fun m =>
        s.mach.StoresAt m ea.toNat 2 (s.mach.rget rd) ∧ s.mach.SameRegs m) ∧
    (ea.toNat % 4 = 0 → present s.cfg.absent ea.toNat 4 = true →
      Completes (.store4 qp rd rs1 imm13) s fun m =>
        s.mach.StoresAt m ea.toNat 4 (s.mach.rget rd) ∧ s.mach.SameRegs m) ∧
    (64 ≤ s.W → ea.toNat % 8 = 0 → present s.cfg.absent ea.toNat 8 = true →
      Completes (.store8 qp rd rs1 imm13) s fun m =>
        s.mach.StoresAt m ea.toNat 8 (s.mach.rget rd) ∧ s.mach.SameRegs m)

/-- The update stores, where the address `x[Rs1]` is aligned and exists: the low bytes of the old `Rd` stand at the old
base, and the base is then replaced by `x[Rs1] + sext(imm13)`, whatever its alignment (R125, R133; D14, log entries 19
and 24). -/
def Obligations.UpdateStoreResults : Prop :=
  ∀ (s : State) (qp : PredNum) (rd rs1 : Reg) (imm13 : BitVec 13), s.mach.pget qp = true →
    ∀ ea base, ea = s.mach.rget rs1 → base = ea + imm13.signExtend s.W →
    (present s.cfg.absent ea.toNat 1 = true →
      Completes (.store1Update qp rd rs1 imm13) s fun m =>
        s.mach.StoresAt m ea.toNat 1 (s.mach.rget rd) ∧ m.rget rs1 = written rs1 base ∧ s.mach.SameRegsBut m rs1) ∧
    (ea.toNat % 2 = 0 → present s.cfg.absent ea.toNat 2 = true →
      Completes (.store2Update qp rd rs1 imm13) s fun m =>
        s.mach.StoresAt m ea.toNat 2 (s.mach.rget rd) ∧ m.rget rs1 = written rs1 base ∧ s.mach.SameRegsBut m rs1) ∧
    (ea.toNat % 4 = 0 → present s.cfg.absent ea.toNat 4 = true →
      Completes (.store4Update qp rd rs1 imm13) s fun m =>
        s.mach.StoresAt m ea.toNat 4 (s.mach.rget rd) ∧ m.rget rs1 = written rs1 base ∧ s.mach.SameRegsBut m rs1) ∧
    (64 ≤ s.W → ea.toNat % 8 = 0 → present s.cfg.absent ea.toNat 8 = true →
      Completes (.store8Update qp rd rs1 imm13) s fun m =>
        s.mach.StoresAt m ea.toNat 8 (s.mach.rget rd) ∧ m.rget rs1 = written rs1 base ∧ s.mach.SameRegsBut m rs1)

/-! ### ALU with an immediate -/

/-- `addi` and `subi`: the sign-extended immediate is added to, or subtracted from, the register, modulo `2^W`; there is
no exception (R140, R143). -/
def Obligations.AddSubtractImmediateResults : Prop :=
  ∀ (s : State) (qp : PredNum) (rd rs1 : Reg) (imm : BitVec 13), s.mach.pget qp = true →
    Completes (.addi qp rd rs1 imm) s (s.mach.WritesReg · rd (s.mach.rget rs1 + imm.signExtend s.W)) ∧
    Completes (.subi qp rd rs1 imm) s (s.mach.WritesReg · rd (s.mach.rget rs1 - imm.signExtend s.W))

/-- `andi`, `ori` and `xori`: the zero-extended immediate is anded, ored or xored with the register; there is no
exception (R141, R142, R144). -/
def Obligations.LogicalImmediateResults : Prop :=
  ∀ (s : State) (qp : PredNum) (rd rs1 : Reg) (imm : BitVec 13), s.mach.pget qp = true →
    Completes (.andi qp rd rs1 imm) s (s.mach.WritesReg · rd (s.mach.rget rs1 &&& imm.setWidth s.W)) ∧
    Completes (.ori qp rd rs1 imm) s (s.mach.WritesReg · rd (s.mach.rget rs1 ||| imm.setWidth s.W)) ∧
    Completes (.xori qp rd rs1 imm) s (s.mach.WritesReg · rd (s.mach.rget rs1 ^^^ imm.setWidth s.W))

/-! ### Shift and bit field -/

/-- `slli`, `srai` and `srli` shift by `u(imm13) mod W`; the arithmetic shift rounds toward minus infinity (R150 to
R152, R156; the amount at `W` is the spec's decision D22, log entry 19). Under the other reading of `NUM`, `imm13 = W`
shifts by `W` (U12, log entry 14). -/
def Obligations.ImmediateShiftResults : Prop :=
  ∀ (s : State) (qp : PredNum) (rd rs1 : Reg) (imm : BitVec 13), s.mach.pget qp = true →
    ∀ k, k = (if imm.toNat = s.W ∧ s.cfg.num.immShiftAtWidth = .shiftOut then s.W else imm.toNat % s.W) →
    (Completes (.slli qp rd rs1 imm) s fun m => ∃ v, s.mach.WritesReg m rd v ∧
      v.toNat = (s.mach.rget rs1).toNat * 2 ^ k % 2 ^ s.W) ∧
    (Completes (.srai qp rd rs1 imm) s fun m => ∃ v, s.mach.WritesReg m rd v ∧
      v.toInt = (s.mach.rget rs1).toInt / ((2 ^ k : Nat) : Int)) ∧
    (Completes (.srli qp rd rs1 imm) s fun m => ∃ v, s.mach.WritesReg m rd v ∧
      v.toNat = (s.mach.rget rs1).toNat / 2 ^ k)

/-- `shrp`: bit `i` of the result is bit `i + k` of the pair whose high half is `Rs1`, `k = u(imm8) mod 2W`, zeros
entering at the top (R153; which half is high is the spec's decision D23, log entry 19). -/
def Obligations.ShiftRightPairResult : Prop :=
  ∀ (s : State) (qp : PredNum) (rd rs1 rs2 : Reg) (imm8 : BitVec 8), s.mach.pget qp = true →
    ∀ k, k = imm8.toNat % (2 * s.W) →
    Completes (.shrp qp rd rs1 rs2 imm8) s fun m => ∃ v, s.mach.WritesReg m rd v ∧
      ∀ i < s.W, v.getLsbD i =
        if i + k < s.W then (s.mach.rget rs2).getLsbD (i + k) else (s.mach.rget rs1).getLsbD (i + k - s.W)

/-- `extract` and `deposit`: the field of `imm6` bits whose lowest bit is bit `imm7`, taken out of `Rs1` right-aligned
with zeros above, or put into `Rd` with its other bits unchanged (R154, R155; where the location counts from is the
spec's decision D24, log entry 19). A field with `imm7 + imm6 > W` is illegal (R82, R154, R155, D24); the words are the
spec's own (D1 to D5, log entry 5), the name of the reason the model's (log entry 25). -/
def Obligations.BitFieldResults : Prop :=
  (∀ (wd : Width) (qp : PredNum) (rd rs1 : Reg) (imm7 : BitVec 7) (imm6 : BitVec 6),
    (decode wd (enc3 0x21 qp rd rs1 imm7 imm6) =
      if imm7.toNat + imm6.toNat ≤ wd.bits then .ok (.extract qp rd rs1 imm7 imm6)
      else .error (.illFormed .fieldExceedsWidth)) ∧
    (decode wd (enc3 0x22 qp rd rs1 imm7 imm6) =
      if imm7.toNat + imm6.toNat ≤ wd.bits then .ok (.deposit qp rd rs1 imm7 imm6)
      else .error (.illFormed .fieldExceedsWidth))) ∧
  ∀ (s : State) (qp : PredNum) (rd rs1 : Reg) (imm7 : BitVec 7) (imm6 : BitVec 6), s.mach.pget qp = true →
    imm7.toNat + imm6.toNat ≤ s.W →
    (Completes (.extract qp rd rs1 imm7 imm6) s fun m => ∃ v, s.mach.WritesReg m rd v ∧
      v.toNat = (s.mach.rget rs1).toNat / 2 ^ imm7.toNat % 2 ^ imm6.toNat) ∧
    (Completes (.deposit qp rd rs1 imm7 imm6) s fun m => ∃ v, s.mach.WritesReg m rd v ∧
      ∀ i < s.W, v.getLsbD i =
        if imm7.toNat ≤ i ∧ i < imm7.toNat + imm6.toNat then (s.mach.rget rs1).getLsbD (i - imm7.toNat)
        else (s.mach.rget rd).getLsbD i)

/-! ### Parallel and logical ALU -/

/-- `padd`, `paddincr`, `psub` and `psubdecr` without saturation: at every position the sum or difference of the two
subwords, and one more or less, modulo `2^b`; `Rd` is written (R160, R161, R164, R165, R168). -/
def Obligations.ModularParallelResults : Prop :=
  ∀ (s : State) (qp : PredNum) (sw : Sw) (rd rs1 rs2 : Reg), s.mach.pget qp = true → sw.bits ≤ s.W →
    ∀ x y, x = s.mach.rget rs1 → y = s.mach.rget rs2 →
    Completes (.padd qp sw rd rs1 rs2) s (s.mach.WritesSubwords · rd sw.bits fun k r =>
      r.toNat = ((subword x sw.bits k).toNat + (subword y sw.bits k).toNat) % 2 ^ sw.bits) ∧
    Completes (.paddincr qp sw rd rs1 rs2) s (s.mach.WritesSubwords · rd sw.bits fun k r =>
      r.toNat = ((subword x sw.bits k).toNat + (subword y sw.bits k).toNat + 1) % 2 ^ sw.bits) ∧
    Completes (.psub qp sw rd rs1 rs2) s (s.mach.WritesSubwords · rd sw.bits fun k r =>
      (r.toNat : Int) =
        (((subword x sw.bits k).toNat : Int) - (subword y sw.bits k).toNat) % ((2 ^ sw.bits : Nat) : Int)) ∧
    Completes (.psubdecr qp sw rd rs1 rs2) s (s.mach.WritesSubwords · rd sw.bits fun k r =>
      (r.toNat : Int) =
        (((subword x sw.bits k).toNat : Int) - (subword y sw.bits k).toNat - 1) % ((2 ^ sw.bits : Nat) : Int))

/-- The saturating parallel add and subtract: unsigned operands clamped to `0 .. 2^b - 1`, signed operands clamped to
`-2^(b-1) .. 2^(b-1) - 1` (R12, R160, R162, R163, R166, R167; that both operands are unsigned in the `.u` forms is the
spec's decision D26, log entry 20). -/
def Obligations.SaturatingParallelResults : Prop :=
  ∀ (s : State) (qp : PredNum) (sw : Sw) (rd rs1 rs2 : Reg), s.mach.pget qp = true → sw.bits ≤ s.W →
    ∀ x y (top : Int), x = s.mach.rget rs1 → y = s.mach.rget rs2 → top = ((2 ^ (sw.bits - 1) : Nat) : Int) →
    Completes (.paddU qp sw rd rs1 rs2) s (s.mach.WritesSubwords · rd sw.bits fun k r =>
      r.toNat = min ((subword x sw.bits k).toNat + (subword y sw.bits k).toNat) (2 ^ sw.bits - 1)) ∧
    Completes (.psubU qp sw rd rs1 rs2) s (s.mach.WritesSubwords · rd sw.bits fun k r =>
      r.toNat = (subword x sw.bits k).toNat - (subword y sw.bits k).toNat) ∧
    Completes (.paddS qp sw rd rs1 rs2) s (s.mach.WritesSubwords · rd sw.bits fun k r =>
      r.toInt = min (max ((subword x sw.bits k).toInt + (subword y sw.bits k).toInt) (-top)) (top - 1)) ∧
    Completes (.psubS qp sw rd rs1 rs2) s (s.mach.WritesSubwords · rd sw.bits fun k r =>
      r.toInt = min (max ((subword x sw.bits k).toInt - (subword y sw.bits k).toInt) (-top)) (top - 1))

/-- `pavg.raz`: half the sum of the unsigned subwords, a half rounded up; and `pavg` under the default reading of `NUM`:
a half rounded to the odd neighbour, `(t >> 1) | (t & 1)` of the sum (R169, R170). Under the other reading `pavg` gives
the same but for its lowest bit, the or of bits 1 and 0 of the halved sum (D27, log entry 14). -/
def Obligations.AverageResults : Prop :=
  ∀ (s : State) (qp : PredNum) (sw : Sw) (rd rs1 rs2 : Reg), s.mach.pget qp = true → sw.bits ≤ s.W →
    (sw = .b1 ∨ sw = .b2) →
    ∀ sum : Nat → Nat,
      (∀ k, sum k = (subword (s.mach.rget rs1) sw.bits k).toNat + (subword (s.mach.rget rs2) sw.bits k).toNat) →
    Completes (.pavgRaz qp sw rd rs1 rs2) s (s.mach.WritesSubwords · rd sw.bits fun k r =>
      r.toNat = (sum k + 1) / 2) ∧
    Completes (.pavg qp sw rd rs1 rs2) s (s.mach.WritesSubwords · rd sw.bits fun k r =>
      r.toNat = if s.cfg.num.avgLow = .beforeShift then sum k / 2 ||| sum k % 2
        else sum k / 2 ||| sum k / 4 % 2)

/-- `psubavg` under the default reading of `NUM`: half the difference of the unsigned subwords as a signed number, a
half rounded to the odd neighbour (R171). Under the other reading of the top bit that bit is inverted; under the other
reading of the low bit it is the or of bits 1 and 0 of the halved difference (D27, log entry 14). -/
def Obligations.SubtractAverageResult : Prop :=
  ∀ (s : State) (qp : PredNum) (sw : Sw) (rd rs1 rs2 : Reg), s.mach.pget qp = true → sw.bits ≤ s.W →
    (sw = .b1 ∨ sw = .b2) →
    Completes (.psubavg qp sw rd rs1 rs2) s (s.mach.WritesSubwords · rd sw.bits fun k r =>
      ∀ (d : Int) (h : BitVec sw.bits),
        d = ((subword (s.mach.rget rs1) sw.bits k).toNat : Int) - (subword (s.mach.rget rs2) sw.bits k).toNat →
        h = BitVec.ofInt sw.bits (d / 2) →
        ∀ i < sw.bits, r.getLsbD i =
          if i = 0 then
            (if s.cfg.num.avgLow = .beforeShift then h.getLsbD 0 || decide (d % 2 = 1)
             else h.getLsbD 0 || h.getLsbD 1)
          else if i = sw.bits - 1 then (h.getLsbD i ^^ decide (s.cfg.num.subAvgTop = .carryOut))
          else h.getLsbD i)

/-- The logical instructions on whole registers; it is `Rs2` that `andcm` complements (R172 to R176). -/
def Obligations.LogicalResults : Prop :=
  ∀ (s : State) (qp : PredNum) (rd rs1 rs2 : Reg), s.mach.pget qp = true →
    ∀ x y, x = s.mach.rget rs1 → y = s.mach.rget rs2 →
    Completes (.andReg qp rd rs1 rs2) s (s.mach.WritesReg · rd (x &&& y)) ∧
    Completes (.andcm qp rd rs1 rs2) s (s.mach.WritesReg · rd (x &&& ~~~y)) ∧
    Completes (.orReg qp rd rs1 rs2) s (s.mach.WritesReg · rd (x ||| y)) ∧
    Completes (.xorReg qp rd rs1 rs2) s (s.mach.WritesReg · rd (x ^^^ y)) ∧
    Completes (.notReg qp rd rs1) s (s.mach.WritesReg · rd (~~~x))

/-- `pcmp`: a subword of all ones where the two subwords are equal, or where the first is greater as a signed number,
else of all zeros; no predicate is written (R160, R177, R178). -/
def Obligations.ParallelCompareResults : Prop :=
  ∀ (s : State) (qp : PredNum) (sw : Sw) (rd rs1 rs2 : Reg), s.mach.pget qp = true → sw.bits ≤ s.W →
    ∀ x y, x = s.mach.rget rs1 → y = s.mach.rget rs2 →
    Completes (.pcmpEq qp sw rd rs1 rs2) s (s.mach.WritesSubwords · rd sw.bits fun k r =>
      r.toNat = if subword x sw.bits k = subword y sw.bits k then 2 ^ sw.bits - 1 else 0) ∧
    Completes (.pcmpGt qp sw rd rs1 rs2) s (s.mach.WritesSubwords · rd sw.bits fun k r =>
      r.toNat = if (subword x sw.bits k).toInt > (subword y sw.bits k).toInt then 2 ^ sw.bits - 1 else 0)

/-- `pmax` and `pmin`: the greater and the lesser of the two signed subwords (R160, R179, R180). -/
def Obligations.MaximumMinimumResults : Prop :=
  ∀ (s : State) (qp : PredNum) (sw : Sw) (rd rs1 rs2 : Reg), s.mach.pget qp = true → (sw = .b1 ∨ sw = .b2) →
    ∀ x y, x = s.mach.rget rs1 → y = s.mach.rget rs2 →
    Completes (.pmax qp sw rd rs1 rs2) s (s.mach.WritesSubwords · rd sw.bits fun k r =>
      r.toInt = max (subword x sw.bits k).toInt (subword y sw.bits k).toInt) ∧
    Completes (.pmin qp sw rd rs1 rs2) s (s.mach.WritesSubwords · rd sw.bits fun k r =>
      r.toInt = min (subword x sw.bits k).toInt (subword y sw.bits k).toInt)

/-- `pshiftadd`: the signed halfword of `Rs1` times `2^sa`, or divided by it rounding down, plus that of `Rs2`, clamped
once to the signed range (R181, R182; D28). Under the other readings of `NUM` the left-shifted halfword is first cut to
16 bits, and the right shift is that of an unsigned number (D28, U11, log entry 14). -/
def Obligations.ShiftAndAddResults : Prop :=
  ∀ (s : State) (qp : PredNum) (sa : AddSa) (rd rs1 rs2 : Reg), s.mach.pget qp = true →
    ∀ x y, x = s.mach.rget rs1 → y = s.mach.rget rs2 →
    Completes (.pshiftaddL qp sa rd rs1 rs2) s (s.mach.WritesSubwords · rd 16 fun k r =>
      r.toInt = min (max ((if s.cfg.num.shiftAddLeft = .exact then (subword x 16 k).toInt * ((2 ^ sa.amount : Nat) : Int)
        else (BitVec.ofInt 16 ((subword x 16 k).toInt * ((2 ^ sa.amount : Nat) : Int))).toInt) +
          (subword y 16 k).toInt) (-32768)) 32767) ∧
    Completes (.pshiftaddR qp sa rd rs1 rs2) s (s.mach.WritesSubwords · rd 16 fun k r =>
      r.toInt = min (max ((if s.cfg.num.shiftAddRight = .arithmetic then (subword x 16 k).toInt
        else ((subword x 16 k).toNat : Int)) / ((2 ^ sa.amount : Nat) : Int) + (subword y 16 k).toInt) (-32768)) 32767)

/-! ### Multiply -/

/-- `pmul`: in every 32-bit word the exact signed or unsigned product of the two "odd indexed" halfwords, which are the
upper ones by default, or of the two "even indexed", in that word (R190 to R194; the parity and the placement are the
spec's decision D29, and the other parity is a reading of `NUM`). Under a reading of `NUM` that lists another placement,
word `j` of the result is the product from the source word that entry `j` names (D29, U18; how it is listed is the
model's, log entry 14). -/
def Obligations.MultiplyResults : Prop :=
  ∀ (s : State) (qp : PredNum) (rd rs1 rs2 : Reg), s.mach.pget qp = true →
    ∀ x y (odd even : Nat), x = s.mach.rget rs1 → y = s.mach.rget rs2 →
    odd = (if s.cfg.num.oddHalf = .upper then 1 else 0) → even = 1 - odd →
    ∀ lane : Nat → Nat, (DefaultArrangement (s.W / 32) s.cfg.num.mulPlace → ∀ j, lane j = j) →
    (∀ l, s.cfg.num.mulPlace = .listed l → l.Perm (List.range (s.W / 32)) → ∀ j < s.W / 32, l[j]? = some (lane j)) →
    Completes (.pmulOdd qp rd rs1 rs2) s (s.mach.WritesSubwords · rd 32 fun j r =>
      r.toInt = (subword x 16 (2 * lane j + odd)).toInt * (subword y 16 (2 * lane j + odd)).toInt) ∧
    Completes (.pmulOddU qp rd rs1 rs2) s (s.mach.WritesSubwords · rd 32 fun j r =>
      r.toNat = (subword x 16 (2 * lane j + odd)).toNat * (subword y 16 (2 * lane j + odd)).toNat) ∧
    Completes (.pmulEven qp rd rs1 rs2) s (s.mach.WritesSubwords · rd 32 fun j r =>
      r.toInt = (subword x 16 (2 * lane j + even)).toInt * (subword y 16 (2 * lane j + even)).toInt) ∧
    Completes (.pmulEvenU qp rd rs1 rs2) s (s.mach.WritesSubwords · rd 32 fun j r =>
      r.toNat = (subword x 16 (2 * lane j + even)).toNat * (subword y 16 (2 * lane j + even)).toNat)

/-- `pmulshr`: at every halfword position the low 16 bits of the unsigned product divided by `2^sa`, or of the signed
product divided by it rounding down (R195, R196; "lower halves" is the spec's reading, D29, log entry 20); under the other
reading of `NUM` the high 16 bits of the 32 (D29, log entry 14). With an amount of 0 the two give one next state where the
low bits are written (R196). -/
def Obligations.MultiplyShiftResults : Prop :=
  (∀ (s : State) (qp : PredNum) (rd rs1 rs2 : Reg), s.cfg.num.mulShiftHalf = .low →
    exec (.pmulshrA qp .sa0 rd rs1 rs2) s = exec (.pmulshr qp .sa0 rd rs1 rs2) s) ∧
  ∀ (s : State) (qp : PredNum) (sa : MulSa) (rd rs1 rs2 : Reg), s.mach.pget qp = true →
    ∀ x y (below : Nat), x = s.mach.rget rs1 → y = s.mach.rget rs2 →
    below = (if s.cfg.num.mulShiftHalf = .low then 0 else 16) →
    Completes (.pmulshr qp sa rd rs1 rs2) s (s.mach.WritesSubwords · rd 16 fun k r =>
      r.toNat = (subword x 16 k).toNat * (subword y 16 k).toNat / 2 ^ sa.amount / 2 ^ below % 2 ^ 16) ∧
    Completes (.pmulshrA qp sa rd rs1 rs2) s (s.mach.WritesSubwords · rd 16 fun k r =>
      r = BitVec.ofInt 16 ((subword x 16 k).toInt * (subword y 16 k).toInt / ((2 ^ sa.amount : Nat) : Int) /
        ((2 ^ below : Nat) : Int)))

/-! ### Parallel shift -/

/-- `pshift` and `pshifti`: every subword is shifted by one amount, the whole of `Rs2` or `imm5`, modulo the subword
width by default; under the other reading of `NUM` an amount at or above the width shifts everything out. Logical
shifts fill with zeros, arithmetic ones round down (R200 to R206; D30, log entry 14). -/
def Obligations.ParallelShiftResults : Prop :=
  ∀ (s : State) (qp : PredNum) (sw : Sw) (rd rs1 rs2 : Reg) (imm5 : BitVec 5), s.mach.pget qp = true →
    (sw = .b2 ∨ sw = .b4 ∨ sw = .b8) → sw.bits ≤ s.W →
    ∀ x (amount : Nat → Nat), x = s.mach.rget rs1 →
    (∀ n, amount n = if s.cfg.num.shiftAmount = .modulo then n % sw.bits else n) →
    (∀ n, n = amount (s.mach.rget rs2).toNat →
      Completes (.pshiftL qp sw rd rs1 rs2) s (s.mach.WritesSubwords · rd sw.bits fun k r =>
        r.toNat = (subword x sw.bits k).toNat * 2 ^ n % 2 ^ sw.bits) ∧
      Completes (.pshiftR qp sw rd rs1 rs2) s (s.mach.WritesSubwords · rd sw.bits fun k r =>
        r.toNat = (subword x sw.bits k).toNat / 2 ^ n) ∧
      Completes (.pshiftRa qp sw rd rs1 rs2) s (s.mach.WritesSubwords · rd sw.bits fun k r =>
        r.toInt = (subword x sw.bits k).toInt / ((2 ^ n : Nat) : Int))) ∧
    ∀ n, n = amount imm5.toNat →
      Completes (.pshiftiL qp sw rd rs1 imm5) s (s.mach.WritesSubwords · rd sw.bits fun k r =>
        r.toNat = (subword x sw.bits k).toNat * 2 ^ n % 2 ^ sw.bits) ∧
      Completes (.pshiftiR qp sw rd rs1 imm5) s (s.mach.WritesSubwords · rd sw.bits fun k r =>
        r.toNat = (subword x sw.bits k).toNat / 2 ^ n) ∧
      Completes (.pshiftiRa qp sw rd rs1 imm5) s (s.mach.WritesSubwords · rd sw.bits fun k r =>
        r.toInt = (subword x sw.bits k).toInt / ((2 ^ n : Nat) : Int))

/-! ### Subword permutation -/

/-- `mix`: the odd subwords, or the even ones, of the two sources alternately (R210 to R212; the numbering of subwords
is the spec's decision D25, log entry 20). -/
def Obligations.MixResults : Prop :=
  ∀ (s : State) (qp : PredNum) (sw : Sw) (rd rs1 rs2 : Reg), s.mach.pget qp = true →
    (sw = .b1 ∨ sw = .b2 ∨ sw = .b4) → 2 * sw.bits ≤ s.W →
    ∀ x y, x = s.mach.rget rs1 → y = s.mach.rget rs2 →
    Completes (.mixL qp sw rd rs1 rs2) s (s.mach.WritesSubwords · rd sw.bits fun k r =>
      ∀ j, (k = 2 * j + 1 → r = subword x sw.bits (2 * j + 1)) ∧ (k = 2 * j → r = subword y sw.bits (2 * j + 1))) ∧
    Completes (.mixR qp sw rd rs1 rs2) s (s.mach.WritesSubwords · rd sw.bits fun k r =>
      ∀ j, (k = 2 * j + 1 → r = subword x sw.bits (2 * j)) ∧ (k = 2 * j → r = subword y sw.bits (2 * j)))

/-- `mux.rev` and `mux.brcst`: the bytes in reverse order, and the least significant subword at every position; sizes
other than 1, and other than 1 and 2, are illegal, and the unused immediate must be zero (R80, R81, R213, R217). The
words of opcode 37 are the spec's own choice (D1 to D4), and so is that the unused immediate must be zero (D5, log entry
5); the names of the reasons, and which is named first where both hold, are the model's (log entry 25). -/
def Obligations.ReverseBroadcastResults : Prop :=
  (∀ (wd : Width) (qp : PredNum) (rd rs1 : Reg) (sw : Sw) (f : Fin 32),
    (decode wd (enc4 0x37 qp rd rs1 f sw.code 0) =
      if f ≠ 0 then .error .nonzeroField
      else if sw = .b1 then .ok (.muxRev qp sw rd rs1) else .error (.illFormed .sizeNotOffered)) ∧
    (decode wd (enc4 0x37 qp rd rs1 f sw.code 4) =
      if f ≠ 0 then .error .nonzeroField
      else if sw = .b1 ∨ sw = .b2 then .ok (.muxBrcst qp sw rd rs1) else .error (.illFormed .sizeNotOffered))) ∧
  ∀ (s : State) (qp : PredNum) (rd rs1 : Reg), s.mach.pget qp = true →
    ∀ x, x = s.mach.rget rs1 →
    Completes (.muxRev qp .b1 rd rs1) s (s.mach.WritesSubwords · rd 8 fun k r =>
      r = subword x 8 (s.W / 8 - 1 - k)) ∧
    ∀ sw : Sw, (sw = .b1 ∨ sw = .b2) →
      Completes (.muxBrcst qp sw rd rs1) s (s.mach.WritesSubwords · rd sw.bits fun _ r => r = subword x sw.bits 0)

/-- `mux.mix`, `mux.shuf` and `mux.alt` on the bytes of a register, `h` bytes a half: the mix left of the two halves
above their mix right; the two halves interleaved, the left half's byte first; the odd bytes above the even ones (R214
to R216; the three permutations are the spec's decision D31, from general knowledge, log entry 20). Under a reading of
`NUM` that lists another permutation of the byte numbers, byte `k` of the result is the source byte that entry `k` names
(R7, D31; how it is listed is the model's, log entry 14). -/
def Obligations.MuxPermutationResults : Prop :=
  ∀ (s : State) (qp : PredNum) (rd rs1 : Reg), s.mach.pget qp = true →
    ∀ (x : BitVec s.W) (h : Nat), x = s.mach.rget rs1 → h = s.W / 8 / 2 →
    ((DefaultArrangement (s.W / 8) s.cfg.num.muxMix →
      Completes (.muxMix qp .b1 rd rs1) s (s.mach.WritesSubwords · rd 8 fun k r =>
        ∀ j, 2 * j < h →
          (k = h + 2 * j + 1 → r = subword x 8 (h + 2 * j + 1)) ∧ (k = h + 2 * j → r = subword x 8 (2 * j + 1)) ∧
          (k = 2 * j + 1 → r = subword x 8 (h + 2 * j)) ∧ (k = 2 * j → r = subword x 8 (2 * j)))) ∧
    (DefaultArrangement (s.W / 8) s.cfg.num.muxShuf →
      Completes (.muxShuf qp .b1 rd rs1) s (s.mach.WritesSubwords · rd 8 fun k r =>
        ∀ i < h, (k = 2 * i + 1 → r = subword x 8 (h + i)) ∧ (k = 2 * i → r = subword x 8 i))) ∧
    (DefaultArrangement (s.W / 8) s.cfg.num.muxAlt →
      Completes (.muxAlt qp .b1 rd rs1) s (s.mach.WritesSubwords · rd 8 fun k r =>
        ∀ i < h, (k = h + i → r = subword x 8 (2 * i + 1)) ∧ (k = i → r = subword x 8 (2 * i))))) ∧
    ∀ l : List Nat, l.Perm (List.range (s.W / 8)) →
      (s.cfg.num.muxMix = .listed l → Completes (.muxMix qp .b1 rd rs1) s (s.mach.WritesSubwords · rd 8 fun k r =>
        ∀ j, l[k]? = some j → r = subword x 8 j)) ∧
      (s.cfg.num.muxShuf = .listed l → Completes (.muxShuf qp .b1 rd rs1) s (s.mach.WritesSubwords · rd 8 fun k r =>
        ∀ j, l[k]? = some j → r = subword x 8 j)) ∧
      (s.cfg.num.muxAlt = .listed l → Completes (.muxAlt qp .b1 rd rs1) s (s.mach.WritesSubwords · rd 8 fun k r =>
        ∀ j, l[k]? = some j → r = subword x 8 j))

/-- `perm`: destination halfword `j` is the source halfword that selector `j` of `Rs2` names, selectors being the
consecutive fields of 1, 2 or 3 bits (for `W` 32, 64, 128) from bit 0 up, the rest of `Rs2` ignored; under the other
readings of `NUM` destinations, or sources, or both, are counted from the most significant end (R218; D32, log entry
14). -/
def Obligations.PermuteResult : Prop :=
  ∀ (s : State) (qp : PredNum) (rd rs1 rs2 : Reg), s.mach.pget qp = true →
    ∀ (x : BitVec s.W) (n g : Nat) (sel : Nat → Nat), x = s.mach.rget rs1 → n = s.W / 16 → n = 2 ^ g →
    (∀ j, sel j = (s.mach.rget rs2).toNat / 2 ^ (j * g) % 2 ^ g) →
    Completes (.perm qp rd rs1 rs2) s (s.mach.WritesSubwords · rd 16 fun k r =>
      ∀ j i, j = (if s.cfg.num.permDest = .fromLow then k else n - 1 - k) →
        i = (if s.cfg.num.permSource = .fromLow then sel j else n - 1 - sel j) → r = subword x 16 i)

/-- `mux.alt` undoes `mux.shuf` under the default permutations, and `mux.rev` undoes itself: the two executed in a row
leave the original value (R213, R216; the permutations of `alt` and `shuf` are the spec's decision D31, log entries 14
and 20). -/
def Obligations.MuxInverses : Prop :=
  ∀ (s : State) (qp : PredNum) (rd rd' rs1 : Reg), s.mach.pget qp = true → rd ≠ 0 → rd' ≠ 0 →
    (DefaultArrangement (s.W / 8) s.cfg.num.muxShuf → DefaultArrangement (s.W / 8) s.cfg.num.muxAlt →
      Completes (.muxShuf qp .b1 rd rs1) s fun m =>
      Completes (.muxAlt qp .b1 rd' rd) (s.withMach m) fun m' => m'.rget rd' = s.mach.rget rs1) ∧
    (Completes (.muxRev qp .b1 rd rs1) s fun m =>
      Completes (.muxRev qp .b1 rd' rd) (s.withMach m) fun m' => m'.rget rd' = s.mach.rget rs1)

end
end

