-- ==== Sys2Proof/Laws/Encoding.lean ====
section
/-! SUPPORT. The fields of an encoded word, once for every format, the words as sums of their fields, and what each part
of the decoder accepts. -/

namespace Sys2Proof

/-- A field of a word, as a number. -/
theorem toNat_field (w : BitVec 32) (lo len : Nat) : (w.extractLsb' lo len).toNat = w.toNat / 2 ^ lo % 2 ^ len := by
  simp [Nat.shiftRight_eq_div_pow]

/-- The number of an encoded word (R61). -/
theorem toNat_encHead {op rest : Nat} (qp : PredNum) (hop : op < 64) (hrest : rest < 2 ^ 23) :
    (encHead op qp rest).toNat = op * 2 ^ 26 + qp.val * 2 ^ 23 + rest := by
  rw [encHead, BitVec.toNat_ofNat]; omega

/-- The opcode field of an encoded word (R61). -/
theorem opOf_encHead {op rest : Nat} (qp : PredNum) (hop : op < 64) (hrest : rest < 2 ^ 23) :
    opOf (encHead op qp rest) = op := by
  rw [opOf, toNat_field, toNat_encHead qp hop hrest]; omega

/-- The predicate field of an encoded word (R61). -/
theorem qpOf_encHead {op rest : Nat} (qp : PredNum) (hop : op < 64) (hrest : rest < 2 ^ 23) :
    qpOf (encHead op qp rest) = qp := by
  apply Fin.ext
  change (BitVec.extractLsb' 23 3 (encHead op qp rest)).toNat = qp.val
  rw [toNat_field, toNat_encHead qp hop hrest]; omega

/-- Any field below the head of an encoded word is a field of its low part. -/
theorem field_encHead {op rest lo len : Nat} (qp : PredNum) (hop : op < 64) (hrest : rest < 2 ^ 23)
    (hlo : lo + len ≤ 23) :
    ((encHead op qp rest).extractLsb' lo len).toNat = rest / 2 ^ lo % 2 ^ len := by
  rw [toNat_field, toNat_encHead qp hop hrest]
  have h23 : 2 ^ 23 = 2 ^ lo * (2 ^ len * 2 ^ (23 - lo - len)) := by
    rw [← pow_add, ← pow_add]; congr 1; omega
  have hsum : op * 2 ^ 26 + qp.val * 2 ^ 23 + rest =
      rest + 2 ^ lo * (2 ^ len * (2 ^ (23 - lo - len) * (op * 8 + qp.val))) := by
    have : op * 2 ^ 26 + qp.val * 2 ^ 23 = 2 ^ 23 * (op * 8 + qp.val) := by ring
    rw [this, h23]; ring
  rw [hsum, Nat.add_mul_div_left _ _ (Nat.two_pow_pos lo), Nat.add_mul_mod_self_left]

/-- Every word is its opcode, its predicate and its low 23 bits (R61). -/
theorem eq_encHead (w : BitVec 32) : encHead (opOf w) (qpOf w) (w.toNat % 2 ^ 23) = w := by
  apply BitVec.eq_of_toNat_eq
  have hw := w.isLt
  have hq : (qpOf w).val = w.toNat / 2 ^ 23 % 2 ^ 3 := toNat_field w 23 3
  have ho : opOf w = w.toNat / 2 ^ 26 % 2 ^ 6 := toNat_field w 26 6
  rw [toNat_encHead _ (by omega) (by omega)]; omega

/-- Four bytes of a word make the word again (R45). -/
theorem wordOfBytes_bytes (w : BitVec 32) :
    wordOfBytes (byteOfWord w 0) (byteOfWord w 1) (byteOfWord w 2) (byteOfWord w 3) = w := by
  apply BitVec.eq_of_toNat_eq
  have hw := w.isLt
  simp only [wordOfBytes, byteOfWord, toNat_field, BitVec.toNat_ofNat]
  omega

/-- Decoding the bytes of a word decodes the word, and leaves the bytes after it. -/
theorem decodeBytes_bytesOfWord (wd : Width) (w : BitVec 32) (rest : List Byte) (i : Instr)
    (h : decode wd w = .ok i) : decodeBytes wd (bytesOfWord w ++ rest) = .ok (i, rest) := by
  simp only [bytesOfWord, List.cons_append, List.nil_append, decodeBytes, wordOfBytes_bytes, h]

/-- What the checks of R81 and R82 let through: the terms that are legal for the width. -/
theorem ifLegal_eq_ok {wd : Width} {d : Decoded} {i : Instr} :
    ifLegal wd d = .ok i ↔ d = .ok i ∧ WellFormed wd i := by
  cases d with
  | error e => simp [ifLegal]
  | ok j =>
    cases hc : check wd j with
    | some r =>
      simp only [ifLegal, hc, reduceCtorEq, Except.ok.injEq, false_iff, not_and]
      rintro rfl h
      exact absurd (h.symm.trans hc) (by simp)
    | none =>
      simp only [ifLegal, hc, Except.ok.injEq]
      exact ⟨fun h => ⟨h, h ▸ hc⟩, fun h => h.1⟩

/-- A term that is not legal for the width is an illegal word, for the reason the check names (R81, R82). -/
theorem ifLegal_illFormed {wd : Width} {i : Instr} (h : ¬WellFormed wd i) :
    ∃ r, ifLegal wd (.ok i) = .error (.illFormed r) := by
  cases hc : check wd i with
  | none => exact absurd hc h
  | some r => exact ⟨r, by simp [ifLegal, hc]⟩

/-- A word decodes to `i` exactly when the opcode map gives `i` and `i` is legal for the width (R77). -/
theorem decode_eq_ok {wd : Width} {w : BitVec 32} {i : Instr} :
    decode wd w = .ok i ↔ decodeWord w = .ok i ∧ WellFormed wd i := ifLegal_eq_ok

/-- A word that the `ENC` of the machine does not list is decoded by the default encoding (R7). -/
theorem decodeUnder_unlisted {cfg : Config} {w : BitVec 32} (h : ∀ e ∈ cfg.enc, e.word ≠ w) :
    decodeUnder cfg w = decode cfg.width w := by
  have hf : cfg.enc.find? (fun e => e.word == w) = none := List.find?_eq_none.mpr (by simpa using h)
  simp only [decodeUnder, decodeWordUnder, hf, decode]

/-- A word that the `ENC` of the machine lists is the term of its first entry, if that is legal for the width (R7). -/
theorem decodeUnder_listed {cfg : Config} {before after : List EncEntry} {e : EncEntry}
    (henc : cfg.enc = before ++ e :: after) (h : ∀ e' ∈ before, e'.word ≠ e.word) :
    decodeUnder cfg e.word = ifLegal cfg.width (match e.term with | none => .error .notInEnc | some i => .ok i) := by
  have hf : cfg.enc.find? (fun e' => e'.word == e.word) = some e := by
    rw [henc, List.find?_append, List.find?_eq_none.mpr (by simpa using h)]
    simp
  cases ht : e.term <;> simp only [decodeUnder, decodeWordUnder, hf, ht]

/-- The code of a size is read back as the size (R73). -/
theorem Sw.ofCode_code (sw : Sw) (c : BitVec 2) (h : c.toNat = sw.code) : Sw.ofCode c = sw := by
  cases sw <;> simp [Sw.ofCode, h, Sw.code]

/-- The code of a `pmulshr` amount is read back as the amount (R74). -/
theorem MulSa.ofCode_code (sa : MulSa) (c : BitVec 2) (h : c.toNat = sa.code) : MulSa.ofCode c = sa := by
  cases sa <;> simp [MulSa.ofCode, h, MulSa.code]

/-- The code of a `pshiftadd` amount is read back as the amount (R74). -/
theorem AddSa.ofCode_code (sa : AddSa) (c : BitVec 2) (h : c.toNat = sa.code) : AddSa.ofCode? c = some sa := by
  cases sa <;> simp [AddSa.ofCode?, h, AddSa.code]

/-- The code of a relation is read back as the relation (R74). -/
theorem Rel.ofCode_code (rel : Rel) (c : BitVec 4) (h : c.toNat = rel.code) : Rel.ofCode? c = some rel := by
  cases rel <;> simp [Rel.ofCode?, h, Rel.code]

/-- A size read from a field has that field as its code (R73). -/
theorem Sw.code_ofCode (c : BitVec 2) : (Sw.ofCode c).code = c.toNat := by
  revert c; decide

/-- An amount read from a field has that field as its code (R74). -/
theorem MulSa.code_ofCode (c : BitVec 2) : (MulSa.ofCode c).code = c.toNat := by
  revert c; decide

/-- An amount read from a field has that field as its code (R74). -/
theorem AddSa.code_ofCode {c : BitVec 2} {sa : AddSa} (h : AddSa.ofCode? c = some sa) : sa.code = c.toNat := by
  revert c sa; decide

/-- A relation read from a field has that field as its code (R74). -/
theorem Rel.code_ofCode {c : BitVec 4} {rel : Rel} (h : Rel.ofCode? c = some rel) : rel.code = c.toNat := by
  have : ∀ c : BitVec 4, (Rel.ofCode? c).all (fun r => r.code == c.toNat) = true := by decide
  have := this c
  rw [h] at this
  simpa using this

/-- The fields of a format 0 word (R62). -/
theorem fields_enc0 {op : Nat} (qp : PredNum) (imm23 : BitVec 23) (hop : op < 64) :
    opOf (enc0 op qp imm23) = op ∧ qpOf (enc0 op qp imm23) = qp ∧ (enc0 op qp imm23).extractLsb' 0 23 = imm23 := by
  have h := imm23.isLt
  refine ⟨opOf_encHead qp hop h, qpOf_encHead qp hop h, BitVec.eq_of_toNat_eq ?_⟩
  rw [enc0, field_encHead qp hop h (by omega)]; omega

/-- The fields of a format 1 word (R63). -/
theorem fields_enc1 {op : Nat} (qp : PredNum) (rd : Reg) (s2 : Fin 4) (imm16 : BitVec 16) (hop : op < 64) :
    opOf (enc1 op qp rd s2 imm16) = op ∧ qpOf (enc1 op qp rd s2 imm16) = qp ∧ rdOf (enc1 op qp rd s2 imm16) = rd ∧
      posAt (enc1 op qp rd s2 imm16) = s2 ∧ ((enc1 op qp rd s2 imm16).extractLsb' 16 2).toNat = s2.val ∧
      (enc1 op qp rd s2 imm16).extractLsb' 0 16 = imm16 := by
  have h : rd.val * 2 ^ 18 + s2.val * 2 ^ 16 + imm16.toNat < 2 ^ 23 := by omega
  have f : ∀ lo len, lo + len ≤ 23 → _ := fun lo len => field_encHead (lo := lo) (len := len) qp hop h
  refine ⟨opOf_encHead qp hop h, qpOf_encHead qp hop h, Fin.ext ?_, Fin.ext ?_, ?_, BitVec.eq_of_toNat_eq ?_⟩
  · exact (f 18 5 (by omega)).trans (by omega)
  · exact (f 16 2 (by omega)).trans (by omega)
  · exact (f 16 2 (by omega)).trans (by omega)
  · exact (f 0 16 (by omega)).trans (by omega)

/-- The fields of a format 2 word (R64). -/
theorem fields_enc2 {op : Nat} (qp : PredNum) (rd rs1 : Reg) (imm13 : BitVec 13) (hop : op < 64) :
    opOf (enc2 op qp rd rs1 imm13) = op ∧ qpOf (enc2 op qp rd rs1 imm13) = qp ∧
      rdOf (enc2 op qp rd rs1 imm13) = rd ∧ rs1Of (enc2 op qp rd rs1 imm13) = rs1 ∧
      imm13Of (enc2 op qp rd rs1 imm13) = imm13 := by
  have h : rd.val * 2 ^ 18 + rs1.val * 2 ^ 13 + imm13.toNat < 2 ^ 23 := by omega
  have f : ∀ lo len, lo + len ≤ 23 → _ := fun lo len => field_encHead (lo := lo) (len := len) qp hop h
  refine ⟨opOf_encHead qp hop h, qpOf_encHead qp hop h, Fin.ext ?_, Fin.ext ?_, BitVec.eq_of_toNat_eq ?_⟩
  · exact (f 18 5 (by omega)).trans (by omega)
  · exact (f 13 5 (by omega)).trans (by omega)
  · exact (f 0 13 (by omega)).trans (by omega)

/-- The fields of a format 3 word of the immediate layout (R65). -/
theorem fields_enc3 {op : Nat} (qp : PredNum) (rd rs1 : Reg) (imm7 : BitVec 7) (imm6 : BitVec 6) (hop : op < 64) :
    opOf (enc3 op qp rd rs1 imm7 imm6) = op ∧ qpOf (enc3 op qp rd rs1 imm7 imm6) = qp ∧
      rdOf (enc3 op qp rd rs1 imm7 imm6) = rd ∧ rs1Of (enc3 op qp rd rs1 imm7 imm6) = rs1 ∧
      (enc3 op qp rd rs1 imm7 imm6).extractLsb' 6 7 = imm7 ∧ (enc3 op qp rd rs1 imm7 imm6).extractLsb' 0 6 = imm6 := by
  have h : rd.val * 2 ^ 18 + rs1.val * 2 ^ 13 + imm7.toNat * 2 ^ 6 + imm6.toNat < 2 ^ 23 := by omega
  have f : ∀ lo len, lo + len ≤ 23 → _ := fun lo len => field_encHead (lo := lo) (len := len) qp hop h
  refine ⟨opOf_encHead qp hop h, qpOf_encHead qp hop h, Fin.ext ?_, Fin.ext ?_, BitVec.eq_of_toNat_eq ?_,
    BitVec.eq_of_toNat_eq ?_⟩
  · exact (f 18 5 (by omega)).trans (by omega)
  · exact (f 13 5 (by omega)).trans (by omega)
  · exact (f 6 7 (by omega)).trans (by omega)
  · exact (f 0 6 (by omega)).trans (by omega)

/-- The fields of a format 4a or 4b word (R65 to R67). -/
theorem fields_enc4 {op szc fn : Nat} (qp : PredNum) (rd rs1 : Reg) (f5 : Fin 32) (hop : op < 64) (hsz : szc < 4)
    (hfn : fn < 64) :
    opOf (enc4 op qp rd rs1 f5 szc fn) = op ∧ qpOf (enc4 op qp rd rs1 f5 szc fn) = qp ∧
      rdOf (enc4 op qp rd rs1 f5 szc fn) = rd ∧ rs1Of (enc4 op qp rd rs1 f5 szc fn) = rs1 ∧
      rs2Of (enc4 op qp rd rs1 f5 szc fn) = f5 ∧ ((enc4 op qp rd rs1 f5 szc fn).extractLsb' 8 5).toNat = f5.val ∧
      (szcOf (enc4 op qp rd rs1 f5 szc fn)).toNat = szc ∧ fnOf (enc4 op qp rd rs1 f5 szc fn) = fn ∧
      ((enc4 op qp rd rs1 f5 szc fn).extractLsb' 0 8).toNat = szc * 2 ^ 6 + fn ∧
      ((enc4 op qp rd rs1 f5 szc fn).extractLsb' 0 13).toNat = f5.val * 2 ^ 8 + szc * 2 ^ 6 + fn := by
  have h : rd.val * 2 ^ 18 + rs1.val * 2 ^ 13 + f5.val * 2 ^ 8 + szc * 2 ^ 6 + fn < 2 ^ 23 := by omega
  have f : ∀ lo len, lo + len ≤ 23 → _ := fun lo len => field_encHead (lo := lo) (len := len) qp hop h
  refine ⟨opOf_encHead qp hop h, qpOf_encHead qp hop h, Fin.ext ?_, Fin.ext ?_, Fin.ext ?_, ?_, ?_, ?_, ?_, ?_⟩
  · exact (f 18 5 (by omega)).trans (by omega)
  · exact (f 13 5 (by omega)).trans (by omega)
  · exact (f 8 5 (by omega)).trans (by omega)
  · exact (f 8 5 (by omega)).trans (by omega)
  · exact (f 6 2 (by omega)).trans (by omega)
  · exact (f 0 6 (by omega)).trans (by omega)
  · exact (f 0 8 (by omega)).trans (by omega)
  · exact (f 0 13 (by omega)).trans (by omega)

/-- The fields of a format 4c word (R68). -/
theorem fields_enc4c {op : Nat} (qp : PredNum) (rd rs1 rs2 : Reg) (imm8 : BitVec 8) (hop : op < 64) :
    opOf (enc4c op qp rd rs1 rs2 imm8) = op ∧ qpOf (enc4c op qp rd rs1 rs2 imm8) = qp ∧
      rdOf (enc4c op qp rd rs1 rs2 imm8) = rd ∧ rs1Of (enc4c op qp rd rs1 rs2 imm8) = rs1 ∧
      rs2Of (enc4c op qp rd rs1 rs2 imm8) = rs2 ∧ (enc4c op qp rd rs1 rs2 imm8).extractLsb' 0 8 = imm8 := by
  have h : rd.val * 2 ^ 18 + rs1.val * 2 ^ 13 + rs2.val * 2 ^ 8 + imm8.toNat < 2 ^ 23 := by omega
  have f : ∀ lo len, lo + len ≤ 23 → _ := fun lo len => field_encHead (lo := lo) (len := len) qp hop h
  refine ⟨opOf_encHead qp hop h, qpOf_encHead qp hop h, Fin.ext ?_, Fin.ext ?_, Fin.ext ?_, BitVec.eq_of_toNat_eq ?_⟩
  · exact (f 18 5 (by omega)).trans (by omega)
  · exact (f 13 5 (by omega)).trans (by omega)
  · exact (f 8 5 (by omega)).trans (by omega)
  · exact (f 0 8 (by omega)).trans (by omega)

/-- A relation code fits its four bits (R74). -/
theorem Rel.code_lt (rel : Rel) : rel.code < 16 := by cases rel <;> decide

/-- The fields of a format 5a word (R69). -/
theorem fields_enc5a {op pw : Nat} (qp : PredNum) (rs1 rs2 : Reg) (rel : Rel) (pd1 pd2 : PredNum) (hop : op < 64)
    (hpw : pw < 4) :
    opOf (enc5a op qp rs1 rs2 rel pw pd1 pd2) = op ∧ qpOf (enc5a op qp rs1 rs2 rel pw pd1 pd2) = qp ∧
      rdOf (enc5a op qp rs1 rs2 rel pw pd1 pd2) = rs1 ∧ rs1Of (enc5a op qp rs1 rs2 rel pw pd1 pd2) = rs2 ∧
      ((enc5a op qp rs1 rs2 rel pw pd1 pd2).extractLsb' 9 4).toNat = rel.code ∧
      ((enc5a op qp rs1 rs2 rel pw pd1 pd2).extractLsb' 7 2).toNat = pw ∧
      (enc5a op qp rs1 rs2 rel pw pd1 pd2).extractLsb' 6 1 = 0 ∧
      predAt (enc5a op qp rs1 rs2 rel pw pd1 pd2) 3 = pd1 ∧ predAt (enc5a op qp rs1 rs2 rel pw pd1 pd2) 0 = pd2 := by
  have hr := rel.code_lt
  have h : rs1.val * 2 ^ 18 + rs2.val * 2 ^ 13 + rel.code * 2 ^ 9 + pw * 2 ^ 7 + pd1.val * 2 ^ 3 + pd2.val < 2 ^ 23 := by
    omega
  have f : ∀ lo len, lo + len ≤ 23 → _ := fun lo len => field_encHead (lo := lo) (len := len) qp hop h
  refine ⟨opOf_encHead qp hop h, qpOf_encHead qp hop h, Fin.ext ?_, Fin.ext ?_, ?_, ?_, BitVec.eq_of_toNat_eq ?_,
    Fin.ext ?_, Fin.ext ?_⟩
  · exact (f 18 5 (by omega)).trans (by omega)
  · exact (f 13 5 (by omega)).trans (by omega)
  · exact (f 9 4 (by omega)).trans (by omega)
  · exact (f 7 2 (by omega)).trans (by omega)
  · exact (f 6 1 (by omega)).trans (show _ = 0 by omega)
  · exact (f 3 3 (by omega)).trans (by omega)
  · exact (f 0 3 (by omega)).trans (by omega)

/-- The fields of a format 5b word of the compare layout (R70). -/
theorem fields_enc5b {op rel : Nat} (qp : PredNum) (rs1 : Reg) (imm8 : BitVec 8) (pd1 pd2 : PredNum) (hop : op < 64)
    (hrel : rel < 16) :
    opOf (enc5b op qp rs1 imm8 rel pd1 pd2) = op ∧ qpOf (enc5b op qp rs1 imm8 rel pd1 pd2) = qp ∧
      rdOf (enc5b op qp rs1 imm8 rel pd1 pd2) = rs1 ∧
      (enc5b op qp rs1 imm8 rel pd1 pd2).extractLsb' 10 8 = imm8 ∧
      ((enc5b op qp rs1 imm8 rel pd1 pd2).extractLsb' 6 4).toNat = rel ∧
      predAt (enc5b op qp rs1 imm8 rel pd1 pd2) 3 = pd1 ∧ predAt (enc5b op qp rs1 imm8 rel pd1 pd2) 0 = pd2 := by
  have h : rs1.val * 2 ^ 18 + imm8.toNat * 2 ^ 10 + rel * 2 ^ 6 + pd1.val * 2 ^ 3 + pd2.val < 2 ^ 23 := by omega
  have f : ∀ lo len, lo + len ≤ 23 → _ := fun lo len => field_encHead (lo := lo) (len := len) qp hop h
  refine ⟨opOf_encHead qp hop h, qpOf_encHead qp hop h, Fin.ext ?_, BitVec.eq_of_toNat_eq ?_, ?_, Fin.ext ?_,
    Fin.ext ?_⟩
  · exact (f 18 5 (by omega)).trans (by omega)
  · exact (f 10 8 (by omega)).trans (by omega)
  · exact (f 6 4 (by omega)).trans (by omega)
  · exact (f 3 3 (by omega)).trans (by omega)
  · exact (f 0 3 (by omega)).trans (by omega)

/-- The fields of a format 5b word of the predicate-set layout (R70). -/
theorem fields_enc5p {op fn4 : Nat} (qp : PredNum) (imm4 : SetNum) (imm8 : BitVec 8) (hop : op < 64) (hfn : fn4 < 16) :
    opOf (enc5p op qp imm4 imm8 fn4) = op ∧ qpOf (enc5p op qp imm4 imm8 fn4) = qp ∧
      setAt (enc5p op qp imm4 imm8 fn4) = imm4 ∧ (enc5p op qp imm4 imm8 fn4).extractLsb' 10 8 = imm8 ∧
      ((enc5p op qp imm4 imm8 fn4).extractLsb' 6 4).toNat = fn4 ∧
      (enc5p op qp imm4 imm8 fn4).extractLsb' 22 1 = 0 ∧ (enc5p op qp imm4 imm8 fn4).extractLsb' 0 6 = 0 := by
  have h : imm4.val * 2 ^ 18 + imm8.toNat * 2 ^ 10 + fn4 * 2 ^ 6 < 2 ^ 23 := by omega
  have f : ∀ lo len, lo + len ≤ 23 → _ := fun lo len => field_encHead (lo := lo) (len := len) qp hop h
  refine ⟨opOf_encHead qp hop h, qpOf_encHead qp hop h, Fin.ext ?_, BitVec.eq_of_toNat_eq ?_, ?_,
    BitVec.eq_of_toNat_eq ?_, BitVec.eq_of_toNat_eq ?_⟩
  · exact (f 18 4 (by omega)).trans (by omega)
  · exact (f 10 8 (by omega)).trans (by omega)
  · exact (f 6 4 (by omega)).trans (by omega)
  · exact (f 22 1 (by omega)).trans (show _ = 0 by omega)
  · exact (f 0 6 (by omega)).trans (show _ = 0 by omega)

/-- When a field that must be zero is accepted (R80). -/
theorem requireZero_eq_ok {n : Nat} {field : BitVec n} {i j : Instr} :
    requireZero field i = .ok j ↔ field = 0 ∧ i = j := by
  unfold requireZero
  split
  · rename_i h; simp [h]
  · rename_i h
    exact ⟨fun hh => (by cases hh), fun hh => absurd hh.1 h⟩

/-- What an opcode with a `fn` field decodes to: the arm that `fn` numbers, if there is one (R76, R79). -/
theorem byFn_eq_ok {arms : List (BitVec 32 → Decoded)} {w : BitVec 32} {i : Instr} :
    byFn arms w = .ok i ↔ ∃ arm, arms[fnOf w]? = some arm ∧ arm w = .ok i := by
  unfold byFn
  split
  · rename_i arm h; rw [h]; simp
  · rename_i h; rw [h]; simp

/-- What a `pshiftadd` word decodes to (R74). -/
theorem shiftAdd3_eq_ok {mk : PredNum → AddSa → Reg → Reg → Reg → Instr} {w : BitVec 32} {i : Instr} :
    shiftAdd3 mk w = .ok i ↔
      ∃ sa, AddSa.ofCode? (szcOf w) = some sa ∧ mk (qpOf w) sa (rdOf w) (rs1Of w) (rs2Of w) = i := by
  unfold shiftAdd3
  split
  · rename_i h; rw [h]; simp
  · rename_i sa h; rw [h]; simp

/-- What a word of opcode 03 decodes to (R63). -/
theorem decodeJmpReg_eq_ok {w : BitVec 32} {i : Instr} :
    decodeJmpReg w = .ok i ↔ w.extractLsb' 0 16 = 0 ∧
      (((w.extractLsb' 16 2).toNat = 0 ∧ .jmpReg (qpOf w) (rdOf w) = i) ∨
        ((w.extractLsb' 16 2).toNat = 1 ∧ .jmpRegLink (qpOf w) (rdOf w) = i)) := by
  unfold decodeJmpReg
  generalize (w.extractLsb' 16 2).toNat = k
  split
  · rw [requireZero_eq_ok]; simp
  · rw [requireZero_eq_ok]; simp
  · rename_i h0 h1
    exact ⟨fun h => (by cases h), fun h => (h.2.elim (fun h => absurd h.1 h0) fun h => absurd h.1 h1)⟩

/-- What a word of opcode 05 decodes to (R70). -/
theorem decodeChangepr_eq_ok {w : BitVec 32} {i : Instr} :
    decodeChangepr w = .ok i ↔ w.extractLsb' 22 1 = 0 ∧ w.extractLsb' 0 6 = 0 ∧
      (((w.extractLsb' 6 4).toNat = 0 ∧ w.extractLsb' 10 8 = 0 ∧ .changepr (qpOf w) (setAt w) = i) ∨
        ((w.extractLsb' 6 4).toNat = 1 ∧ .changeprLd (qpOf w) (setAt w) (w.extractLsb' 10 8) = i)) := by
  unfold decodeChangepr
  generalize (w.extractLsb' 6 4).toNat = k
  split
  · split
    · rename_i h; rw [requireZero_eq_ok]; simp [h]
    · rename_i h
      exact ⟨fun hh => (by cases hh), fun hh => absurd ⟨hh.1, hh.2.1⟩ h⟩
  · split
    · rename_i h; rw [requireZero_eq_ok]; simp [h]
    · rename_i h
      exact ⟨fun hh => (by cases hh), fun hh => absurd hh.1 h⟩
  · rename_i h0 h1
    exact ⟨fun h => (by cases h), fun h => (h.2.2.elim (fun h => absurd h.1 h0) fun h => absurd h.1 h1)⟩

/-- What a word of opcode 06 decodes to (R69). -/
theorem decodeCmp_eq_ok {w : BitVec 32} {i : Instr} :
    decodeCmp w = .ok i ↔ w.extractLsb' 6 1 = 0 ∧ ∃ rel, Rel.ofCode? (w.extractLsb' 9 4) = some rel ∧
      (((w.extractLsb' 7 2).toNat = 0 ∧ .cmp (qpOf w) rel (rdOf w) (rs1Of w) (predAt w 3) (predAt w 0) = i) ∨
        ((w.extractLsb' 7 2).toNat = 1 ∧ .cmpPw0 (qpOf w) rel (rdOf w) (rs1Of w) (predAt w 3) (predAt w 0) = i) ∨
        ((w.extractLsb' 7 2).toNat = 2 ∧ .cmpPw1 (qpOf w) rel (rdOf w) (rs1Of w) (predAt w 3) (predAt w 0) = i)) := by
  unfold decodeCmp
  generalize (w.extractLsb' 7 2).toNat = k
  split
  · rename_i h; rw [h]; simp
  · rename_i rel h
    rw [h]
    split <;> try (rw [requireZero_eq_ok]; simp)
    rename_i h0 h1 h2
    constructor
    · intro hh; cases hh
    · rintro ⟨-, r, -, ⟨h, -⟩ | ⟨h, -⟩ | ⟨h, -⟩⟩
      exacts [absurd h h0, absurd h h1, absurd h h2]

/-- What a word of opcode 07 decodes to (R70). -/
theorem decodeCmpi_eq_ok {w : BitVec 32} {i : Instr} :
    decodeCmpi w = .ok i ↔ ∃ rel, Rel.ofCode? (w.extractLsb' 6 4) = some rel ∧
      .cmpi (qpOf w) rel (rdOf w) (w.extractLsb' 10 8) (predAt w 3) (predAt w 0) = i := by
  unfold decodeCmpi
  split
  · rename_i h; rw [h]; simp
  · rename_i rel h; rw [h]; simp

end Sys2Proof
end

