-- ==== Sys2Proof/Laws/State.lean ====
section
/-! SUPPORT. One lemma per field per update of the state: what each named update leaves as it was and what it sets. -/

namespace Sys2Proof.Machine

section
variable {W : Nat} (m : Mach W)

@[simp] theorem Mach.rset_pr (r : Reg) (v : BitVec W) : (m.rset r v).pr = m.pr := by
  unfold Mach.rset; split <;> rfl
@[simp] theorem Mach.rset_aps (r : Reg) (v : BitVec W) : (m.rset r v).aps = m.aps := by
  unfold Mach.rset; split <;> rfl
@[simp] theorem Mach.rset_pc (r : Reg) (v : BitVec W) : (m.rset r v).pc = m.pc := by
  unfold Mach.rset; split <;> rfl
@[simp] theorem Mach.rset_mem (r : Reg) (v : BitVec W) : (m.rset r v).mem = m.mem := by
  unfold Mach.rset; split <;> rfl
@[simp] theorem Mach.rset_outcome (r : Reg) (v : BitVec W) : (m.rset r v).outcome = m.outcome := by
  unfold Mach.rset; split <;> rfl

@[simp] theorem Mach.pset_gpr (j : PredNum) (b : Bool) : (m.pset j b).gpr = m.gpr := by
  unfold Mach.pset; split <;> rfl
@[simp] theorem Mach.pset_aps (j : PredNum) (b : Bool) : (m.pset j b).aps = m.aps := by
  unfold Mach.pset; split <;> rfl
@[simp] theorem Mach.pset_pc (j : PredNum) (b : Bool) : (m.pset j b).pc = m.pc := by
  unfold Mach.pset; split <;> rfl
@[simp] theorem Mach.pset_mem (j : PredNum) (b : Bool) : (m.pset j b).mem = m.mem := by
  unfold Mach.pset; split <;> rfl
@[simp] theorem Mach.pset_outcome (j : PredNum) (b : Bool) : (m.pset j b).outcome = m.outcome := by
  unfold Mach.pset; split <;> rfl

@[simp] theorem Mach.selectSet_gpr (k : SetNum) : (m.selectSet k).gpr = m.gpr := rfl
@[simp] theorem Mach.selectSet_pr (k : SetNum) : (m.selectSet k).pr = m.pr := rfl
@[simp] theorem Mach.selectSet_aps (k : SetNum) : (m.selectSet k).aps = k := rfl
@[simp] theorem Mach.selectSet_pc (k : SetNum) : (m.selectSet k).pc = m.pc := rfl
@[simp] theorem Mach.selectSet_mem (k : SetNum) : (m.selectSet k).mem = m.mem := rfl
@[simp] theorem Mach.selectSet_outcome (k : SetNum) : (m.selectSet k).outcome = m.outcome := rfl

@[simp] theorem Mach.loadSet_gpr (k : SetNum) (i : BitVec 8) : (m.loadSet k i).gpr = m.gpr := rfl
@[simp] theorem Mach.loadSet_pr (k : SetNum) (i : BitVec 8) : (m.loadSet k i).pr = m.pr.set k.val (i ||| 1#8) k.isLt := rfl
@[simp] theorem Mach.loadSet_aps (k : SetNum) (i : BitVec 8) : (m.loadSet k i).aps = m.aps := rfl
@[simp] theorem Mach.loadSet_pc (k : SetNum) (i : BitVec 8) : (m.loadSet k i).pc = m.pc := rfl
@[simp] theorem Mach.loadSet_mem (k : SetNum) (i : BitVec 8) : (m.loadSet k i).mem = m.mem := rfl
@[simp] theorem Mach.loadSet_outcome (k : SetNum) (i : BitVec 8) : (m.loadSet k i).outcome = m.outcome := rfl

@[simp] theorem Mach.jumpTo_gpr (t : BitVec W) : (m.jumpTo t).gpr = m.gpr := rfl
@[simp] theorem Mach.jumpTo_pr (t : BitVec W) : (m.jumpTo t).pr = m.pr := rfl
@[simp] theorem Mach.jumpTo_aps (t : BitVec W) : (m.jumpTo t).aps = m.aps := rfl
@[simp] theorem Mach.jumpTo_pc (t : BitVec W) : (m.jumpTo t).pc = t := rfl
@[simp] theorem Mach.jumpTo_mem (t : BitVec W) : (m.jumpTo t).mem = m.mem := rfl
@[simp] theorem Mach.jumpTo_outcome (t : BitVec W) : (m.jumpTo t).outcome = m.outcome := rfl

@[simp] theorem Mach.advance_gpr : m.advance.gpr = m.gpr := rfl
@[simp] theorem Mach.advance_pr : m.advance.pr = m.pr := rfl
@[simp] theorem Mach.advance_aps : m.advance.aps = m.aps := rfl
@[simp] theorem Mach.advance_pc : m.advance.pc = m.pc + 4 := rfl
@[simp] theorem Mach.advance_mem : m.advance.mem = m.mem := rfl
@[simp] theorem Mach.advance_outcome : m.advance.outcome = m.outcome := rfl

@[simp] theorem Mach.store_gpr (n a v : Nat) : (m.store n a v).gpr = m.gpr := rfl
@[simp] theorem Mach.store_pr (n a v : Nat) : (m.store n a v).pr = m.pr := rfl
@[simp] theorem Mach.store_aps (n a v : Nat) : (m.store n a v).aps = m.aps := rfl
@[simp] theorem Mach.store_pc (n a v : Nat) : (m.store n a v).pc = m.pc := rfl
@[simp] theorem Mach.store_mem (n a v : Nat) : (m.store n a v).mem = m.mem.writeLE a v n := rfl
@[simp] theorem Mach.store_outcome (n a v : Nat) : (m.store n a v).outcome = m.outcome := rfl

@[simp] theorem Mach.placeWord_gpr (w : Nat) : (m.placeWord w).gpr = m.gpr := rfl
@[simp] theorem Mach.placeWord_pr (w : Nat) : (m.placeWord w).pr = m.pr := rfl
@[simp] theorem Mach.placeWord_aps (w : Nat) : (m.placeWord w).aps = m.aps := rfl
@[simp] theorem Mach.placeWord_pc (w : Nat) : (m.placeWord w).pc = m.pc := rfl
@[simp] theorem Mach.placeWord_mem (w : Nat) : (m.placeWord w).mem = m.mem.writeLE m.pc.toNat w 4 := rfl
@[simp] theorem Mach.placeWord_outcome (w : Nat) : (m.placeWord w).outcome = m.outcome := rfl

@[simp] theorem Mach.raise_gpr (o : RunOutcome W) : (m.raise o).gpr = m.gpr := rfl
@[simp] theorem Mach.raise_pr (o : RunOutcome W) : (m.raise o).pr = m.pr := rfl
@[simp] theorem Mach.raise_aps (o : RunOutcome W) : (m.raise o).aps = m.aps := rfl
@[simp] theorem Mach.raise_pc (o : RunOutcome W) : (m.raise o).pc = m.pc := rfl
@[simp] theorem Mach.raise_mem (o : RunOutcome W) : (m.raise o).mem = m.mem := rfl
@[simp] theorem Mach.raise_outcome (o : RunOutcome W) : (m.raise o).outcome = o := rfl

end

@[simp] theorem State.withMach_cfg (s : State) (m : Mach s.W) : (s.withMach m).cfg = s.cfg := rfl
@[simp] theorem State.withMach_mach (s : State) (m : Mach s.W) : (s.withMach m).mach = m := rfl
@[simp] theorem State.withMach_self (s : State) : s.withMach s.mach = s := rfl
@[simp] theorem State.raise_cfg (s : State) (o : RunOutcome s.W) : (s.raise o).cfg = s.cfg := rfl
@[simp] theorem State.raise_mach (s : State) (o : RunOutcome s.W) : (s.raise o).mach = s.mach.raise o := rfl

/-- Two next states of one machine are equal exactly when their states are. -/
@[simp] theorem State.withMach_inj (s : State) (m m' : Mach s.W) : s.withMach m = s.withMach m' ↔ m = m' := by
  simp [State.withMach]

end Sys2Proof.Machine
end

