-- ==== Sys2Proof/Laws/Memory.lean ====
section
/-! SUPPORT. The laws of memory: read after write, the canonical form, and multi-byte access. -/

namespace Sys2Proof.Machine

/-! ### One byte -/

/-- Dropping an entry makes its address read as unlisted and leaves every other address alone. -/
theorem Memory.read_drop (mem : Memory) (a a' : Nat) :
    Memory.read (Memory.drop mem a) a' = if a' = a then unlistedByte else Memory.read mem a' := by
  induction mem with
  | nil => simp [Memory.drop, Memory.read]
  | cons c rest ih =>
    obtain ⟨k, b⟩ := c
    by_cases hk : k = a
    · subst hk
      have : Memory.drop ((k, b) :: rest) k = Memory.drop rest k := by simp [Memory.drop]
      rw [this, ih]
      by_cases h : a' = k
      · simp [h]
      · simp [h, Memory.read, Ne.symm h]
    · have : Memory.drop ((k, b) :: rest) a = (k, b) :: Memory.drop rest a := by simp [Memory.drop, hk]
      rw [this]
      by_cases h : k = a'
      · subst h; simp [Memory.read, hk]
      · simp [Memory.read, h, ih]

/-- Inserting an entry for an address the memory does not list. -/
theorem Memory.read_insert (mem : Memory) (a a' : Nat) (b : Byte) (h : ∀ c ∈ mem, c.1 ≠ a) :
    Memory.read (Memory.insert mem a b) a' = if a' = a then b else Memory.read mem a' := by
  induction mem with
  | nil =>
    by_cases ha : a' = a
    · simp [Memory.insert, Memory.read, ha]
    · simp [Memory.insert, Memory.read, ha, Ne.symm ha]
  | cons c rest ih =>
    obtain ⟨k, d⟩ := c
    have hk : k ≠ a := h (k, d) (by simp)
    have ih := ih fun c hc => h c (by simp [hc])
    by_cases hlt : k < a
    · by_cases hka : k = a'
      · subst hka; simp [Memory.insert, hlt, Memory.read, hk]
      · simp [Memory.insert, hlt, Memory.read, hka, ih]
    · by_cases ha : a' = a
      · subst ha; simp [Memory.insert, hlt, Memory.read]
      · simp [Memory.insert, hlt, Memory.read, ha, Ne.symm ha]

/-- Read after write: the byte written at its address, every other address as before. -/
theorem Memory.read_write (mem : Memory) (a a' : Nat) (b : Byte) :
    Memory.read (Memory.write mem a b) a' = if a' = a then b else Memory.read mem a' := by
  unfold Memory.write
  by_cases hb : b = unlistedByte
  · rw [if_pos hb, Memory.read_drop, hb]
  · rw [if_neg hb, Memory.read_insert, Memory.read_drop]
    · by_cases h : a' = a <;> simp [h]
    · intro c hc; simpa using (List.mem_filter.mp hc).2

/-! ### The canonical form -/

/-- The canonical form of a listing with a first entry. -/
theorem Memory.wf_cons (k : Nat) (b : Byte) (rest : Memory) :
    Memory.wf ((k, b) :: rest) = true ↔
      b ≠ unlistedByte ∧ (∀ c ∈ rest, k < c.1) ∧ Memory.wf rest = true := by
  simp [Memory.wf, and_assoc]

/-- Dropping an entry keeps the canonical form. -/
theorem Memory.wf_drop {mem : Memory} (a : Nat) (h : mem.wf = true) : (Memory.drop mem a).wf = true := by
  induction mem with
  | nil => rfl
  | cons c rest ih =>
    obtain ⟨k, b⟩ := c
    obtain ⟨hb, hlt, hr⟩ := (Memory.wf_cons k b rest).mp h
    by_cases hk : k = a
    · have : Memory.drop ((k, b) :: rest) a = Memory.drop rest a := by simp [Memory.drop, hk]
      rw [this]; exact ih hr
    · have : Memory.drop ((k, b) :: rest) a = (k, b) :: Memory.drop rest a := by simp [Memory.drop, hk]
      rw [this]
      exact (Memory.wf_cons _ _ _).mpr ⟨hb, fun c hc => hlt c (List.mem_of_mem_filter hc), ih hr⟩

/-- The entries after an insertion. -/
theorem Memory.mem_insert {mem : Memory} {a : Nat} {b : Byte} {c : Host.Cell} :
    c ∈ Memory.insert mem a b ↔ c = (a, b) ∨ c ∈ mem := by
  induction mem with
  | nil => simp [Memory.insert]
  | cons d rest ih =>
    obtain ⟨k, e⟩ := d
    by_cases h : k < a
    · simp only [Memory.insert, if_pos h, List.mem_cons, ih]; tauto
    · simp [Memory.insert, h]

/-- Inserting a listed byte for an address not listed keeps the canonical form. -/
theorem Memory.wf_insert {mem : Memory} (a : Nat) (b : Byte) (hb : b ≠ unlistedByte)
    (ha : ∀ c ∈ mem, c.1 ≠ a) (h : mem.wf = true) : (Memory.insert mem a b).wf = true := by
  induction mem with
  | nil => simp [Memory.insert, Memory.wf, hb]
  | cons d rest ih =>
    obtain ⟨k, e⟩ := d
    obtain ⟨he, hlt, hr⟩ := (Memory.wf_cons k e rest).mp h
    have hk : k ≠ a := ha (k, e) (by simp)
    by_cases hka : k < a
    · have : Memory.insert ((k, e) :: rest) a b = (k, e) :: Memory.insert rest a b := by
        simp [Memory.insert, hka]
      rw [this]
      refine (Memory.wf_cons _ _ _).mpr ⟨he, ?_, ih (fun c hc => ha c (by simp [hc])) hr⟩
      intro c hc
      rcases Memory.mem_insert.mp hc with rfl | hc
      · exact hka
      · exact hlt c hc
    · have : Memory.insert ((k, e) :: rest) a b = (a, b) :: (k, e) :: rest := by simp [Memory.insert, hka]
      rw [this]
      refine (Memory.wf_cons _ _ _).mpr ⟨hb, ?_, h⟩
      intro c hc
      rcases List.mem_cons.mp hc with rfl | hc
      · simp only; omega
      · have := hlt c hc; omega

/-- A write keeps the canonical form. -/
theorem Memory.wf_write {mem : Memory} (a : Nat) (b : Byte) (h : mem.wf = true) :
    (Memory.write mem a b).wf = true := by
  unfold Memory.write
  by_cases hb : b = unlistedByte
  · rw [if_pos hb]; exact Memory.wf_drop a h
  · rw [if_neg hb]
    refine Memory.wf_insert a b hb ?_ (Memory.wf_drop a h)
    intro c hc; simpa using (List.mem_filter.mp hc).2

/-- A write lists no address but those already listed and the one written. -/
theorem Memory.mem_write {mem : Memory} {a : Nat} {b : Byte} {c : Host.Cell} (h : c ∈ Memory.write mem a b) :
    c.1 = a ∨ c ∈ mem := by
  unfold Memory.write at h
  by_cases hb : b = unlistedByte
  · rw [if_pos hb] at h; exact .inr (List.mem_of_mem_filter h)
  · rw [if_neg hb] at h
    rcases Memory.mem_insert.mp h with rfl | h
    · exact .inl rfl
    · exact .inr (List.mem_of_mem_filter h)

/-! ### Several bytes -/

/-- A multi-byte write keeps the canonical form. -/
theorem Memory.wf_writeLE {mem : Memory} (a v n : Nat) (h : mem.wf = true) :
    (Memory.writeLE mem a v n).wf = true := by
  induction n generalizing mem a v with
  | zero => exact h
  | succ n ih => exact ih (a + 1) (v / 256) (Memory.wf_write a _ h)

/-- A multi-byte write lists no address but those already listed and those written. -/
theorem Memory.mem_writeLE {mem : Memory} {a v n : Nat} {c : Host.Cell} (h : c ∈ Memory.writeLE mem a v n) :
    (a ≤ c.1 ∧ c.1 < a + n) ∨ c ∈ mem := by
  induction n generalizing mem a v with
  | zero => exact .inr h
  | succ n ih =>
    rcases ih h with h | h
    · left; omega
    · rcases Memory.mem_write h with h | h
      · left; omega
      · exact .inr h

/-- What any byte reads after a multi-byte write (R44). -/
theorem Memory.read_writeLE (mem : Memory) (a v n a' : Nat) :
    Memory.read (Memory.writeLE mem a v n) a' =
      if a ≤ a' ∧ a' < a + n then BitVec.ofNat 8 (v / 2 ^ (8 * (a' - a))) else Memory.read mem a' := by
  induction n generalizing mem a v with
  | zero => simp [Memory.writeLE, show ¬(a ≤ a' ∧ a' < a) by omega]
  | succ n ih =>
    rw [Memory.writeLE, ih, Memory.read_write]
    by_cases h1 : a + 1 ≤ a' ∧ a' < a + 1 + n
    · rw [if_pos h1, if_pos (by omega), Nat.div_div_eq_div_mul]
      congr 2
      rw [show (256 : Nat) = 2 ^ 8 from rfl, ← pow_add]
      congr 1; omega
    · rw [if_neg h1]
      by_cases h2 : a' = a
      · subst h2; simp
      · rw [if_neg h2, if_neg (by omega)]

/-- Byte `k` of a multi-byte read is the byte at `a + k` (R43). -/
theorem Memory.readLE_byte (mem : Memory) (a n k : Nat) (hk : k < n) :
    Memory.readLE mem a n / 2 ^ (8 * k) % 256 = (Memory.read mem (a + k)).toNat := by
  induction n generalizing a k with
  | zero => omega
  | succ n ih =>
    have hb := (Memory.read mem a).isLt
    cases k with
    | zero => simp only [Memory.readLE]; simp; omega
    | succ k =>
      have h8 : 2 ^ (8 * (k + 1)) = 256 * 2 ^ (8 * k) := by rw [show 8 * (k + 1) = 8 + 8 * k by ring, pow_add]; rfl
      have hd : ((Memory.read mem a).toNat + 256 * Memory.readLE mem (a + 1) n) / 256 =
          Memory.readLE mem (a + 1) n := by omega
      rw [Memory.readLE, h8, ← Nat.div_div_eq_div_mul, hd, ih (a + 1) k (by omega),
        show a + 1 + k = a + (k + 1) by omega]

/-- A multi-byte read fits its bytes. -/
theorem Memory.readLE_lt (mem : Memory) (a n : Nat) : Memory.readLE mem a n < 2 ^ (8 * n) := by
  induction n generalizing a with
  | zero => simp [Memory.readLE]
  | succ n ih =>
    have hb := (Memory.read mem a).isLt
    have := ih (a + 1)
    have h8 : 2 ^ (8 * (n + 1)) = 256 * 2 ^ (8 * n) := by rw [show 8 * (n + 1) = 8 + 8 * n by ring, pow_add]; rfl
    rw [Memory.readLE, h8]; omega

/-- A multi-byte read depends on its bytes alone. -/
theorem Memory.readLE_congr {mem mem' : Memory} (a n : Nat)
    (h : ∀ k < n, Memory.read mem' (a + k) = Memory.read mem (a + k)) :
    Memory.readLE mem' a n = Memory.readLE mem a n := by
  induction n generalizing a with
  | zero => rfl
  | succ n ih =>
    have h0 := h 0 (by omega)
    have ih := ih (a + 1) fun k hk => by have := h (k + 1) (by omega); rwa [show a + 1 + k = a + (k + 1) by omega]
    simp only [Nat.add_zero] at h0
    rw [Memory.readLE, Memory.readLE, h0, ih]

end Sys2Proof.Machine
end

