-- ==== Sys2Proof/Laws/Registers.lean ====
section
/-! SUPPORT. Reading registers and predicates after the named updates. -/

namespace Sys2Proof.Machine

section
variable {W : Nat} (m : Mach W)

/-! ### General registers -/

/-- R0 reads as 0 in every state (R21). -/
@[simp] theorem Mach.rget_zero : m.rget 0 = 0 := rfl

/-- A write to R0 has no effect (R21). -/
@[simp] theorem Mach.rset_zero (v : BitVec W) : m.rset 0 v = m := rfl

/-- Reading depends on the stored registers alone. -/
theorem Mach.rget_congr {m m' : Mach W} (h : m'.gpr = m.gpr) (r : Reg) : m'.rget r = m.rget r := by
  simp [Mach.rget, h]

/-- What any register reads after a write. -/
theorem Mach.rget_rset (r r' : Reg) (v : BitVec W) :
    (m.rset r v).rget r' = if r' = r ∧ r ≠ 0 then v else m.rget r' := by
  by_cases hr : r.val = 0
  · have : r = 0 := Fin.ext hr
    subst this; simp
  · have hr0 : r ≠ 0 := fun h => hr (by simp [h])
    by_cases hr' : r'.val = 0
    · have : r' = 0 := Fin.ext hr'
      subst this
      simp [Mach.rget, Ne.symm hr0]
    · by_cases h : r' = r
      · subst h
        simp [Mach.rget, Mach.rset, hr, hr0]
      · have hne : r.val - 1 ≠ r'.val - 1 := fun e => h (Fin.ext (by omega))
        simp [Mach.rget, Mach.rset, hr, hr', h, hne]

/-- The register written reads the value, but for R0. -/
@[simp] theorem Mach.rget_rset_same (r : Reg) (v : BitVec W) :
    (m.rset r v).rget r = if r = 0 then 0 else v := by
  rw [Mach.rget_rset]; by_cases h : r = 0 <;> simp [h]

/-- Another register reads as before. -/
theorem Mach.rget_rset_other {r r' : Reg} (v : BitVec W) (h : r' ≠ r) : (m.rset r v).rget r' = m.rget r' := by
  simp [Mach.rget_rset, h]

@[simp] theorem Mach.rget_pset (j : PredNum) (b : Bool) (r : Reg) : (m.pset j b).rget r = m.rget r :=
  Mach.rget_congr (by simp) r
@[simp] theorem Mach.rget_selectSet (k : SetNum) (r : Reg) : (m.selectSet k).rget r = m.rget r := rfl
@[simp] theorem Mach.rget_loadSet (k : SetNum) (i : BitVec 8) (r : Reg) : (m.loadSet k i).rget r = m.rget r := rfl
@[simp] theorem Mach.rget_jumpTo (t : BitVec W) (r : Reg) : (m.jumpTo t).rget r = m.rget r := rfl
@[simp] theorem Mach.rget_advance (r : Reg) : m.advance.rget r = m.rget r := rfl
@[simp] theorem Mach.rget_store (n a v : Nat) (r : Reg) : (m.store n a v).rget r = m.rget r := rfl
@[simp] theorem Mach.rget_raise (o : RunOutcome W) (r : Reg) : (m.raise o).rget r = m.rget r := rfl
@[simp] theorem Mach.rget_placeWord (w : Nat) (r : Reg) : (m.placeWord w).rget r = m.rget r := rfl

/-! ### Predicates -/

/-- P0 reads as 1 in every state (R25). -/
@[simp] theorem Mach.pget_zero : m.pget 0 = true := rfl

/-- A write to P0 is discarded (R25). -/
@[simp] theorem Mach.pset_zero (b : Bool) : m.pset 0 b = m := rfl

/-- The bits of a byte after one of them was put. -/
theorem getLsbD_putBit (v : BitVec 8) (j i : Nat) (b : Bool) (hi : i < 8) :
    (putBit v j b).getLsbD i = if i = j then b else v.getLsbD i := by
  by_cases h : i = j
  · subst h; cases b <;> simp [putBit, hi]
  · by_cases hlt : i < j
    · cases b <;> simp [putBit, h, hi, hlt]
    · have hz : i - j ≠ 0 := by omega
      cases b <;> simp [putBit, h, hi, hlt, hz]

/-- The predicate sets after a write to one predicate of the active set. -/
theorem Mach.pset_pr (j : PredNum) (b : Bool) (k : SetNum) (hj : j ≠ 0) :
    ((m.pset j b).pr[k.val]'k.isLt) =
      if k = m.aps then putBit (m.pr[m.aps.val]'m.aps.isLt) j.val b else m.pr[k.val]'k.isLt := by
  by_cases h : k = m.aps
  · subst h; simp [Mach.pset, hj, Mach.activeSet]
  · have hne : m.aps.val ≠ k.val := fun e => h (Fin.ext e.symm)
    simp [Mach.pset, hj, h, hne]

/-- What any predicate of the active set reads after a write. -/
theorem Mach.pget_pset (j j' : PredNum) (b : Bool) :
    (m.pset j b).pget j' = if j' = j ∧ j ≠ 0 then b else m.pget j' := by
  by_cases hj : j = 0
  · subst hj; simp
  · by_cases hj' : j' = 0
    · subst hj'; simp [Mach.pget, Ne.symm hj]
    · have hset : (m.pset j b).activeSet = putBit m.activeSet j.val b := by
        have := m.pset_pr j b m.aps hj
        simpa [Mach.activeSet] using this
      by_cases h : j' = j
      · subst h
        simp only [Mach.pget, hset, if_neg hj, getLsbD_putBit _ _ _ _ j'.isLt]
        simp [hj]
      · have hv : j'.val ≠ j.val := fun e => h (Fin.ext e)
        simp only [Mach.pget, hset, if_neg hj', getLsbD_putBit _ _ _ _ j'.isLt, if_neg hv]
        simp [h]

@[simp] theorem Mach.pget_rset (r : Reg) (v : BitVec W) (j : PredNum) : (m.rset r v).pget j = m.pget j := by
  simp [Mach.pget, Mach.activeSet]
@[simp] theorem Mach.pget_jumpTo (t : BitVec W) (j : PredNum) : (m.jumpTo t).pget j = m.pget j := rfl
@[simp] theorem Mach.pget_advance (j : PredNum) : m.advance.pget j = m.pget j := rfl
@[simp] theorem Mach.pget_store (n a v : Nat) (j : PredNum) : (m.store n a v).pget j = m.pget j := rfl
@[simp] theorem Mach.pget_raise (o : RunOutcome W) (j : PredNum) : (m.raise o).pget j = m.pget j := rfl
@[simp] theorem Mach.pget_placeWord (w : Nat) (j : PredNum) : (m.placeWord w).pget j = m.pget j := rfl

end

end Sys2Proof.Machine
end

