-- ==== Sys2Proof/Laws/Exec.lean ====
section
/-! SUPPORT. What each shared operation of the meanings can answer, said once: the predicated shape, the access checks,
the loads and stores, the compares, and the step around `exec`. -/

namespace Sys2Proof.Machine

variable {s t : State}

/-! ### Answers -/

@[simp] theorem State.answer_next (m : Mach s.W) : s.answer (.next m) = .next (s.withMach m) := rfl
@[simp] theorem State.answer_fault (f : Fault) : s.answer (.fault f) = .fault f := rfl
@[simp] theorem State.answer_refused (r : Refusal) : s.answer (.refused r) = .refused r := rfl

/-- An answer is a next state only through a next machine state. -/
theorem State.answer_eq_next {a : MOut s.W} : s.answer a = .next t ↔ ∃ m, a = .next m ∧ t = s.withMach m := by
  cases a <;> simp [eq_comm]

/-- A nullified instruction only advances the pc (R32). -/
theorem State.predicated_false {qp : PredNum} {f : Mach s.W → MOut s.W} (h : s.mach.pget qp = false) :
    s.predicated qp f = .next (s.withMach s.mach.advance) := by
  simp [State.predicated, h]

/-- An instruction whose predicate is 1 does its Operation (R31). -/
theorem State.predicated_true {qp : PredNum} {f : Mach s.W → MOut s.W} (h : s.mach.pget qp = true) :
    s.predicated qp f = s.answer (f s.mach) := by
  simp [State.predicated, h]

/-- All a predicated instruction can do when it goes on. -/
theorem State.predicated_next {qp : PredNum} {f : Mach s.W → MOut s.W} (h : s.predicated qp f = .next t) :
    ∃ m, t = s.withMach m ∧
      ((s.mach.pget qp = false ∧ m = s.mach.advance) ∨ (s.mach.pget qp = true ∧ f s.mach = .next m)) := by
  obtain ⟨m, hm, rfl⟩ := State.answer_eq_next.mp h
  refine ⟨m, rfl, ?_⟩
  cases hp : s.mach.pget qp with
  | false =>
    rw [hp] at hm
    simp only [Bool.false_eq_true, if_false, Host.Outcome.next.injEq] at hm
    exact .inl ⟨rfl, hm.symm⟩
  | true => rw [hp] at hm; exact .inr ⟨rfl, by simpa using hm⟩

/-- All a register-writing instruction can do (R33). -/
theorem State.writesReg_eq (qp : PredNum) (rd : Reg) (v : Mach s.W → BitVec s.W) :
    s.writesReg qp rd v = .next (s.withMach
      (if s.mach.pget qp then (s.mach.rset rd (v s.mach)).advance else s.mach.advance)) := by
  cases hp : s.mach.pget qp with
  | false => simp [State.writesReg, State.predicated_false hp]
  | true => simp [State.writesReg, State.predicated_true hp]

/-! ### Accesses -/

section
variable {W : Nat} {cfg : Config} {m m' : Mach W} {n : Nat} {a : BitVec W} {k : MOut W}

/-- Bytes exist when none of them lies in an absent range (R52). -/
theorem present_iff {absent : List AddrRange} {a n : Nat} :
    present absent a n = true ↔ ∀ k < n, ∀ r ∈ absent, a + k < r.base ∨ r.base + r.size ≤ a + k := by
  simp [present, byteExists]

/-- All an access can do when it goes on: it traps on its alignment, or it is performed (R47, R237). -/
theorem access_next (h : access cfg m n a k = .next m') :
    (a.toNat % n ≠ 0 ∧ m' = m.raise (.unalignedAddressTrap a)) ∨
      (a.toNat % n = 0 ∧ present cfg.absent a.toNat n = true ∧ k = .next m') := by
  unfold access at h
  split at h
  · rename_i ha
    exact .inl ⟨ha, by simpa using h.symm⟩
  · rename_i ha
    split at h
    · rename_i hp
      exact .inr ⟨by omega, hp, h⟩
    · cases h

/-- An access that is aligned and present is performed. -/
theorem access_performed (ha : a.toNat % n = 0) (hp : present cfg.absent a.toNat n = true) :
    access cfg m n a k = k := by
  simp [access, ha, hp]

/-- An access that is aligned and touches a byte that does not exist faults (R52). -/
theorem access_outside (ha : a.toNat % n = 0) (hp : present cfg.absent a.toNat n = false) :
    access cfg m n a k = .fault (.outsideMem a.toNat) := by
  simp [access, ha, hp]

/-- An access that is not aligned traps (R47). -/
theorem access_misaligned (ha : a.toNat % n ≠ 0) :
    access cfg m n a k = .next (m.raise (.unalignedAddressTrap a)) := by
  simp [access, ha]

/-- What any byte of memory reads after a store (R44). -/
theorem Mach.store_read (m : Mach W) (n a v a' : Nat) :
    (m.store n a v).mem.read a' =
      if a ≤ a' ∧ a' < a + n then BitVec.ofNat 8 (v / 2 ^ (8 * (a' - a))) else m.mem.read a' :=
  Memory.read_writeLE m.mem a v n a'

end

/-! ### Predicate pairs -/

/-- The guard lets every pair through but two writes to one predicate other than P0 (R110). -/
theorem guardPair_next {W : Nat} {pd1 pd2 : PredNum} {k : MOut W} {m : Mach W} (h : guardPair pd1 pd2 k = .next m) :
    ¬(pd1 = pd2 ∧ pd1 ≠ 0) ∧ k = .next m := by
  unfold guardPair at h
  split at h
  · cases h
  · rename_i hg; exact ⟨hg, h⟩

/-- All a predicate-pair instruction can do when it goes on (R110, R115, R116). -/
theorem State.writesPair_next {qp pd1 pd2 : PredNum} {b : Mach s.W → Option Bool}
    (h : s.writesPair qp pd1 pd2 b = .next t) :
    ∃ m, t = s.withMach m ∧
      ((s.mach.pget qp = false ∧ m = s.mach.advance) ∨
        (s.mach.pget qp = true ∧ ¬(pd1 = pd2 ∧ pd1 ≠ 0) ∧
          ((b s.mach = none ∧ m = s.mach.advance) ∨
            ∃ v, b s.mach = some v ∧ m = (s.mach.writePair pd1 pd2 v).advance))) := by
  obtain ⟨m, rfl, hn | ⟨hp, hf⟩⟩ := State.predicated_next h
  · exact ⟨m, rfl, .inl hn⟩
  · obtain ⟨hg, hk⟩ := guardPair_next hf
    refine ⟨m, rfl, .inr ⟨hp, hg, ?_⟩⟩
    cases hb : b s.mach with
    | none => rw [hb] at hk; exact .inl ⟨rfl, by simpa using hk.symm⟩
    | some v => rw [hb] at hk; exact .inr ⟨v, rfl, by simpa using hk.symm⟩

/-! ### Loads and stores -/

/-- All a plain load can do when it goes on (R128, R130). -/
theorem State.loads_next {qp : PredNum} {n : Nat} {rd : Reg} {ea : Mach s.W → BitVec s.W}
    (h : s.loads qp n rd ea = .next t) :
    ∃ m, t = s.withMach m ∧
      ((s.mach.pget qp = false ∧ m = s.mach.advance) ∨
        (s.mach.pget qp = true ∧ (ea s.mach).toNat % n ≠ 0 ∧ m = s.mach.raise (.unalignedAddressTrap (ea s.mach))) ∨
        (s.mach.pget qp = true ∧ (ea s.mach).toNat % n = 0 ∧
          m = (s.mach.rset rd (s.mach.loaded s.cfg.loadExt n (ea s.mach))).advance)) := by
  obtain ⟨m, rfl, hn | ⟨hp, hf⟩⟩ := State.predicated_next h
  · exact ⟨m, rfl, .inl hn⟩
  · rcases access_next hf with ⟨ha, hm⟩ | ⟨ha, -, hk⟩
    · exact ⟨m, rfl, .inr (.inl ⟨hp, ha, hm⟩)⟩
    · exact ⟨m, rfl, .inr (.inr ⟨hp, ha, by simpa using hk.symm⟩)⟩

/-- All an update load can do when it goes on (R129, R131). -/
theorem State.loadsUpdate_next {qp : PredNum} {n : Nat} {rd rs1 : Reg} {base : Mach s.W → BitVec s.W}
    (h : s.loadsUpdate qp n rd rs1 base = .next t) :
    ∃ m, t = s.withMach m ∧
      ((s.mach.pget qp = false ∧ m = s.mach.advance) ∨
        (s.mach.pget qp = true ∧ (s.mach.rget rs1).toNat % n ≠ 0 ∧
          m = s.mach.raise (.unalignedAddressTrap (s.mach.rget rs1))) ∨
        (s.mach.pget qp = true ∧ (s.mach.rget rs1).toNat % n = 0 ∧ ¬(rd = rs1 ∧ rd ≠ 0) ∧
          m = ((s.mach.rset rd (s.mach.loaded s.cfg.loadExt n (s.mach.rget rs1))).rset rs1 (base s.mach)).advance)) := by
  obtain ⟨m, rfl, hn | ⟨hp, hf⟩⟩ := State.predicated_next h
  · exact ⟨m, rfl, .inl hn⟩
  · rcases access_next hf with ⟨ha, hm⟩ | ⟨ha, -, hk⟩
    · exact ⟨m, rfl, .inr (.inl ⟨hp, ha, hm⟩)⟩
    · split at hk
      · cases hk
      · rename_i hne
        exact ⟨m, rfl, .inr (.inr ⟨hp, ha, hne, by simpa using hk.symm⟩)⟩

/-- All a plain store can do when it goes on (R132). -/
theorem State.stores_next {qp : PredNum} {n : Nat} {rd : Reg} {ea : Mach s.W → BitVec s.W}
    (h : s.stores qp n rd ea = .next t) :
    ∃ m, t = s.withMach m ∧
      ((s.mach.pget qp = false ∧ m = s.mach.advance) ∨
        (s.mach.pget qp = true ∧ (ea s.mach).toNat % n ≠ 0 ∧ m = s.mach.raise (.unalignedAddressTrap (ea s.mach))) ∨
        (s.mach.pget qp = true ∧ (ea s.mach).toNat % n = 0 ∧
          m = (s.mach.store n (ea s.mach).toNat (s.mach.rget rd).toNat).advance)) := by
  obtain ⟨m, rfl, hn | ⟨hp, hf⟩⟩ := State.predicated_next h
  · exact ⟨m, rfl, .inl hn⟩
  · rcases access_next hf with ⟨ha, hm⟩ | ⟨ha, -, hk⟩
    · exact ⟨m, rfl, .inr (.inl ⟨hp, ha, hm⟩)⟩
    · exact ⟨m, rfl, .inr (.inr ⟨hp, ha, by simpa using hk.symm⟩)⟩

/-- All an update store can do when it goes on (R133). -/
theorem State.storesUpdate_next {qp : PredNum} {n : Nat} {rd rs1 : Reg} {base : Mach s.W → BitVec s.W}
    (h : s.storesUpdate qp n rd rs1 base = .next t) :
    ∃ m, t = s.withMach m ∧
      ((s.mach.pget qp = false ∧ m = s.mach.advance) ∨
        (s.mach.pget qp = true ∧ (s.mach.rget rs1).toNat % n ≠ 0 ∧
          m = s.mach.raise (.unalignedAddressTrap (s.mach.rget rs1))) ∨
        (s.mach.pget qp = true ∧ (s.mach.rget rs1).toNat % n = 0 ∧
          m = ((s.mach.store n (s.mach.rget rs1).toNat (s.mach.rget rd).toNat).rset rs1 (base s.mach)).advance)) := by
  obtain ⟨m, rfl, hn | ⟨hp, hf⟩⟩ := State.predicated_next h
  · exact ⟨m, rfl, .inl hn⟩
  · rcases access_next hf with ⟨ha, hm⟩ | ⟨ha, -, hk⟩
    · exact ⟨m, rfl, .inr (.inl ⟨hp, ha, hm⟩)⟩
    · exact ⟨m, rfl, .inr (.inr ⟨hp, ha, by simpa using hk.symm⟩)⟩

/-! ### Every instruction -/

/-- Every instruction is a predicated operation (R32). -/
theorem exec_eq_predicated (i : Instr) (s : State) : ∃ f, exec i s = s.predicated i.qp f := by
  cases i <;> simp only [
    exec, execJmp, execJmpLink, execJmpReg, execJmpRegLink, execTrap, execChangepr, execChangeprLd, execCmp,
    execCmpPw0, execCmpPw1, execCmpi, execTestbit, execLoadiZ, execLoadiK, execLoad4, execLoad8,
    execLoad4Update, execLoad8Update, execLoadx, execLoadxUpdate, execStore1, execStore2, execStore4,
    execStore8, execStore1Update, execStore2Update, execStore4Update, execStore8Update, execAddi, execAndi,
    execOri, execSubi, execXori, execSlli, execSrai, execSrli, execShrp, execExtract, execDeposit, execPadd,
    execPaddU, execPaddS, execPaddincr, execPsub, execPsubU, execPsubS, execPsubdecr, execPavg, execPavgRaz,
    execPsubavg, execAndReg, execAndcm, execOrReg, execXorReg, execNotReg, execPcmpEq, execPcmpGt, execPmax,
    execPmin, execPshiftaddL, execPshiftaddR, execPmulOdd, execPmulOddU, execPmulEven, execPmulEvenU,
    execPmulshr, execPmulshrA, execPshiftL, execPshiftR, execPshiftRa, execPshiftiL, execPshiftiR,
    execPshiftiRa, execMixL, execMixR, execMuxRev, execMuxMix, execMuxShuf, execMuxAlt, execMuxBrcst,
    execPerm, State.writesReg, State.writesPair, State.loads, State.loadsUpdate, State.stores,
    State.storesUpdate] <;> exact ⟨_, rfl⟩

/-- All an instruction can make of the machine: the effects of R31 to R33, over every instruction. -/
inductive Effect (s : State) (i : Instr) : Mach s.W → Prop
  /-- Nothing but the advance of the pc: nullified, or a parallel-write compare whose relation is false. -/
  | nothing : Effect s i s.mach.advance
  /-- A register. -/
  | register (rd : Reg) (v : BitVec s.W) (hrd : rd ∈ writtenRegs i) : Effect s i (s.mach.rset rd v).advance
  /-- A loaded register and the base. -/
  | loadUpdate (rd rs1 : Reg) (v base : BitVec s.W) (hrd : rd ∈ writtenRegs i) (hrs1 : rs1 ∈ writtenRegs i) :
      Effect s i ((s.mach.rset rd v).rset rs1 base).advance
  /-- Bytes of memory. -/
  | memory (ea : BitVec s.W) (n v : Nat) (hat : storeAt i s.mach = some (ea, n)) (hal : ea.toNat % n = 0) :
      Effect s i (s.mach.store n ea.toNat v).advance
  /-- Bytes of memory and the base. -/
  | storeUpdate (ea : BitVec s.W) (n v : Nat) (rs1 : Reg) (base : BitVec s.W)
      (hat : storeAt i s.mach = some (ea, n)) (hal : ea.toNat % n = 0) (hrs1 : rs1 ∈ writtenRegs i) :
      Effect s i ((s.mach.store n ea.toNat v).rset rs1 base).advance
  /-- The Unaligned Address Trap. -/
  | unaligned (ea : BitVec s.W) (n : Nat) (hp : s.mach.pget i.qp = true)
      (hat : loadAt i s.mach = some (ea, n) ∨ storeAt i s.mach = some (ea, n)) (hal : ea.toNat % n ≠ 0) :
      Effect s i (s.mach.raise (.unalignedAddressTrap ea))
  /-- `trap`. -/
  | halt (qp : PredNum) (hi : i = .trap qp) (hp : s.mach.pget qp = true) : Effect s i (s.mach.raise .halted)
  /-- A jump. -/
  | jump (target : BitVec s.W)
      (hi : (∃ qp imm, i = .jmp qp imm ∧ target = s.mach.relativeTarget s.cfg.jmpScale imm) ∨
        ∃ qp rd, i = .jmpReg qp rd ∧ target = s.mach.registerTarget s.cfg.jmpRegMode rd) :
      Effect s i (s.mach.jumpTo target)
  /-- A jump and link. -/
  | jumpLink (target : BitVec s.W)
      (hi : (∃ qp imm, i = .jmpLink qp imm ∧ target = s.mach.relativeTarget s.cfg.jmpScale imm) ∨
        ∃ qp rd, i = .jmpRegLink qp rd ∧ target = s.mach.registerTarget s.cfg.jmpRegMode rd) :
      Effect s i ((s.mach.rset linkReg s.mach.nextPc).jumpTo target)
  /-- Another active predicate set. -/
  | select (qp : PredNum) (k : SetNum) (hi : i = .changepr qp k) : Effect s i (s.mach.selectSet k).advance
  /-- Another active predicate set, loaded. -/
  | loadSet (qp : PredNum) (k : SetNum) (v : BitVec 8) (hi : i = .changeprLd qp k v) :
      Effect s i ((s.mach.selectSet k).loadSet k v).advance
  /-- Two predicates of the active set. -/
  | pair (qp pd1 pd2 : PredNum) (t : Bool)
      (hi : (∃ rel rs1 rs2, i = .cmp qp rel rs1 rs2 pd1 pd2 ∨ i = .cmpPw0 qp rel rs1 rs2 pd1 pd2 ∨
          i = .cmpPw1 qp rel rs1 rs2 pd1 pd2) ∨
        (∃ rel rs1 imm8, i = .cmpi qp rel rs1 imm8 pd1 pd2) ∨ ∃ rs1 imm8, i = .testbit qp rs1 imm8 pd1 pd2) :
      Effect s i (s.mach.writePair pd1 pd2 t).advance

section
variable {i : Instr}

/-- The effect of an instruction that writes one register. -/
theorem Effect.ofWritesReg {qp : PredNum} {rd : Reg} {v : Mach s.W → BitVec s.W}
    (h : s.writesReg qp rd v = .next t) (hrd : rd ∈ writtenRegs i) : ∃ m, t = s.withMach m ∧ Effect s i m := by
  rw [State.writesReg_eq] at h
  refine ⟨_, (Host.Outcome.next.inj h).symm, ?_⟩
  split
  · exact .register rd _ hrd
  · exact .nothing

/-- The effect of a predicate-pair instruction. -/
theorem Effect.ofWritesPair {qp pd1 pd2 : PredNum} {b : Mach s.W → Option Bool}
    (h : s.writesPair qp pd1 pd2 b = .next t)
    (hi : (∃ rel rs1 rs2, i = .cmp qp rel rs1 rs2 pd1 pd2 ∨ i = .cmpPw0 qp rel rs1 rs2 pd1 pd2 ∨
        i = .cmpPw1 qp rel rs1 rs2 pd1 pd2) ∨
      (∃ rel rs1 imm8, i = .cmpi qp rel rs1 imm8 pd1 pd2) ∨ ∃ rs1 imm8, i = .testbit qp rs1 imm8 pd1 pd2) :
    ∃ m, t = s.withMach m ∧ Effect s i m := by
  obtain ⟨m, rfl, ⟨-, rfl⟩ | ⟨-, -, ⟨-, rfl⟩ | ⟨v, -, rfl⟩⟩⟩ := State.writesPair_next h
  · exact ⟨_, rfl, .nothing⟩
  · exact ⟨_, rfl, .nothing⟩
  · exact ⟨_, rfl, .pair qp pd1 pd2 v hi⟩

/-- The effect of a plain load. -/
theorem Effect.ofLoads {n : Nat} {rd : Reg} {ea : Mach s.W → BitVec s.W} (h : s.loads i.qp n rd ea = .next t)
    (hrd : rd ∈ writtenRegs i) (hat : loadAt i s.mach = some (ea s.mach, n)) :
    ∃ m, t = s.withMach m ∧ Effect s i m := by
  obtain ⟨m, rfl, ⟨-, rfl⟩ | ⟨hp, hal, rfl⟩ | ⟨-, -, rfl⟩⟩ := State.loads_next h
  · exact ⟨_, rfl, .nothing⟩
  · exact ⟨_, rfl, .unaligned _ n hp (.inl hat) hal⟩
  · exact ⟨_, rfl, .register rd _ hrd⟩

/-- The effect of an update load. -/
theorem Effect.ofLoadsUpdate {n : Nat} {rd rs1 : Reg} {base : Mach s.W → BitVec s.W}
    (h : s.loadsUpdate i.qp n rd rs1 base = .next t) (hrd : rd ∈ writtenRegs i) (hrs1 : rs1 ∈ writtenRegs i)
    (hat : loadAt i s.mach = some (s.mach.rget rs1, n)) : ∃ m, t = s.withMach m ∧ Effect s i m := by
  obtain ⟨m, rfl, ⟨-, rfl⟩ | ⟨hp, hal, rfl⟩ | ⟨-, -, -, rfl⟩⟩ := State.loadsUpdate_next h
  · exact ⟨_, rfl, .nothing⟩
  · exact ⟨_, rfl, .unaligned _ n hp (.inl hat) hal⟩
  · exact ⟨_, rfl, .loadUpdate rd rs1 _ _ hrd hrs1⟩

/-- The effect of a plain store. -/
theorem Effect.ofStores {n : Nat} {rd : Reg} {ea : Mach s.W → BitVec s.W} (h : s.stores i.qp n rd ea = .next t)
    (hat : storeAt i s.mach = some (ea s.mach, n)) : ∃ m, t = s.withMach m ∧ Effect s i m := by
  obtain ⟨m, rfl, ⟨-, rfl⟩ | ⟨hp, hal, rfl⟩ | ⟨-, hal, rfl⟩⟩ := State.stores_next h
  · exact ⟨_, rfl, .nothing⟩
  · exact ⟨_, rfl, .unaligned _ n hp (.inr hat) hal⟩
  · exact ⟨_, rfl, .memory _ n _ hat hal⟩

/-- The effect of an update store. -/
theorem Effect.ofStoresUpdate {n : Nat} {rd rs1 : Reg} {base : Mach s.W → BitVec s.W}
    (h : s.storesUpdate i.qp n rd rs1 base = .next t) (hrs1 : rs1 ∈ writtenRegs i)
    (hat : storeAt i s.mach = some (s.mach.rget rs1, n)) : ∃ m, t = s.withMach m ∧ Effect s i m := by
  obtain ⟨m, rfl, ⟨-, rfl⟩ | ⟨hp, hal, rfl⟩ | ⟨-, hal, rfl⟩⟩ := State.storesUpdate_next h
  · exact ⟨_, rfl, .nothing⟩
  · exact ⟨_, rfl, .unaligned _ n hp (.inr hat) hal⟩
  · exact ⟨_, rfl, .storeUpdate _ n _ rs1 _ hat hal hrs1⟩

/-- Every next state of an instruction is one of the effects. -/
theorem exec_effect (h : exec i s = .next t) : ∃ m, t = s.withMach m ∧ Effect s i m := by
  cases i <;> simp only [exec] at h
  case jmp qp imm =>
    obtain ⟨m, rfl, ⟨-, rfl⟩ | ⟨-, hf⟩⟩ := State.predicated_next h
    · exact ⟨_, rfl, .nothing⟩
    · cases hf; exact ⟨_, rfl, .jump _ (.inl ⟨_, _, rfl, rfl⟩)⟩
  case jmpLink qp imm =>
    obtain ⟨m, rfl, ⟨-, rfl⟩ | ⟨-, hf⟩⟩ := State.predicated_next h
    · exact ⟨_, rfl, .nothing⟩
    · cases hf; exact ⟨_, rfl, .jumpLink _ (.inl ⟨_, _, rfl, rfl⟩)⟩
  case jmpReg qp rd =>
    obtain ⟨m, rfl, ⟨-, rfl⟩ | ⟨-, hf⟩⟩ := State.predicated_next h
    · exact ⟨_, rfl, .nothing⟩
    · cases hf; exact ⟨_, rfl, .jump _ (.inr ⟨_, _, rfl, rfl⟩)⟩
  case jmpRegLink qp rd =>
    obtain ⟨m, rfl, ⟨-, rfl⟩ | ⟨-, hf⟩⟩ := State.predicated_next h
    · exact ⟨_, rfl, .nothing⟩
    · cases hf; exact ⟨_, rfl, .jumpLink _ (.inr ⟨_, _, rfl, rfl⟩)⟩
  case trap qp =>
    obtain ⟨m, rfl, ⟨-, rfl⟩ | ⟨hp, hf⟩⟩ := State.predicated_next h
    · exact ⟨_, rfl, .nothing⟩
    · cases hf; exact ⟨_, rfl, .halt qp rfl hp⟩
  case changepr qp k =>
    obtain ⟨m, rfl, ⟨-, rfl⟩ | ⟨-, hf⟩⟩ := State.predicated_next h
    · exact ⟨_, rfl, .nothing⟩
    · cases hf; exact ⟨_, rfl, .select qp k rfl⟩
  case changeprLd qp k v =>
    obtain ⟨m, rfl, ⟨-, rfl⟩ | ⟨-, hf⟩⟩ := State.predicated_next h
    · exact ⟨_, rfl, .nothing⟩
    · cases hf; exact ⟨_, rfl, .loadSet qp k v rfl⟩
  case cmp => exact Effect.ofWritesPair h (.inl ⟨_, _, _, .inl rfl⟩)
  case cmpPw0 => exact Effect.ofWritesPair h (.inl ⟨_, _, _, .inr (.inl rfl)⟩)
  case cmpPw1 => exact Effect.ofWritesPair h (.inl ⟨_, _, _, .inr (.inr rfl)⟩)
  case cmpi => exact Effect.ofWritesPair h (.inr (.inl ⟨_, _, _, rfl⟩))
  case testbit => exact Effect.ofWritesPair h (.inr (.inr ⟨_, _, rfl⟩))
  case load4 => exact Effect.ofLoads h (by simp [writtenRegs]) rfl
  case load8 => exact Effect.ofLoads h (by simp [writtenRegs]) rfl
  case loadx => exact Effect.ofLoads h (by simp [writtenRegs]) rfl
  case load4Update => exact Effect.ofLoadsUpdate h (by simp [writtenRegs]) (by simp [writtenRegs]) rfl
  case load8Update => exact Effect.ofLoadsUpdate h (by simp [writtenRegs]) (by simp [writtenRegs]) rfl
  case loadxUpdate => exact Effect.ofLoadsUpdate h (by simp [writtenRegs]) (by simp [writtenRegs]) rfl
  case store1 => exact Effect.ofStores h rfl
  case store2 => exact Effect.ofStores h rfl
  case store4 => exact Effect.ofStores h rfl
  case store8 => exact Effect.ofStores h rfl
  case store1Update => exact Effect.ofStoresUpdate h (by simp [writtenRegs]) rfl
  case store2Update => exact Effect.ofStoresUpdate h (by simp [writtenRegs]) rfl
  case store4Update => exact Effect.ofStoresUpdate h (by simp [writtenRegs]) rfl
  case store8Update => exact Effect.ofStoresUpdate h (by simp [writtenRegs]) rfl
  all_goals exact Effect.ofWritesReg h (List.mem_singleton.mpr rfl)

end

/-! ### The step -/

/-- The fetch gives a word exactly when the pc is aligned and its four bytes exist (R31, R48, R52). -/
theorem Mach.fetch_eq_word {W : Nat} {m : Mach W} {absent : List AddrRange} {w : BitVec 32} :
    m.fetch absent = .word w ↔
      m.pc.toNat % 4 = 0 ∧ present absent m.pc.toNat 4 = true ∧ w = m.fetchWord := by
  unfold Mach.fetch
  split
  · rename_i h; simp [h]
  · rename_i h
    split
    · rename_i hp; simp [hp, eq_comm]; omega
    · rename_i hp; simp [hp]

/-- All a step can do when it goes on: one of the two traps of the fetch, or an instruction (R31). -/
theorem step_next (h : step s = .next t) :
    s.mach.outcome = .running ∧
      ((s.mach.fetch s.cfg.absent = .misaligned ∧ t = s.raise (.unalignedAddressTrap s.mach.pc)) ∨
        (∃ w e, s.mach.fetch s.cfg.absent = .word w ∧ decodeUnder s.cfg w = .error e ∧
          t = s.raise (.illegalInstructionTrap w)) ∨
        (∃ w i, s.mach.fetch s.cfg.absent = .word w ∧ decodeUnder s.cfg w = .ok i ∧ exec i s = .next t)) := by
  unfold step at h
  split at h
  · cases h
  · rename_i ho
    refine ⟨not_not.mp ho, ?_⟩
    split at h
    · rename_i hf; exact .inl ⟨hf, by simpa using h.symm⟩
    · cases h
    · rename_i w hf
      split at h
      · rename_i e he; exact .inr (.inl ⟨w, e, hf, he, by simpa using h.symm⟩)
      · rename_i i hi; exact .inr (.inr ⟨w, i, hf, hi, h⟩)

/-- The step of a running machine whose pc holds a legal instruction is that instruction's meaning (R31). -/
theorem step_exec {w : BitVec 32} {i : Instr} (ho : s.mach.outcome = .running)
    (hf : s.mach.fetch s.cfg.absent = .word w) (hd : decodeUnder s.cfg w = .ok i) : step s = exec i s := by
  simp [step, ho, hf, hd]

end Sys2Proof.Machine
end

