-- ==== Sys2Proof/Laws/Legality.lean ====
section
/-! SUPPORT. The check of a term is the legality of R81 and R82. -/

namespace Sys2Proof.Machine

/-- The check of the decoder passes exactly the legal terms (R81, R82). -/
theorem wellFormed_iff_legal (wd : Width) (i : Instr) : WellFormed wd i ↔ Legal wd i := by
  cases i <;> simp only [WellFormed, check, Legal, posCheck, bitCheck, fieldCheck, ite_eq_right_iff, reduceCtorEq,
    imp_false, Nat.not_le, Nat.not_lt]
  case load8 | load8Update | store8 | store8Update => cases wd <;> decide
  case muxRev | muxMix | muxShuf | muxAlt | muxBrcst => rename_i sw _ _; cases wd <;> cases sw <;> decide
  all_goals (rename_i sw _ _ _; cases wd <;> cases sw <;> decide)

end Sys2Proof.Machine
end

