-- ==== Sys2Proof/Laws/PerInstr.lean ====
section
/-! SUPPORT. Families of statements over every instruction, one lemma for each constructor. -/

namespace Sys2Proof.Laws.EncodeHead

/-- The head of an encoded word: an opcode of the map, none of the reserved 00 and 39 to 3F, and the instruction's
qualifying predicate (R61, R76, R78). -/
def Statement (i : Instr) : Prop :=
  0x01 ≤ opOf (encode i) ∧ opOf (encode i) ≤ 0x38 ∧ qpOf (encode i) = i.qp

/-- The head of a word with an opcode of the map. -/
theorem ofHead {op rest : Nat} (qp : PredNum) (h1 : 0x01 ≤ op) (h2 : op ≤ 0x38) (hrest : rest < 2 ^ 23) :
    0x01 ≤ opOf (encHead op qp rest) ∧ opOf (encHead op qp rest) ≤ 0x38 ∧ qpOf (encHead op qp rest) = qp := by
  rw [opOf_encHead qp (by omega) hrest, qpOf_encHead qp (by omega) hrest]
  exact ⟨h1, h2, rfl⟩

/-- The codes fit their fields. -/
theorem code_le (sw : Sw) : sw.code ≤ 3 := by cases sw <;> decide
/-- The codes fit their fields. -/
theorem mulCode_le (sa : MulSa) : sa.code ≤ 3 := by cases sa <;> decide
/-- The codes fit their fields. -/
theorem addCode_le (sa : AddSa) : sa.code ≤ 3 := by cases sa <;> decide
/-- The codes fit their fields. -/
theorem relCode_le (rel : Rel) : rel.code ≤ 9 := by cases rel <;> decide

theorem jmp (qp : PredNum) (imm23 : BitVec 23) : Statement (.jmp qp imm23) :=
  ofHead qp (by decide) (by decide) (by omega)
theorem jmpLink (qp : PredNum) (imm23 : BitVec 23) : Statement (.jmpLink qp imm23) :=
  ofHead qp (by decide) (by decide) (by omega)
theorem jmpReg (qp : PredNum) (rd : Reg) : Statement (.jmpReg qp rd) :=
  ofHead qp (by decide) (by decide) (by omega)
theorem jmpRegLink (qp : PredNum) (rd : Reg) : Statement (.jmpRegLink qp rd) :=
  ofHead qp (by decide) (by decide) (by omega)
theorem trap (qp : PredNum) : Statement (.trap qp) :=
  ofHead qp (by decide) (by decide) (by omega)
theorem changepr (qp : PredNum) (imm4 : SetNum) : Statement (.changepr qp imm4) :=
  ofHead qp (by decide) (by decide) (by omega)
theorem changeprLd (qp : PredNum) (imm4 : SetNum) (imm8 : BitVec 8) : Statement (.changeprLd qp imm4 imm8) :=
  ofHead qp (by decide) (by decide) (by omega)
theorem cmp (qp : PredNum) (rel : Rel) (rs1 rs2 : Reg) (pd1 pd2 : PredNum) : Statement (.cmp qp rel rs1 rs2 pd1 pd2) :=
  ofHead qp (by decide) (by decide) (by have := relCode_le rel; omega)
theorem cmpPw0 (qp : PredNum) (rel : Rel) (rs1 rs2 : Reg) (pd1 pd2 : PredNum) : Statement (.cmpPw0 qp rel rs1 rs2 pd1 pd2) :=
  ofHead qp (by decide) (by decide) (by have := relCode_le rel; omega)
theorem cmpPw1 (qp : PredNum) (rel : Rel) (rs1 rs2 : Reg) (pd1 pd2 : PredNum) : Statement (.cmpPw1 qp rel rs1 rs2 pd1 pd2) :=
  ofHead qp (by decide) (by decide) (by have := relCode_le rel; omega)
theorem cmpi (qp : PredNum) (rel : Rel) (rs1 : Reg) (imm8 : BitVec 8) (pd1 pd2 : PredNum) : Statement (.cmpi qp rel rs1 imm8 pd1 pd2) :=
  ofHead qp (by decide) (by decide) (by have := relCode_le rel; omega)
theorem testbit (qp : PredNum) (rs1 : Reg) (imm8 : BitVec 8) (pd1 pd2 : PredNum) : Statement (.testbit qp rs1 imm8 pd1 pd2) :=
  ofHead qp (by decide) (by decide) (by omega)
theorem loadiZ (qp : PredNum) (pos : Fin 4) (rd : Reg) (imm16 : BitVec 16) : Statement (.loadiZ qp pos rd imm16) :=
  ofHead qp (by decide) (by decide) (by omega)
theorem loadiK (qp : PredNum) (pos : Fin 4) (rd : Reg) (imm16 : BitVec 16) : Statement (.loadiK qp pos rd imm16) :=
  ofHead qp (by decide) (by decide) (by omega)
theorem load4 (qp : PredNum) (rd rs1 : Reg) (imm13 : BitVec 13) : Statement (.load4 qp rd rs1 imm13) :=
  ofHead qp (by decide) (by decide) (by omega)
theorem load8 (qp : PredNum) (rd rs1 : Reg) (imm13 : BitVec 13) : Statement (.load8 qp rd rs1 imm13) :=
  ofHead qp (by decide) (by decide) (by omega)
theorem load4Update (qp : PredNum) (rd rs1 : Reg) (imm13 : BitVec 13) : Statement (.load4Update qp rd rs1 imm13) :=
  ofHead qp (by decide) (by decide) (by omega)
theorem load8Update (qp : PredNum) (rd rs1 : Reg) (imm13 : BitVec 13) : Statement (.load8Update qp rd rs1 imm13) :=
  ofHead qp (by decide) (by decide) (by omega)
theorem loadx (qp : PredNum) (sw : Sw) (rd rs1 rs2 : Reg) : Statement (.loadx qp sw rd rs1 rs2) :=
  ofHead qp (by decide) (by decide) (by have := code_le sw; omega)
theorem loadxUpdate (qp : PredNum) (sw : Sw) (rd rs1 rs2 : Reg) : Statement (.loadxUpdate qp sw rd rs1 rs2) :=
  ofHead qp (by decide) (by decide) (by have := code_le sw; omega)
theorem store1 (qp : PredNum) (rd rs1 : Reg) (imm13 : BitVec 13) : Statement (.store1 qp rd rs1 imm13) :=
  ofHead qp (by decide) (by decide) (by omega)
theorem store2 (qp : PredNum) (rd rs1 : Reg) (imm13 : BitVec 13) : Statement (.store2 qp rd rs1 imm13) :=
  ofHead qp (by decide) (by decide) (by omega)
theorem store4 (qp : PredNum) (rd rs1 : Reg) (imm13 : BitVec 13) : Statement (.store4 qp rd rs1 imm13) :=
  ofHead qp (by decide) (by decide) (by omega)
theorem store8 (qp : PredNum) (rd rs1 : Reg) (imm13 : BitVec 13) : Statement (.store8 qp rd rs1 imm13) :=
  ofHead qp (by decide) (by decide) (by omega)
theorem store1Update (qp : PredNum) (rd rs1 : Reg) (imm13 : BitVec 13) : Statement (.store1Update qp rd rs1 imm13) :=
  ofHead qp (by decide) (by decide) (by omega)
theorem store2Update (qp : PredNum) (rd rs1 : Reg) (imm13 : BitVec 13) : Statement (.store2Update qp rd rs1 imm13) :=
  ofHead qp (by decide) (by decide) (by omega)
theorem store4Update (qp : PredNum) (rd rs1 : Reg) (imm13 : BitVec 13) : Statement (.store4Update qp rd rs1 imm13) :=
  ofHead qp (by decide) (by decide) (by omega)
theorem store8Update (qp : PredNum) (rd rs1 : Reg) (imm13 : BitVec 13) : Statement (.store8Update qp rd rs1 imm13) :=
  ofHead qp (by decide) (by decide) (by omega)
theorem addi (qp : PredNum) (rd rs1 : Reg) (imm13 : BitVec 13) : Statement (.addi qp rd rs1 imm13) :=
  ofHead qp (by decide) (by decide) (by omega)
theorem andi (qp : PredNum) (rd rs1 : Reg) (imm13 : BitVec 13) : Statement (.andi qp rd rs1 imm13) :=
  ofHead qp (by decide) (by decide) (by omega)
theorem ori (qp : PredNum) (rd rs1 : Reg) (imm13 : BitVec 13) : Statement (.ori qp rd rs1 imm13) :=
  ofHead qp (by decide) (by decide) (by omega)
theorem subi (qp : PredNum) (rd rs1 : Reg) (imm13 : BitVec 13) : Statement (.subi qp rd rs1 imm13) :=
  ofHead qp (by decide) (by decide) (by omega)
theorem xori (qp : PredNum) (rd rs1 : Reg) (imm13 : BitVec 13) : Statement (.xori qp rd rs1 imm13) :=
  ofHead qp (by decide) (by decide) (by omega)
theorem slli (qp : PredNum) (rd rs1 : Reg) (imm13 : BitVec 13) : Statement (.slli qp rd rs1 imm13) :=
  ofHead qp (by decide) (by decide) (by omega)
theorem srai (qp : PredNum) (rd rs1 : Reg) (imm13 : BitVec 13) : Statement (.srai qp rd rs1 imm13) :=
  ofHead qp (by decide) (by decide) (by omega)
theorem srli (qp : PredNum) (rd rs1 : Reg) (imm13 : BitVec 13) : Statement (.srli qp rd rs1 imm13) :=
  ofHead qp (by decide) (by decide) (by omega)
theorem shrp (qp : PredNum) (rd rs1 rs2 : Reg) (imm8 : BitVec 8) : Statement (.shrp qp rd rs1 rs2 imm8) :=
  ofHead qp (by decide) (by decide) (by omega)
theorem extract (qp : PredNum) (rd rs1 : Reg) (imm7 : BitVec 7) (imm6 : BitVec 6) : Statement (.extract qp rd rs1 imm7 imm6) :=
  ofHead qp (by decide) (by decide) (by omega)
theorem deposit (qp : PredNum) (rd rs1 : Reg) (imm7 : BitVec 7) (imm6 : BitVec 6) : Statement (.deposit qp rd rs1 imm7 imm6) :=
  ofHead qp (by decide) (by decide) (by omega)
theorem padd (qp : PredNum) (sw : Sw) (rd rs1 rs2 : Reg) : Statement (.padd qp sw rd rs1 rs2) :=
  ofHead qp (by decide) (by decide) (by have := code_le sw; omega)
theorem paddU (qp : PredNum) (sw : Sw) (rd rs1 rs2 : Reg) : Statement (.paddU qp sw rd rs1 rs2) :=
  ofHead qp (by decide) (by decide) (by have := code_le sw; omega)
theorem paddS (qp : PredNum) (sw : Sw) (rd rs1 rs2 : Reg) : Statement (.paddS qp sw rd rs1 rs2) :=
  ofHead qp (by decide) (by decide) (by have := code_le sw; omega)
theorem paddincr (qp : PredNum) (sw : Sw) (rd rs1 rs2 : Reg) : Statement (.paddincr qp sw rd rs1 rs2) :=
  ofHead qp (by decide) (by decide) (by have := code_le sw; omega)
theorem psub (qp : PredNum) (sw : Sw) (rd rs1 rs2 : Reg) : Statement (.psub qp sw rd rs1 rs2) :=
  ofHead qp (by decide) (by decide) (by have := code_le sw; omega)
theorem psubU (qp : PredNum) (sw : Sw) (rd rs1 rs2 : Reg) : Statement (.psubU qp sw rd rs1 rs2) :=
  ofHead qp (by decide) (by decide) (by have := code_le sw; omega)
theorem psubS (qp : PredNum) (sw : Sw) (rd rs1 rs2 : Reg) : Statement (.psubS qp sw rd rs1 rs2) :=
  ofHead qp (by decide) (by decide) (by have := code_le sw; omega)
theorem psubdecr (qp : PredNum) (sw : Sw) (rd rs1 rs2 : Reg) : Statement (.psubdecr qp sw rd rs1 rs2) :=
  ofHead qp (by decide) (by decide) (by have := code_le sw; omega)
theorem pavg (qp : PredNum) (sw : Sw) (rd rs1 rs2 : Reg) : Statement (.pavg qp sw rd rs1 rs2) :=
  ofHead qp (by decide) (by decide) (by have := code_le sw; omega)
theorem pavgRaz (qp : PredNum) (sw : Sw) (rd rs1 rs2 : Reg) : Statement (.pavgRaz qp sw rd rs1 rs2) :=
  ofHead qp (by decide) (by decide) (by have := code_le sw; omega)
theorem psubavg (qp : PredNum) (sw : Sw) (rd rs1 rs2 : Reg) : Statement (.psubavg qp sw rd rs1 rs2) :=
  ofHead qp (by decide) (by decide) (by have := code_le sw; omega)
theorem andReg (qp : PredNum) (rd rs1 rs2 : Reg) : Statement (.andReg qp rd rs1 rs2) :=
  ofHead qp (by decide) (by decide) (by omega)
theorem andcm (qp : PredNum) (rd rs1 rs2 : Reg) : Statement (.andcm qp rd rs1 rs2) :=
  ofHead qp (by decide) (by decide) (by omega)
theorem orReg (qp : PredNum) (rd rs1 rs2 : Reg) : Statement (.orReg qp rd rs1 rs2) :=
  ofHead qp (by decide) (by decide) (by omega)
theorem xorReg (qp : PredNum) (rd rs1 rs2 : Reg) : Statement (.xorReg qp rd rs1 rs2) :=
  ofHead qp (by decide) (by decide) (by omega)
theorem notReg (qp : PredNum) (rd rs1 : Reg) : Statement (.notReg qp rd rs1) :=
  ofHead qp (by decide) (by decide) (by omega)
theorem pcmpEq (qp : PredNum) (sw : Sw) (rd rs1 rs2 : Reg) : Statement (.pcmpEq qp sw rd rs1 rs2) :=
  ofHead qp (by decide) (by decide) (by have := code_le sw; omega)
theorem pcmpGt (qp : PredNum) (sw : Sw) (rd rs1 rs2 : Reg) : Statement (.pcmpGt qp sw rd rs1 rs2) :=
  ofHead qp (by decide) (by decide) (by have := code_le sw; omega)
theorem pmax (qp : PredNum) (sw : Sw) (rd rs1 rs2 : Reg) : Statement (.pmax qp sw rd rs1 rs2) :=
  ofHead qp (by decide) (by decide) (by have := code_le sw; omega)
theorem pmin (qp : PredNum) (sw : Sw) (rd rs1 rs2 : Reg) : Statement (.pmin qp sw rd rs1 rs2) :=
  ofHead qp (by decide) (by decide) (by have := code_le sw; omega)
theorem pshiftaddL (qp : PredNum) (sa : AddSa) (rd rs1 rs2 : Reg) : Statement (.pshiftaddL qp sa rd rs1 rs2) :=
  ofHead qp (by decide) (by decide) (by have := addCode_le sa; omega)
theorem pshiftaddR (qp : PredNum) (sa : AddSa) (rd rs1 rs2 : Reg) : Statement (.pshiftaddR qp sa rd rs1 rs2) :=
  ofHead qp (by decide) (by decide) (by have := addCode_le sa; omega)
theorem pmulOdd (qp : PredNum) (rd rs1 rs2 : Reg) : Statement (.pmulOdd qp rd rs1 rs2) :=
  ofHead qp (by decide) (by decide) (by omega)
theorem pmulOddU (qp : PredNum) (rd rs1 rs2 : Reg) : Statement (.pmulOddU qp rd rs1 rs2) :=
  ofHead qp (by decide) (by decide) (by omega)
theorem pmulEven (qp : PredNum) (rd rs1 rs2 : Reg) : Statement (.pmulEven qp rd rs1 rs2) :=
  ofHead qp (by decide) (by decide) (by omega)
theorem pmulEvenU (qp : PredNum) (rd rs1 rs2 : Reg) : Statement (.pmulEvenU qp rd rs1 rs2) :=
  ofHead qp (by decide) (by decide) (by omega)
theorem pmulshr (qp : PredNum) (sa : MulSa) (rd rs1 rs2 : Reg) : Statement (.pmulshr qp sa rd rs1 rs2) :=
  ofHead qp (by decide) (by decide) (by have := mulCode_le sa; omega)
theorem pmulshrA (qp : PredNum) (sa : MulSa) (rd rs1 rs2 : Reg) : Statement (.pmulshrA qp sa rd rs1 rs2) :=
  ofHead qp (by decide) (by decide) (by have := mulCode_le sa; omega)
theorem pshiftL (qp : PredNum) (sw : Sw) (rd rs1 rs2 : Reg) : Statement (.pshiftL qp sw rd rs1 rs2) :=
  ofHead qp (by decide) (by decide) (by have := code_le sw; omega)
theorem pshiftR (qp : PredNum) (sw : Sw) (rd rs1 rs2 : Reg) : Statement (.pshiftR qp sw rd rs1 rs2) :=
  ofHead qp (by decide) (by decide) (by have := code_le sw; omega)
theorem pshiftRa (qp : PredNum) (sw : Sw) (rd rs1 rs2 : Reg) : Statement (.pshiftRa qp sw rd rs1 rs2) :=
  ofHead qp (by decide) (by decide) (by have := code_le sw; omega)
theorem pshiftiL (qp : PredNum) (sw : Sw) (rd rs1 : Reg) (imm5 : BitVec 5) : Statement (.pshiftiL qp sw rd rs1 imm5) :=
  ofHead qp (by decide) (by decide) (by have := imm5.isLt; simp only [imm5Field]; have := code_le sw; omega)
theorem pshiftiR (qp : PredNum) (sw : Sw) (rd rs1 : Reg) (imm5 : BitVec 5) : Statement (.pshiftiR qp sw rd rs1 imm5) :=
  ofHead qp (by decide) (by decide) (by have := imm5.isLt; simp only [imm5Field]; have := code_le sw; omega)
theorem pshiftiRa (qp : PredNum) (sw : Sw) (rd rs1 : Reg) (imm5 : BitVec 5) : Statement (.pshiftiRa qp sw rd rs1 imm5) :=
  ofHead qp (by decide) (by decide) (by have := imm5.isLt; simp only [imm5Field]; have := code_le sw; omega)
theorem mixL (qp : PredNum) (sw : Sw) (rd rs1 rs2 : Reg) : Statement (.mixL qp sw rd rs1 rs2) :=
  ofHead qp (by decide) (by decide) (by have := code_le sw; omega)
theorem mixR (qp : PredNum) (sw : Sw) (rd rs1 rs2 : Reg) : Statement (.mixR qp sw rd rs1 rs2) :=
  ofHead qp (by decide) (by decide) (by have := code_le sw; omega)
theorem muxRev (qp : PredNum) (sw : Sw) (rd rs1 : Reg) : Statement (.muxRev qp sw rd rs1) :=
  ofHead qp (by decide) (by decide) (by have := code_le sw; omega)
theorem muxMix (qp : PredNum) (sw : Sw) (rd rs1 : Reg) : Statement (.muxMix qp sw rd rs1) :=
  ofHead qp (by decide) (by decide) (by have := code_le sw; omega)
theorem muxShuf (qp : PredNum) (sw : Sw) (rd rs1 : Reg) : Statement (.muxShuf qp sw rd rs1) :=
  ofHead qp (by decide) (by decide) (by have := code_le sw; omega)
theorem muxAlt (qp : PredNum) (sw : Sw) (rd rs1 : Reg) : Statement (.muxAlt qp sw rd rs1) :=
  ofHead qp (by decide) (by decide) (by have := code_le sw; omega)
theorem muxBrcst (qp : PredNum) (sw : Sw) (rd rs1 : Reg) : Statement (.muxBrcst qp sw rd rs1) :=
  ofHead qp (by decide) (by decide) (by have := code_le sw; omega)
theorem perm (qp : PredNum) (rd rs1 rs2 : Reg) : Statement (.perm qp rd rs1 rs2) :=
  ofHead qp (by decide) (by decide) (by omega)

end Sys2Proof.Laws.EncodeHead
end

