-- ==== Sys2Proof/Laws/Subword.lean ====
section
/-! SUPPORT. What the subword operations do, once for each: reading back an assembled register, the parallel and the
permuting forms, bit fields, and saturation. -/

namespace Sys2Proof.Machine

/-- The bits of an assembled register. -/
theorem getLsbD_assemble (W b : Nat) (f : Nat → BitVec b) (n i : Nat) :
    (assemble W b f n).getLsbD i = (decide (i < W) && decide (i < n * b) && (f (i / b)).getLsbD (i % b)) := by
  induction n with
  | zero => simp [assemble]
  | succ n ih =>
    by_cases hW : i < W
    · rw [assemble, BitVec.getLsbD_or, ih, BitVec.getLsbD_shiftLeft]
      have hmul : (n + 1) * b = n * b + b := by ring
      by_cases h1 : i < n * b
      · have h2 : i < (n + 1) * b := by omega
        simp [hW, h1, h2]
      · by_cases h2 : i < (n + 1) * b
        · have hb : 0 < b := by
            rcases Nat.eq_zero_or_pos b with h | h
            · subst h; simp at h2
            · exact h
          have hdiv : i / b = n := by
            rw [Nat.div_eq_iff hb]; omega
          have hmod : i % b = i - n * b := by
            have := Nat.div_add_mod i b
            rw [hdiv, Nat.mul_comm] at this; omega
          have hlt : i - n * b < W := by omega
          simp [hW, h1, h2, hdiv, hmod, hlt]
        · have hge : b ≤ i - n * b := by omega
          simp [hW, h1, h2, BitVec.getLsbD_of_ge (f n) _ hge]
    · simp [BitVec.getLsbD_of_ge _ i (Nat.le_of_not_lt hW), hW]

/-- The bits of a subword (R11). -/
theorem getLsbD_subword {W : Nat} (v : BitVec W) (b k i : Nat) :
    (subword v b k).getLsbD i = (decide (i < b) && v.getLsbD (k * b + i)) := by
  simp [subword, BitVec.getLsbD_extractLsb']

/-- Subword `k` of a register made of its subwords is the `k`-th one (R160). -/
theorem subword_bySubword {W b k : Nat} (f : Nat → BitVec b) (hk : k < W / b) :
    subword (bySubword W b f) b k = f k := by
  have hle : (k + 1) * b ≤ W / b * b := Nat.mul_le_mul_right b hk
  have hW : W / b * b ≤ W := Nat.div_mul_le_self W b
  have hmul : (k + 1) * b = k * b + b := by ring
  apply BitVec.eq_of_getLsbD_eq
  intro i hi
  have hdiv : (k * b + i) / b = k := by
    rw [Nat.div_eq_iff (by omega)]; omega
  have hmod : (k * b + i) % b = i := by
    rw [Nat.mul_comm, Nat.mul_add_mod]; exact Nat.mod_eq_of_lt hi
  have h1 : k * b + i < W := by omega
  have h2 : k * b + i < W / b * b := by omega
  rw [getLsbD_subword, bySubword, getLsbD_assemble, hdiv, hmod]
  simp [hi, h1, h2]

/-- A register whose width is a multiple of `b` is determined by its subwords (R11). -/
theorem eq_of_subwords {W b : Nat} (x y : BitVec W) (hb : W / b * b = W)
    (h : ∀ k < W / b, subword x b k = subword y b k) : x = y := by
  apply BitVec.eq_of_getLsbD_eq
  intro i hi
  have hpos : 0 < b := by
    rcases Nat.eq_zero_or_pos b with h0 | h0
    · subst h0; simp at hb; omega
    · exact h0
  have hk : i / b < W / b := by
    rw [Nat.div_lt_iff_lt_mul hpos, hb]; exact hi
  have hbit := congrArg (fun v => v.getLsbD (i % b)) (h (i / b) hk)
  have hsum : i / b * b + i % b = i := by rw [Nat.mul_comm]; exact Nat.div_add_mod i b
  simp only [getLsbD_subword, Nat.mod_lt i hpos, hsum, decide_true, Bool.true_and] at hbit
  exact hbit

/-- What the one-source parallel form computes at each position. -/
theorem subword_parallel1 {W b k : Nat} (f : BitVec b → BitVec b) (v : BitVec W) (hk : k < W / b) :
    subword (parallel1 b f v) b k = f (subword v b k) :=
  subword_bySubword _ hk

/-- What the parallel form computes at each position (R160). -/
theorem subword_parallel2 {W b k : Nat} (f : BitVec b → BitVec b → BitVec b) (x y : BitVec W) (hk : k < W / b) :
    subword (parallel2 b f x y) b k = f (subword x b k) (subword y b k) :=
  subword_bySubword _ hk

/-- Where a permutation takes each subword from (R210). -/
theorem subword_permute {W b k : Nat} (sel : Nat → Nat) (a : BitVec W) (hk : k < W / b) :
    subword (permute b sel a) b k = subword a b (sel k) :=
  subword_bySubword _ hk

/-- The rule's arrangement, under the default reading of `NUM` and under a listed one that is no permutation. -/
theorem arranged_std {reading : Arrangement} {n : Nat} (std : Nat → Nat → Nat)
    (h : ∀ l, reading = .listed l → ¬l.Perm (List.range n)) : arranged reading std n = std n := by
  funext k
  cases reading with
  | standard => rfl
  | listed l => exact if_neg (mt List.isPerm_iff.mp (h l rfl))

/-- A listed arrangement of `NUM` (D29, D31). -/
theorem arranged_listed {l : List Nat} {n k : Nat} (std : Nat → Nat → Nat) (h : l.Perm (List.range n)) (hk : k < n) :
    l[k]? = some (arranged (.listed l) std n k) := by
  have hlen : k < l.length := by rw [h.length_eq, List.length_range]; exact hk
  simp [arranged, List.isPerm_iff.mpr h, hlen]

/-- The number that half of a product is, of a product read as unsigned (R195). -/
theorem toNat_productHalf (reading : ProductHalf) (t : BitVec 32) :
    (productHalf reading t).toNat = if reading = .low then t.toNat % 2 ^ 16 else t.toNat / 2 ^ 16 := by
  have := t.isLt
  cases reading
  · simp [productHalf]
  · simp [productHalf, BitVec.extractLsb'_toNat, Nat.shiftRight_eq_div_pow]; omega

/-- The bits of a field mask. -/
theorem getLsbD_fieldMask (W pos len i : Nat) :
    (fieldMask W pos len).getLsbD i = (decide (i < W) && decide (pos ≤ i) && decide (i < pos + len)) := by
  by_cases hW : i < W
  · by_cases hp : pos ≤ i
    · by_cases hl : i < pos + len
      · simp [fieldMask, hW, hp, hl, show i - pos < len by omega, Nat.not_lt.mpr hp]
      · simp [fieldMask, hp, hl, show ¬i - pos < len by omega]
    · simp [fieldMask, hp, show i < pos by omega]
  · simp [BitVec.getLsbD_of_ge _ i (Nat.le_of_not_lt hW), hW]

/-- The bits of a register after a field was inserted (R127, R155). -/
theorem getLsbD_insertField {W : Nat} (t v : BitVec W) (pos len i : Nat) (hi : i < W) :
    (insertField t pos len v).getLsbD i =
      if pos ≤ i ∧ i < pos + len then v.getLsbD (i - pos) else t.getLsbD i := by
  rw [insertField, BitVec.getLsbD_or, BitVec.getLsbD_and, BitVec.getLsbD_and, BitVec.getLsbD_not,
    getLsbD_fieldMask, BitVec.getLsbD_shiftLeft]
  by_cases hp : pos ≤ i
  · by_cases hl : i < pos + len
    · simp [hi, hp, hl, Nat.not_lt.mpr hp]
    · simp [hi, hl]
  · simp [hi, hp]

/-- The bits of an extracted field (R154). -/
theorem getLsbD_extractField {W : Nat} (v : BitVec W) (pos len i : Nat) (hi : i < W) :
    (extractField v pos len).getLsbD i = (decide (i < len) && v.getLsbD (pos + i)) := by
  simp [extractField, hi, BitVec.getLsbD_extractLsb']

/-- The number an unsigned saturation gives: the value clamped to the range (R12). -/
theorem toNat_satU (b : Nat) (z : Int) :
    ((satU b z).toNat : Int) = min (max z 0) (((2 ^ b : Nat) : Int) - 1) := by
  have hpos : 0 < 2 ^ b := Nat.two_pow_pos b
  rw [satU, BitVec.toNat_ofInt, Int.toNat_of_nonneg (Int.emod_nonneg _ (by omega))]
  apply Int.emod_eq_of_lt <;> omega

/-- The number a signed saturation gives: the value clamped to the range (R12). -/
theorem toInt_satS (b : Nat) (hb : 0 < b) (z : Int) :
    (satS b z).toInt =
      min (max z (-((2 ^ (b - 1) : Nat) : Int))) (((2 ^ (b - 1) : Nat) : Int) - 1) := by
  have hpos : 0 < 2 ^ (b - 1) := Nat.two_pow_pos _
  have h2 : 2 ^ b = 2 * 2 ^ (b - 1) := by
    rw [← pow_succ']; congr 1; omega
  rw [satS, BitVec.toInt_ofInt]
  generalize hp : 2 ^ (b - 1) = p at *
  apply Int.bmod_eq_of_le <;> (rw [h2]; omega)

/-- The bits of a byte or a word after its lowest bit was replaced. -/
theorem getLsbD_putLowBit {b : Nat} (v : BitVec b) (low : Bool) (i : Nat) (hi : i < b) :
    (putLowBit v low).getLsbD i = if i = 0 then low else v.getLsbD i := by
  by_cases h : i = 0
  · subst h; cases low <;> simp [putLowBit, hi]
  · cases low <;> simp [putLowBit, BitVec.getLsbD_one, hi, h]

/-- The bits of a sum or a difference halved to odd (R169, R171): every bit but the lowest is the bit above it, the
lowest is the or of two bits that the reading of `NUM` names. -/
theorem getLsbD_halveToOdd {b : Nat} (reading : AvgLow) (t : BitVec (b + 1)) (i : Nat) (hb : 2 ≤ b) (hi : i < b) :
    (halveToOdd reading t).getLsbD i =
      if i = 0 then
        (if reading = .beforeShift then t.getLsbD 1 || t.getLsbD 0 else t.getLsbD 2 || t.getLsbD 1)
      else t.getLsbD (i + 1) := by
  have h1 : 1 < b := by omega
  have h0 : 0 < b := by omega
  cases reading <;> simp only [halveToOdd, getLsbD_putLowBit _ _ _ hi, BitVec.getLsbD_extractLsb', hi, h1, h0,
    decide_true, Bool.true_and, reduceCtorEq, if_true, if_false, Nat.add_comm 1 i, Nat.reduceAdd]

/-- The signed product of two halfwords is exact (R190, R191). -/
theorem toInt_mulS (a c : BitVec 16) : (mulS a c).toInt = a.toInt * c.toInt := by
  have h1 := a.toInt_lt
  have h2 := a.le_toInt
  have h3 := c.toInt_lt
  have h4 := c.le_toInt
  norm_num at h1 h2 h3 h4
  rw [mulS, BitVec.toInt_ofInt]
  apply Int.bmod_eq_of_le <;> norm_num <;> nlinarith

/-- The unsigned product of two halfwords is exact (R190, R192). -/
theorem toNat_mulU (a c : BitVec 16) : (mulU a c).toNat = a.toNat * c.toNat := by
  have h1 := a.isLt
  have h2 := c.isLt
  rw [mulU, BitVec.toNat_ofNat, Nat.mod_eq_of_lt]
  nlinarith

end Sys2Proof.Machine
end

