-- ==== Sys2Proof/Tests/Slice0.lean ====
section
/-! SUPPORT. The author's own tests: ill-formed terms, a written-out word for every constructor, one step of every
instruction, and a witness for every obligation that has hypotheses. Expected values come from the spec's test vectors
(the number after V is the row of spec/95_test_vectors.md) or are worked by hand from the rule named. -/

set_option Elab.async false

namespace Sys2Proof.Tests

open Sys2Proof Sys2Proof.Machine

/-! ### Helpers -/

/-- The reset machine of width `wd` at pc 0x1000, with the given registers and the word `w` to run next. -/
def machine (wd : Width) (regs : List (Nat × Nat)) (w : Nat) : State :=
  let m : Mach wd.bits :=
    { gpr := Vector.replicate 31 0, pr := Vector.replicate 16 1, aps := 0, pc := 0x1000, mem := [], outcome := .running }
  let s : State :=
    ⟨{ Config.standard with width := wd }, regs.foldl (fun m r => m.rset (Fin.ofNat 32 r.1) (BitVec.ofNat _ r.2)) m⟩
  s.withFetchWord 32 w

def at64 (regs : List (Nat × Nat)) (w : Nat) : State := machine .w64 regs w
def at32 (regs : List (Nat × Nat)) (w : Nat) : State := machine .w32 regs w
def at128 (regs : List (Nat × Nat)) (w : Nat) : State := machine .w128 regs w

/-- The machine moved to another pc, with the word `w` there. -/
def movedTo (s : State) (pc w : Nat) : State := (s.withMach (s.mach.jumpTo (BitVec.ofNat _ pc))).withFetchWord 32 w

/-- The machine whose predicate set 0 holds the given byte. -/
def withSet (s : State) (v : Nat) : State := s.withMach { s.mach with pr := s.mach.pr.set 0 (BitVec.ofNat 8 v) }

/-- The machine with the memory image `M_A` of the spec's vectors: 16 bytes at 0x2000. -/
def withMA (s : State) : State :=
  s.withMach (s.mach.store 16 0x2000 0xFFEEDDCCBBAA99888877665544332211)

/-- The machine with another configuration of the same width. -/
def withNum (s : State) (n : Num) : State := ⟨{ s.cfg with num := n }, s.mach⟩

/-- The machine with an encoding that differs from the default on the given words. -/
def withEnc (s : State) (enc : List EncEntry) : State := ⟨{ s.cfg with enc := enc }, s.mach⟩

/-- The machine on which the given ranges of addresses do not exist. -/
def withAbsent (s : State) (absent : List AddrRange) : State := ⟨{ s.cfg with absent := absent }, s.mach⟩

/-- Whether the answer is a next state for which `p` holds. -/
def nextWith (o : Host.Outcome State Fault Refusal) (p : State → Bool) : Bool :=
  match o with
  | .next t => p t
  | _ => false

/-- What a next state holds, as a statement. -/
theorem next_of {o : Host.Outcome State Fault Refusal} {p : State → Bool} (h : nextWith o p = true) :
    ∃ t, o = .next t ∧ p t = true := by
  cases o with
  | next t => exact ⟨t, rfl, h⟩
  | fault f => cases h
  | refused r => cases h

/-- A register after one step that goes on. -/
def reg (s : State) (r : Reg) : Option Nat :=
  match step s with
  | .next t => if t.mach.outcome = .running then some (t.mach.rget r).toNat else none
  | _ => none

/-- A predicate set after one step that goes on. -/
def preds (s : State) (k : SetNum) : Option Nat :=
  match step s with
  | .next t => if t.mach.outcome = .running then some (t.mach.pr[k.val]'k.isLt).toNat else none
  | _ => none

/-- The active set after one step that goes on. -/
def active (s : State) : Option Nat :=
  match step s with
  | .next t => if t.mach.outcome = .running then some t.mach.aps.val else none
  | _ => none

/-- The pc after one step that goes on. -/
def nextPc (s : State) : Option Nat :=
  match step s with
  | .next t => if t.mach.outcome = .running then some t.mach.pc.toNat else none
  | _ => none

/-- The `n` bytes at `a`, the least significant first, after one step that goes on. -/
def bytes (s : State) (a n : Nat) : Option Nat :=
  match step s with
  | .next t => if t.mach.outcome = .running then some (t.mach.mem.readLE a n) else none
  | _ => none

/-- Whether one step ends the run in the outcome and changes nothing else (R236). -/
def ends (s : State) (o : RunOutcome s.W) : Bool := nextWith (step s) fun t => t == s.raise o

/-- Whether one step is refused. -/
def refuses (s : State) (r : Refusal) : Bool :=
  match step s with
  | .refused r' => r' == r
  | _ => false

/-! ### Ill-formed terms are refused by their check -/

theorem test_refuse_sizeNotOffered : check .w64 (.pavg 0 .b4 3 1 2) = some .sizeNotOffered := by decide
theorem test_refuse_sizeExceedsWidth : check .w32 (.padd 0 .b8 3 1 2) = some .sizeExceedsWidth := by decide
theorem test_refuse_load8_on_w32 : check .w32 (.load8 0 1 2 0) = some .sizeExceedsWidth := by decide
theorem test_refuse_fewerThanTwoSubwords : check .w32 (.mixL 0 .b4 3 1 2) = some .fewerThanTwoSubwords := by decide
theorem test_refuse_positionExceedsWidth : check .w32 (.loadiZ 0 2 1 1) = some .positionExceedsWidth := by decide
theorem test_refuse_bitNumberExceedsWidth : check .w64 (.testbit 0 1 64 1 2) = some .bitNumberExceedsWidth := by decide
theorem test_refuse_fieldExceedsWidth : check .w64 (.extract 0 3 1 2 63) = some .fieldExceedsWidth := by decide
theorem test_accept_boundaries :
    check .w64 (.extract 0 3 1 1 63) = none ∧ check .w64 (.testbit 0 1 63 1 2) = none ∧
      check .w32 (.loadiZ 0 1 1 1) = none ∧ check .w64 (.mixL 0 .b4 3 1 2) = none := by decide

/-! ### A written-out word of every constructor

The vectors' words, each read off the formats of R61 to R70 and the opcode map of R76. -/

/-! program flow -/

-- `jmp 16`, V1
theorem test_decode_jmp : decode .w64 0x04000010 = .ok (.jmp 0 16) := by decide
-- `jmp.link 0x20`, V7
theorem test_decode_jmpLink : decode .w64 0x08000020 = .ok (.jmpLink 0 32) := by decide
-- `jmp.reg R5`, V9
theorem test_decode_jmpReg : decode .w64 0x0C140000 = .ok (.jmpReg 0 5) := by decide
-- `jmp.reg.link R5`, V13
theorem test_decode_jmpRegLink : decode .w64 0x0C150000 = .ok (.jmpRegLink 0 5) := by decide
-- `trap`, V16
theorem test_decode_trap : decode .w64 0x10000000 = .ok (.trap 0) := by decide

/-! compare and predication -/

-- `changepr 5`, V23
theorem test_decode_changepr : decode .w64 0x14140000 = .ok (.changepr 0 5) := by decide
-- `changepr.ld 3,0xA5`, V25
theorem test_decode_changeprLd : decode .w64 0x140E9440 = .ok (.changeprLd 0 3 165) := by decide
-- `cmp.eq R1,R2,P1,P2`, V32
theorem test_decode_cmp : decode .w64 0x1804400A = .ok (.cmp 0 .eq 1 2 1 2) := by decide
-- `cmp.ne.pw0 R1,R2,P1,P2`, V43
theorem test_decode_cmpPw0 : decode .w64 0x1804428A = .ok (.cmpPw0 0 .ne 1 2 1 2) := by decide
-- `cmp.gt.pw1 R1,R2,P4,P5`, V45
theorem test_decode_cmpPw1 : decode .w64 0x18044925 = .ok (.cmpPw1 0 .gt 1 2 4 5) := by decide
-- `cmpi.lt R1,-1,P1,P2`, V50
theorem test_decode_cmpi : decode .w64 0x1C07FC8A = .ok (.cmpi 0 .lt 1 (-1) 1 2) := by decide
-- `testbit R1,63,P1,P2`, V55
theorem test_decode_testbit : decode .w64 0x2004FC0A = .ok (.testbit 0 1 63 1 2) := by decide

/-! memory access -/

-- `loadi.z.0 R1,0xBEEF`, V62
theorem test_decode_loadiZ : decode .w64 0x2404BEEF = .ok (.loadiZ 0 0 1 48879) := by decide
-- `loadi.k.1 R1,0xBEEF`, V64
theorem test_decode_loadiK : decode .w64 0x2805BEEF = .ok (.loadiK 0 1 1 48879) := by decide
-- `load.4 R1,R2,4`, V70
theorem test_decode_load4 : decode .w64 0x2C044004 = .ok (.load4 0 1 2 4) := by decide
-- `load.8 R1,R2,8`, V72
theorem test_decode_load8 : decode .w64 0x30044008 = .ok (.load8 0 1 2 8) := by decide
-- `load.4.update R1,R2,-4`, V81
theorem test_decode_load4Update : decode .w64 0x34045FFC = .ok (.load4Update 0 1 2 (-4)) := by decide
-- `load.8.update R1,R2,8`, V80
theorem test_decode_load8Update : decode .w64 0x38044008 = .ok (.load8Update 0 1 2 8) := by decide
-- `loadx.4 R1,R2,R3`, V85
theorem test_decode_loadx : decode .w64 0x3C044380 = .ok (.loadx 0 .b4 1 2 3) := by decide
-- `loadx.8.update R1,R2,R3`, V88
theorem test_decode_loadxUpdate : decode .w64 0x3C0443C1 = .ok (.loadxUpdate 0 .b8 1 2 3) := by decide
-- `store.1 R1,R2,3`, V91
theorem test_decode_store1 : decode .w64 0x40044003 = .ok (.store1 0 1 2 3) := by decide
-- `store.2 R1,R2,2`, V92
theorem test_decode_store2 : decode .w64 0x44044002 = .ok (.store2 0 1 2 2) := by decide
-- `store.4 R1,R2,4`, V93
theorem test_decode_store4 : decode .w64 0x48044004 = .ok (.store4 0 1 2 4) := by decide
-- `store.8 R1,R2,0`, V94
theorem test_decode_store8 : decode .w64 0x4C044000 = .ok (.store8 0 1 2 0) := by decide
-- `store.1.update R1,R2,1`, V100
theorem test_decode_store1Update : decode .w64 0x50044001 = .ok (.store1Update 0 1 2 1) := by decide
-- `store.2.update R1,R2,2`, V102
theorem test_decode_store2Update : decode .w64 0x54044002 = .ok (.store2Update 0 1 2 2) := by decide
-- `store.4.update R1,R2,-4`, V99
theorem test_decode_store4Update : decode .w64 0x58045FFC = .ok (.store4Update 0 1 2 (-4)) := by decide
-- `store.8.update R2,R2,8`, V101
theorem test_decode_store8Update : decode .w64 0x5C084008 = .ok (.store8Update 0 2 2 8) := by decide

/-! ALU with an immediate -/

-- `addi R1,R2,5`, V105
theorem test_decode_addi : decode .w64 0x60044005 = .ok (.addi 0 1 2 5) := by decide
-- `andi R1,R2,0x1FFF`, V119
theorem test_decode_andi : decode .w64 0x64045FFF = .ok (.andi 0 1 2 8191) := by decide
-- `ori R1,R2,0x1FFF`, V121
theorem test_decode_ori : decode .w64 0x68045FFF = .ok (.ori 0 1 2 8191) := by decide
-- `subi R1,R2,5`, V116
theorem test_decode_subi : decode .w64 0x6C044005 = .ok (.subi 0 1 2 5) := by decide
-- `xori R1,R2,0x1FFF`, V123
theorem test_decode_xori : decode .w64 0x70045FFF = .ok (.xori 0 1 2 8191) := by decide

/-! shift and bit field -/

-- `slli R1,R2,4`, V125
theorem test_decode_slli : decode .w64 0x74044004 = .ok (.slli 0 1 2 4) := by decide
-- `srai R1,R2,4`, V134
theorem test_decode_srai : decode .w64 0x78044004 = .ok (.srai 0 1 2 4) := by decide
-- `srli R1,R2,4`, V131
theorem test_decode_srli : decode .w64 0x7C044004 = .ok (.srli 0 1 2 4) := by decide
-- `shrp R3,R1,R2,8`, V140
theorem test_decode_shrp : decode .w64 0x800C2208 = .ok (.shrp 0 3 1 2 8) := by decide
-- `extract R3,R1,8,12`, V149
theorem test_decode_extract : decode .w64 0x840C220C = .ok (.extract 0 3 1 8 12) := by decide
-- `deposit R3,R1,8,12`, V159
theorem test_decode_deposit : decode .w64 0x880C220C = .ok (.deposit 0 3 1 8 12) := by decide

/-! parallel and logical ALU -/

-- `padd.1 R3,R1,R2`, V166
theorem test_decode_padd : decode .w64 0x8C0C2200 = .ok (.padd 0 .b1 3 1 2) := by decide
-- `padd.2.u R3,R1,R2`, V170
theorem test_decode_paddU : decode .w64 0x8C0C2241 = .ok (.paddU 0 .b2 3 1 2) := by decide
-- `padd.2.s R3,R1,R2`, V171
theorem test_decode_paddS : decode .w64 0x8C0C2242 = .ok (.paddS 0 .b2 3 1 2) := by decide
-- `paddincr.2 R3,R1,R2`, V174
theorem test_decode_paddincr : decode .w64 0x900C2240 = .ok (.paddincr 0 .b2 3 1 2) := by decide
-- `psub.2 R3,R1,R2`, V175
theorem test_decode_psub : decode .w64 0x940C2240 = .ok (.psub 0 .b2 3 1 2) := by decide
-- `psub.2.u R3,R1,R2`, V177
theorem test_decode_psubU : decode .w64 0x940C2241 = .ok (.psubU 0 .b2 3 1 2) := by decide
-- `psub.2.s R3,R1,R2`, V178
theorem test_decode_psubS : decode .w64 0x940C2242 = .ok (.psubS 0 .b2 3 1 2) := by decide
-- `psubdecr.2 R3,R1,R2`, V180
theorem test_decode_psubdecr : decode .w64 0x980C2240 = .ok (.psubdecr 0 .b2 3 1 2) := by decide
-- `pavg.1 R3,R1,R2`, V188
theorem test_decode_pavg : decode .w64 0x9C0C2200 = .ok (.pavg 0 .b1 3 1 2) := by decide
-- `pavg.1.raz R3,R1,R2`, V189
theorem test_decode_pavgRaz : decode .w64 0x9C0C2201 = .ok (.pavgRaz 0 .b1 3 1 2) := by decide
-- `psubavg.1 R3,R1,R2`, V193
theorem test_decode_psubavg : decode .w64 0xA00C2200 = .ok (.psubavg 0 .b1 3 1 2) := by decide
-- `and R3,R1,R2`, V195
theorem test_decode_andReg : decode .w64 0xA40C2200 = .ok (.andReg 0 3 1 2) := by decide
-- `andcm R3,R1,R2`, V196
theorem test_decode_andcm : decode .w64 0xA80C2200 = .ok (.andcm 0 3 1 2) := by decide
-- `or R3,R1,R2`, V197
theorem test_decode_orReg : decode .w64 0xAC0C2200 = .ok (.orReg 0 3 1 2) := by decide
-- `xor R3,R1,R2`, V198
theorem test_decode_xorReg : decode .w64 0xB00C2200 = .ok (.xorReg 0 3 1 2) := by decide
-- `not R3,R1`, V199
theorem test_decode_notReg : decode .w64 0xB40C2000 = .ok (.notReg 0 3 1) := by decide
-- `pcmp.1.eq R3,R1,R2`, V204
theorem test_decode_pcmpEq : decode .w64 0xB80C2200 = .ok (.pcmpEq 0 .b1 3 1 2) := by decide
-- `pcmp.1.gt R3,R1,R2`, V207
theorem test_decode_pcmpGt : decode .w64 0xB80C2201 = .ok (.pcmpGt 0 .b1 3 1 2) := by decide
-- `pmax.1 R3,R1,R2`, V210
theorem test_decode_pmax : decode .w64 0xBC0C2200 = .ok (.pmax 0 .b1 3 1 2) := by decide
-- `pmin.1 R3,R1,R2`, V212
theorem test_decode_pmin : decode .w64 0xC00C2200 = .ok (.pmin 0 .b1 3 1 2) := by decide
-- `pshiftadd.1.l R3,R1,R2`, V215
theorem test_decode_pshiftaddL : decode .w64 0xC40C2240 = .ok (.pshiftaddL 0 .sa1 3 1 2) := by decide
-- `pshiftadd.1.r R3,R1,R2`, V218
theorem test_decode_pshiftaddR : decode .w64 0xC40C2241 = .ok (.pshiftaddR 0 .sa1 3 1 2) := by decide

/-! multiply -/

-- `pmul.odd R3,R1,R2`, V222
theorem test_decode_pmulOdd : decode .w64 0xC80C2200 = .ok (.pmulOdd 0 3 1 2) := by decide
-- `pmul.odd.u R3,R1,R2`, V223
theorem test_decode_pmulOddU : decode .w64 0xC80C2201 = .ok (.pmulOddU 0 3 1 2) := by decide
-- `pmul.even R3,R1,R2`, V224
theorem test_decode_pmulEven : decode .w64 0xC80C2202 = .ok (.pmulEven 0 3 1 2) := by decide
-- `pmul.even.u R3,R1,R2`, V225
theorem test_decode_pmulEvenU : decode .w64 0xC80C2203 = .ok (.pmulEvenU 0 3 1 2) := by decide
-- `pmulshr.0 R3,R1,R2`, V232
theorem test_decode_pmulshr : decode .w64 0xCC0C2200 = .ok (.pmulshr 0 .sa0 3 1 2) := by decide
-- `pmulshr.0.a R3,R1,R2`, V236
theorem test_decode_pmulshrA : decode .w64 0xCC0C2201 = .ok (.pmulshrA 0 .sa0 3 1 2) := by decide

/-! parallel shift -/

-- `pshift.2.l R3,R1,R2`, V244
theorem test_decode_pshiftL : decode .w64 0xD00C2240 = .ok (.pshiftL 0 .b2 3 1 2) := by decide
-- `pshift.2.r R3,R1,R2`, V245
theorem test_decode_pshiftR : decode .w64 0xD00C2241 = .ok (.pshiftR 0 .b2 3 1 2) := by decide
-- `pshift.2.ra R3,R1,R2`, V246
theorem test_decode_pshiftRa : decode .w64 0xD00C2242 = .ok (.pshiftRa 0 .b2 3 1 2) := by decide
-- `pshifti.2.l R3,R1,4`, V260
theorem test_decode_pshiftiL : decode .w64 0xD40C2440 = .ok (.pshiftiL 0 .b2 3 1 4) := by decide
-- `pshifti.2.r R3,R1,4`, V261
theorem test_decode_pshiftiR : decode .w64 0xD40C2441 = .ok (.pshiftiR 0 .b2 3 1 4) := by decide
-- `pshifti.2.ra R3,R1,4`, V262
theorem test_decode_pshiftiRa : decode .w64 0xD40C2442 = .ok (.pshiftiRa 0 .b2 3 1 4) := by decide

/-! permutation -/

-- `mix.1.l R3,R1,R2`, V276
theorem test_decode_mixL : decode .w64 0xD80C2200 = .ok (.mixL 0 .b1 3 1 2) := by decide
-- `mix.1.r R3,R1,R2`, V277
theorem test_decode_mixR : decode .w64 0xD80C2201 = .ok (.mixR 0 .b1 3 1 2) := by decide
-- `mux.1.rev R3,R1`, V285
theorem test_decode_muxRev : decode .w64 0xDC0C2000 = .ok (.muxRev 0 .b1 3 1) := by decide
-- `mux.1.mix R3,R1`, V286
theorem test_decode_muxMix : decode .w64 0xDC0C2001 = .ok (.muxMix 0 .b1 3 1) := by decide
-- `mux.1.shuf R3,R1`, V287
theorem test_decode_muxShuf : decode .w64 0xDC0C2002 = .ok (.muxShuf 0 .b1 3 1) := by decide
-- `mux.1.alt R3,R1`, V288
theorem test_decode_muxAlt : decode .w64 0xDC0C2003 = .ok (.muxAlt 0 .b1 3 1) := by decide
-- `mux.1.brcst R3,R1`, V289
theorem test_decode_muxBrcst : decode .w64 0xDC0C2004 = .ok (.muxBrcst 0 .b1 3 1) := by decide
-- `perm R3,R1,R2`, V296
theorem test_decode_perm : decode .w64 0xE00C2200 = .ok (.perm 0 3 1 2) := by decide

-- `(P2) padd.2 R3,R1,R2`, V187
theorem test_decode_predicated : decode .w64 0x8D0C2240 = .ok (.padd 2 .b2 3 1 2) := by decide

/-! ### Words that are no instruction -/

-- V20, V22: a field that must be zero is not
theorem test_decode_nonzeroField :
    decode .w64 0x10000001 = .error .nonzeroField ∧ decode .w64 0x0C140001 = .error .nonzeroField := by decide
-- V21, V47
theorem test_decode_reservedSubop :
    decode .w64 0x0C160000 = .error .reservedSubop ∧ decode .w64 0x1804458A = .error .reservedSubop := by decide
-- V48
theorem test_decode_reservedRelation : decode .w64 0x1804540A = .error .reservedRelation := by decide
-- R74: `pshiftadd` with amount code 00
theorem test_decode_reservedAmount : decode .w64 0xC40C2200 = .error .reservedAmount := by decide
-- R78
theorem test_decode_reservedOpcode :
    decode .w64 0x00000000 = .error .reservedOpcode ∧ decode .w64 0xFFFFFFFF = .error .reservedOpcode := by decide
-- V60
theorem test_decode_illFormed : decode .w32 0x2004800A = .error (.illFormed .bitNumberExceedsWidth) := by decide
-- R60
theorem test_decode_truncated : decodeBytes .w64 [0x00, 0x00, 0x00] = .error .truncated := by decide
-- V1, its bytes as R45 stores them
theorem test_decode_bytes : decodeBytes .w64 [0x10, 0x00, 0x00, 0x04, 0xAA] = .ok (.jmp 0 16, [0xAA]) := by decide
theorem test_decode_table_word : decodeTableWord 32 0x60044005 = some (.addi 0 1 2 5) := by decide

/-! ### One step of every instruction -/

/-! program flow -/

-- V1, V2
theorem test_step_jmp :
    nextPc (at64 [] 0x04000010) = some 0x1010 ∧
    nextPc (at64 [] 0x047FFFF8) = some 0xFF8 := by
  decide +kernel
-- V7
theorem test_step_jmpLink :
    reg (at64 [] 0x08000020) 31 = some 0x1004 ∧
    nextPc (at64 [] 0x08000020) = some 0x1020 := by
  decide +kernel
-- V9, V15
theorem test_step_jmpReg :
    nextPc (movedTo (at64 [(5, 0x100)] 0) 0x2000 0x0C140000) = some 0x2100 ∧
    nextPc (movedTo (at64 [(5, 0x8)] 0) 0xFFFFFFFFFFFFFFFC 0x0C140000) = some 0x4 := by
  decide +kernel
-- V14
theorem test_step_jmpRegLink :
    nextPc (movedTo (at64 [(31, 0x8)] 0) 0x3000 0x0C7D0000) = some 0x3008 ∧
    reg (movedTo (at64 [(31, 0x8)] 0) 0x3000 0x0C7D0000) 31 = some 0x3004 := by
  decide +kernel
-- V16, V17
theorem test_step_trap :
    ends (at64 [] 0x10000000) .halted = true ∧
    nextPc (withSet (at64 [] 0x11800000) 0x1) = some 0x1004 := by
  decide +kernel

/-! compare and predication -/

-- V23
theorem test_step_changepr :
    active (at64 [] 0x14140000) = some 5 := by
  decide +kernel
-- V25, V26
theorem test_step_changeprLd :
    preds (at64 [] 0x140E9440) 3 = some 0xA5 ∧
    active (at64 [] 0x140E9440) = some 3 ∧
    preds (at64 [] 0x140E9040) 3 = some 0xA5 := by
  decide +kernel
-- V32, V33
theorem test_step_cmp :
    preds (at64 [(1, 0x5), (2, 0x5)] 0x1804400A) 0 = some 0x3 ∧
    preds (withSet (at64 [(1, 0x5), (2, 0x5)] 0x1804420A) 0x3) 0 = some 0x5 := by
  decide +kernel
-- V43
theorem test_step_cmpPw0 :
    preds (withSet (at64 [(1, 0x1), (2, 0x2)] 0x1804428A) 0x3) 0 = some 0x5 := by
  decide +kernel
-- V45
theorem test_step_cmpPw1 :
    preds (withSet (at64 [(1, 0x3), (2, 0x2)] 0x18044925) 0x21) 0 = some 0x11 := by
  decide +kernel
-- V50, V51
theorem test_step_cmpi :
    preds (at64 [(1, 0xFFFFFFFFFFFFFFFE)] 0x1C07FC8A) 0 = some 0x3 ∧
    preds (at64 [(1, 0x5)] 0x1C07FD8A) 0 = some 0x3 := by
  decide +kernel
-- V55, V56
theorem test_step_testbit :
    preds (at64 [(1, 0x8000000000000000)] 0x2004FC0A) 0 = some 0x3 ∧
    preds (at64 [(1, 0x2)] 0x2004000A) 0 = some 0x5 := by
  decide +kernel

/-! memory access -/

-- V62, V63
theorem test_step_loadiZ :
    reg (at64 [(1, 0xFFFFFFFFFFFFFFFF)] 0x2404BEEF) 1 = some 0xBEEF ∧
    reg (at64 [(1, 0xFFFFFFFFFFFFFFFF)] 0x2407BEEF) 1 = some 0xBEEF000000000000 := by
  decide +kernel
-- V64, V65
theorem test_step_loadiK :
    reg (at64 [(1, 0x1111222233334444)] 0x2805BEEF) 1 = some 0x11112222BEEF4444 ∧
    reg (at64 [(1, 0xFFFFFFFFFFFFFFFF)] 0x28070000) 1 = some 0xFFFFFFFFFFFF := by
  decide +kernel
-- V70, V71
theorem test_step_load4 :
    reg (withMA (at64 [(2, 0x2000)] 0x2C044004)) 1 = some 0x88776655 ∧
    reg (withMA (at64 [(2, 0x2000)] 0x2C04400C)) 1 = some 0xFFEEDDCC := by
  decide +kernel
-- V72
theorem test_step_load8 :
    reg (withMA (at64 [(2, 0x2000)] 0x30044008)) 1 = some 0xFFEEDDCCBBAA9988 := by
  decide +kernel
-- V81, V83
theorem test_step_load4Update :
    reg (withMA (at64 [(2, 0x200C)] 0x34045FFC)) 1 = some 0xFFEEDDCC ∧
    reg (withMA (at64 [(2, 0x200C)] 0x34045FFC)) 2 = some 0x2008 ∧
    reg (withMA (at64 [(2, 0x2000)] 0x34044003)) 1 = some 0x44332211 := by
  decide +kernel
-- V80
theorem test_step_load8Update :
    reg (withMA (at64 [(2, 0x2000)] 0x38044008)) 1 = some 0x8877665544332211 ∧
    reg (withMA (at64 [(2, 0x2000)] 0x38044008)) 2 = some 0x2008 := by
  decide +kernel
-- V85, V86
theorem test_step_loadx :
    reg (withMA (at64 [(2, 0x2000), (3, 0xC)] 0x3C044380)) 1 = some 0xFFEEDDCC ∧
    reg (withMA (at64 [(2, 0x2010), (3, 0xFFFFFFFFFFFFFFF8)] 0x3C0443C0)) 1 = some 0xFFEEDDCCBBAA9988 := by
  decide +kernel
-- V88
theorem test_step_loadxUpdate :
    reg (withMA (at64 [(2, 0x2008), (3, 0xFFFFFFFFFFFFFFF8)] 0x3C0443C1)) 1 = some 0xFFEEDDCCBBAA9988 ∧
    reg (withMA (at64 [(2, 0x2008), (3, 0xFFFFFFFFFFFFFFF8)] 0x3C0443C1)) 2 = some 0x2000 := by
  decide +kernel
-- V91
theorem test_step_store1 :
    bytes (at64 [(1, 0x1122334455667788), (2, 0x3000)] 0x40044003) 0x3003 1 = some 0x88 := by
  decide +kernel
-- V92
theorem test_step_store2 :
    bytes (at64 [(1, 0x1122334455667788), (2, 0x3000)] 0x44044002) 0x3002 2 = some 0x7788 := by
  decide +kernel
-- V93
theorem test_step_store4 :
    bytes (at64 [(1, 0x1122334455667788), (2, 0x3000)] 0x48044004) 0x3004 4 = some 0x55667788 := by
  decide +kernel
-- V94
theorem test_step_store8 :
    bytes (at64 [(1, 0x1122334455667788), (2, 0x3000)] 0x4C044000) 0x3000 8 = some 0x1122334455667788 := by
  decide +kernel
-- V100
theorem test_step_store1Update :
    reg (at64 [(1, 0xAB), (2, 0x3001)] 0x50044001) 2 = some 0x3002 ∧
    bytes (at64 [(1, 0xAB), (2, 0x3001)] 0x50044001) 0x3001 1 = some 0xAB := by
  decide +kernel
-- R133 worked by hand: `store.2.update R1,R2,-2`
theorem test_step_store2Update :
    bytes (at64 [(1, 0x1122334455667788), (2, 0x3002)] 0x54045FFE) 0x3002 2 = some 0x7788 ∧
    reg (at64 [(1, 0x1122334455667788), (2, 0x3002)] 0x54045FFE) 2 = some 0x3000 := by
  decide +kernel
-- V99
theorem test_step_store4Update :
    reg (at64 [(1, 0x1122334455667788), (2, 0x3004)] 0x58045FFC) 2 = some 0x3000 ∧
    bytes (at64 [(1, 0x1122334455667788), (2, 0x3004)] 0x58045FFC) 0x3004 4 = some 0x55667788 := by
  decide +kernel
-- V101
theorem test_step_store8Update :
    reg (at64 [(2, 0x3000)] 0x5C084008) 2 = some 0x3008 ∧
    bytes (at64 [(2, 0x3000)] 0x5C084008) 0x3001 1 = some 0x30 := by
  decide +kernel

/-! ALU with an immediate -/

-- V105, V106
theorem test_step_addi :
    reg (at64 [(2, 0xA)] 0x60044005) 1 = some 0xF ∧
    reg (at64 [(2, 0x0)] 0x60045FFF) 1 = some 0xFFFFFFFFFFFFFFFF := by
  decide +kernel
-- V119, V120
theorem test_step_andi :
    reg (at64 [(2, 0x123456789ABCDEF0)] 0x64045FFF) 1 = some 0x1EF0 ∧
    reg (at64 [(2, 0x123456789ABCDEF0)] 0x640440FF) 1 = some 0xF0 := by
  decide +kernel
-- V121, V122
theorem test_step_ori :
    reg (at64 [(2, 0x0)] 0x68045FFF) 1 = some 0x1FFF ∧
    reg (at64 [(2, 0xFFFF000000000000)] 0x6804400F) 1 = some 0xFFFF00000000000F := by
  decide +kernel
-- V116, V117
theorem test_step_subi :
    reg (at64 [(2, 0x3)] 0x6C044005) 1 = some 0xFFFFFFFFFFFFFFFE ∧
    reg (at64 [(2, 0x0)] 0x6C045000) 1 = some 0x1000 := by
  decide +kernel
-- V123, V124
theorem test_step_xori :
    reg (at64 [(2, 0xF0F0F0F0F0F0F0F)] 0x70045FFF) 1 = some 0xF0F0F0F0F0F10F0 ∧
    reg (at64 [(1, 0x77), (2, 0xFFFF000000001234)] 0x70045234) 1 = some 0xFFFF000000000000 := by
  decide +kernel

/-! shift and bit field -/

-- V125, V126
theorem test_step_slli :
    reg (at64 [(2, 0x8123456789ABCDEF)] 0x74044004) 1 = some 0x123456789ABCDEF0 ∧
    reg (at64 [(2, 0x8123456789ABCDEF)] 0x7404403F) 1 = some 0x8000000000000000 := by
  decide +kernel
-- V134, V135
theorem test_step_srai :
    reg (at64 [(2, 0x8123456789ABCDEF)] 0x78044004) 1 = some 0xF8123456789ABCDE ∧
    reg (at64 [(2, 0x8123456789ABCDEF)] 0x7804403F) 1 = some 0xFFFFFFFFFFFFFFFF := by
  decide +kernel
-- V131, V132
theorem test_step_srli :
    reg (at64 [(2, 0x8123456789ABCDEF)] 0x7C044004) 1 = some 0x8123456789ABCDE ∧
    reg (at64 [(2, 0x8123456789ABCDEF)] 0x7C04403F) 1 = some 0x1 := by
  decide +kernel
-- V140, V141
theorem test_step_shrp :
    reg (at64 [(1, 0x1122334455667788), (2, 0x99AABBCCDDEEFF00)] 0x800C2208) 3 = some 0x8899AABBCCDDEEFF ∧
    reg (at64 [(1, 0x1122334455667788), (2, 0x99AABBCCDDEEFF00)] 0x800C2200) 3 = some 0x99AABBCCDDEEFF00 := by
  decide +kernel
-- V149, V150
theorem test_step_extract :
    reg (at64 [(1, 0x1122334455667788)] 0x840C220C) 3 = some 0x677 ∧
    reg (at64 [(1, 0xFFFFFFFFFFFFFFFF)] 0x840C203F) 3 = some 0x7FFFFFFFFFFFFFFF := by
  decide +kernel
-- V159, V160
theorem test_step_deposit :
    reg (at64 [(1, 0xFFFFFFFFFFFFFABC), (3, 0x0)] 0x880C220C) 3 = some 0xABC00 ∧
    reg (at64 [(1, 0x1234), (3, 0xFFFFFFFFFFFFFFFF)] 0x880C2C10) 3 = some 0x1234FFFFFFFFFFFF := by
  decide +kernel

/-! parallel and logical ALU -/

-- V166, V167
theorem test_step_padd :
    reg (at64 [(1, 0x7FFF80000001FFFF), (2, 0x18000FFFF0001)] 0x8C0C2200) 3 = some 0x7F000000FF00FF00 ∧
    reg (at64 [(1, 0x7FFF80000001FFFF), (2, 0x18000FFFF0001)] 0x8C0C2240) 3 = some 0x8000000000000000 := by
  decide +kernel
-- V170, V172
theorem test_step_paddU :
    reg (at64 [(1, 0x7FFF80000001FFFF), (2, 0x18000FFFF0001)] 0x8C0C2241) 3 = some 0x8000FFFFFFFFFFFF ∧
    reg (at64 [(1, 0x7FFF80000001FFFF), (2, 0x18000FFFF0001)] 0x8C0C2201) 3 = some 0x7FFFFF00FFFFFFFF := by
  decide +kernel
-- V171, V173
theorem test_step_paddS :
    reg (at64 [(1, 0x7FFF80000001FFFF), (2, 0x18000FFFF0001)] 0x8C0C2242) 3 = some 0x7FFF800000000000 ∧
    reg (at64 [(1, 0x7FFF80000001FFFF), (2, 0x18000FFFF0001)] 0x8C0C2202) 3 = some 0x7F008000FF00FF00 := by
  decide +kernel
-- V174
theorem test_step_paddincr :
    reg (at64 [(1, 0x7FFF80000001FFFF), (2, 0x18000FFFF0001)] 0x900C2240) 3 = some 0x8001000100010001 := by
  decide +kernel
-- V175, V176
theorem test_step_psub :
    reg (at64 [(1, 0x7FFF80000001FFFF), (2, 0x18000FFFF0001)] 0x940C2240) 3 = some 0x7FFE00000002FFFE ∧
    reg (at64 [(1, 0x7FFF80000001FFFF), (2, 0x18000FFFF0001)] 0x940C22C0) 3 = some 0x7FFDFFFF0002FFFE := by
  decide +kernel
-- V177, V185
theorem test_step_psubU :
    reg (at64 [(1, 0x7FFF80000001FFFF), (2, 0x18000FFFF0001)] 0x940C2241) 3 = some 0x7FFE00000000FFFE ∧
    reg (at64 [(1, 0x1), (2, 0x2), (3, 0x9)] 0x940C22C1) 3 = some 0x0 := by
  decide +kernel
-- V178, V179
theorem test_step_psubS :
    reg (at64 [(1, 0x7FFF80000001FFFF), (2, 0x18000FFFF0001)] 0x940C2242) 3 = some 0x7FFE00000002FFFE ∧
    reg (at64 [(1, 0x7FFF80000001FFFF), (2, 0x18000FFFF0001)] 0x940C2202) 3 = some 0x7FFE00000102FFFE := by
  decide +kernel
-- V180
theorem test_step_psubdecr :
    reg (at64 [(1, 0x7FFF80000001FFFF), (2, 0x18000FFFF0001)] 0x980C2240) 3 = some 0x7FFDFFFF0001FFFD := by
  decide +kernel
-- V188, V190
theorem test_step_pavg :
    reg (at64 [(1, 0xFF01020300FF807F), (2, 0xFF02020401008080)] 0x9C0C2200) 3 = some 0xFF010203017F807F ∧
    reg (at64 [(1, 0xFFFF000100020003), (2, 0xFFFF000200040004)] 0x9C0C2240) 3 = some 0xFFFF000100030003 := by
  decide +kernel
-- V189, V191
theorem test_step_pavgRaz :
    reg (at64 [(1, 0xFF01020300FF807F), (2, 0xFF02020401008080)] 0x9C0C2201) 3 = some 0xFF02020401808080 ∧
    reg (at64 [(1, 0xFFFF000100020003), (2, 0xFFFF000200040004)] 0x9C0C2241) 3 = some 0xFFFF000200030004 := by
  decide +kernel
-- V193, V194
theorem test_step_psubavg :
    reg (at64 [(1, 0x50200FF00800304), (2, 0x205FF0001800001)] 0xA00C2200) 3 = some 0x1FF817FFF000101 ∧
    reg (at64 [(1, 0x5000200000003), (2, 0x20005FFFF0000)] 0xA00C2240) 3 = some 0x1FFFF80010001 := by
  decide +kernel
-- V195
theorem test_step_andReg :
    reg (at64 [(1, 0xFF00FF00F0F0AAAA), (2, 0xFF00FF0FF005555)] 0xA40C2200) 3 = some 0xF000F00F0000000 := by
  decide +kernel
-- V196
theorem test_step_andcm :
    reg (at64 [(1, 0xFF00FF00F0F0AAAA), (2, 0xFF00FF0FF005555)] 0xA80C2200) 3 = some 0xF000F00000F0AAAA := by
  decide +kernel
-- V197, V201
theorem test_step_orReg :
    reg (at64 [(1, 0xFF00FF00F0F0AAAA), (2, 0xFF00FF0FF005555)] 0xAC0C2200) 3 = some 0xFFF0FFF0FFF0FFFF ∧
    reg (at64 [(1, 0xFF00FF00F0F0AAAA)] 0xAC0C2000) 3 = some 0xFF00FF00F0F0AAAA := by
  decide +kernel
-- V198, V200
theorem test_step_xorReg :
    reg (at64 [(1, 0xFF00FF00F0F0AAAA), (2, 0xFF00FF0FF005555)] 0xB00C2200) 3 = some 0xF0F0F0F00FF0FFFF ∧
    reg (at64 [(1, 0xFF00FF00F0F0AAAA), (3, 0x9)] 0xB00C2100) 3 = some 0x0 := by
  decide +kernel
-- V199
theorem test_step_notReg :
    reg (at64 [(1, 0xFF00FF00F0F0AAAA)] 0xB40C2000) 3 = some 0xFF00FF0F0F5555 := by
  decide +kernel
-- V204, V205
theorem test_step_pcmpEq :
    reg (at64 [(1, 0x180FF7F00060005), (2, 0x17F007F0005FFFF)] 0xB80C2200) 3 = some 0xFF0000FFFF000000 ∧
    reg (at64 [(1, 0x180FF7F00060005), (2, 0x17F007F0005FFFF), (3, 0x9)] 0xB80C2240) 3 = some 0x0 := by
  decide +kernel
-- V207, V208
theorem test_step_pcmpGt :
    reg (at64 [(1, 0x180FF7F00060005), (2, 0x17F007F0005FFFF)] 0xB80C2201) 3 = some 0xFFFFFF ∧
    reg (at64 [(1, 0x180FF7F00060005), (2, 0x17F007F0005FFFF)] 0xB80C2241) 3 = some 0xFFFF0000FFFFFFFF := by
  decide +kernel
-- V210, V211
theorem test_step_pmax :
    reg (at64 [(1, 0x180FF7F00060005), (2, 0x17F007F0005FFFF)] 0xBC0C2200) 3 = some 0x17F007F00060005 ∧
    reg (at64 [(1, 0x180FF7F00060005), (2, 0x17F007F0005FFFF)] 0xBC0C2240) 3 = some 0x180007F00060005 := by
  decide +kernel
-- V212, V213
theorem test_step_pmin :
    reg (at64 [(1, 0x180FF7F00060005), (2, 0x17F007F0005FFFF)] 0xC00C2200) 3 = some 0x180FF7F0005FFFF ∧
    reg (at64 [(1, 0x180FF7F00060005), (2, 0x17F007F0005FFFF)] 0xC00C2240) 3 = some 0x17FFF7F0005FFFF := by
  decide +kernel
-- V215, V216
theorem test_step_pshiftaddL :
    reg (at64 [(1, 0x40007FFF8000FFFF), (2, 0x100007FFF)] 0xC40C2240) 3 = some 0x7FFF7FFF80007FFD ∧
    reg (at64 [(1, 0x40007FFF8000FFFF), (2, 0x100007FFF)] 0xC40C2280) 3 = some 0x7FFF7FFF80007FFB := by
  decide +kernel
-- V218, V219
theorem test_step_pshiftaddR :
    reg (at64 [(1, 0x40007FFF8000FFFF), (2, 0x100007FFF)] 0xC40C2241) 3 = some 0x20004000C0007FFE ∧
    reg (at64 [(1, 0x40007FFF8000FFFF), (2, 0x100007FFF)] 0xC40C2281) 3 = some 0x10002000E0007FFE := by
  decide +kernel

/-! multiply -/

-- V222, V226
theorem test_step_pmulOdd :
    reg (at64 [(1, 0xFFFF000200030004), (2, 0x50006FFFE0008)] 0xC80C2200) 3 = some 0xFFFFFFFBFFFFFFFA ∧
    reg (at64 [(1, 0x80007FFFFFFF8000), (2, 0x8000FFFFFFFF7FFF)] 0xC80C2200) 3 = some 0x4000000000000001 := by
  decide +kernel
-- V223, V227
theorem test_step_pmulOddU :
    reg (at64 [(1, 0xFFFF000200030004), (2, 0x50006FFFE0008)] 0xC80C2201) 3 = some 0x4FFFB0002FFFA ∧
    reg (at64 [(1, 0x80007FFFFFFF8000), (2, 0x8000FFFFFFFF7FFF)] 0xC80C2201) 3 = some 0x40000000FFFE0001 := by
  decide +kernel
-- V224, V228
theorem test_step_pmulEven :
    reg (at64 [(1, 0xFFFF000200030004), (2, 0x50006FFFE0008)] 0xC80C2202) 3 = some 0xC00000020 ∧
    reg (at64 [(1, 0x80007FFFFFFF8000), (2, 0x8000FFFFFFFF7FFF)] 0xC80C2202) 3 = some 0xFFFF8001C0008000 := by
  decide +kernel
-- V225, V229
theorem test_step_pmulEvenU :
    reg (at64 [(1, 0xFFFF000200030004), (2, 0x50006FFFE0008)] 0xC80C2203) 3 = some 0xC00000020 ∧
    reg (at64 [(1, 0x80007FFFFFFF8000), (2, 0x8000FFFFFFFF7FFF)] 0xC80C2203) 3 = some 0x7FFE80013FFF8000 := by
  decide +kernel
-- V232, V233
theorem test_step_pmulshr :
    reg (at64 [(1, 0x4000C00001000123), (2, 0x4000400001000100)] 0xCC0C2200) 3 = some 0x2300 ∧
    reg (at64 [(1, 0x4000C00001000123), (2, 0x4000400001000100)] 0xCC0C2240) 3 = some 0x1000123 := by
  decide +kernel
-- V236, V237
theorem test_step_pmulshrA :
    reg (at64 [(1, 0x4000C00001000123), (2, 0x4000400001000100)] 0xCC0C2201) 3 = some 0x2300 ∧
    reg (at64 [(1, 0x4000C00001000123), (2, 0x4000400001000100)] 0xCC0C2241) 3 = some 0x1000123 := by
  decide +kernel

/-! parallel shift -/

-- V244, V247
theorem test_step_pshiftL :
    reg (at64 [(1, 0x8123456789ABCDEF), (2, 0x4)] 0xD00C2240) 3 = some 0x123056709AB0DEF0 ∧
    reg (at64 [(1, 0x8123456789ABCDEF), (2, 0x4)] 0xD00C2280) 3 = some 0x123456709ABCDEF0 := by
  decide +kernel
-- V245, V248
theorem test_step_pshiftR :
    reg (at64 [(1, 0x8123456789ABCDEF), (2, 0x4)] 0xD00C2241) 3 = some 0x8120456089A0CDE ∧
    reg (at64 [(1, 0x8123456789ABCDEF), (2, 0x4)] 0xD00C2281) 3 = some 0x8123456089ABCDE := by
  decide +kernel
-- V246, V249
theorem test_step_pshiftRa :
    reg (at64 [(1, 0x8123456789ABCDEF), (2, 0x4)] 0xD00C2242) 3 = some 0xF8120456F89AFCDE ∧
    reg (at64 [(1, 0x8123456789ABCDEF), (2, 0x4)] 0xD00C2282) 3 = some 0xF8123456F89ABCDE := by
  decide +kernel
-- V260, V263
theorem test_step_pshiftiL :
    reg (at64 [(1, 0x8123456789ABCDEF)] 0xD40C2440) 3 = some 0x123056709AB0DEF0 ∧
    reg (at64 [(1, 0x8123456789ABCDEF)] 0xD40C2480) 3 = some 0x123456709ABCDEF0 := by
  decide +kernel
-- V261, V264
theorem test_step_pshiftiR :
    reg (at64 [(1, 0x8123456789ABCDEF)] 0xD40C2441) 3 = some 0x8120456089A0CDE ∧
    reg (at64 [(1, 0x8123456789ABCDEF)] 0xD40C2481) 3 = some 0x8123456089ABCDE := by
  decide +kernel
-- V262, V265
theorem test_step_pshiftiRa :
    reg (at64 [(1, 0x8123456789ABCDEF)] 0xD40C2442) 3 = some 0xF8120456F89AFCDE ∧
    reg (at64 [(1, 0x8123456789ABCDEF)] 0xD40C2482) 3 = some 0xF8123456F89ABCDE := by
  decide +kernel

/-! permutation -/

-- V276, V278
theorem test_step_mixL :
    reg (at64 [(1, 0xA7A6A5A4A3A2A1A0), (2, 0xB7B6B5B4B3B2B1B0)] 0xD80C2200) 3 = some 0xA7B7A5B5A3B3A1B1 ∧
    reg (at64 [(1, 0xA7A6A5A4A3A2A1A0), (2, 0xB7B6B5B4B3B2B1B0)] 0xD80C2240) 3 = some 0xA7A6B7B6A3A2B3B2 := by
  decide +kernel
-- V277, V279
theorem test_step_mixR :
    reg (at64 [(1, 0xA7A6A5A4A3A2A1A0), (2, 0xB7B6B5B4B3B2B1B0)] 0xD80C2201) 3 = some 0xA6B6A4B4A2B2A0B0 ∧
    reg (at64 [(1, 0xA7A6A5A4A3A2A1A0), (2, 0xB7B6B5B4B3B2B1B0)] 0xD80C2241) 3 = some 0xA5A4B5B4A1A0B1B0 := by
  decide +kernel
-- V285
theorem test_step_muxRev :
    reg (at64 [(1, 0x706050403020100)] 0xDC0C2000) 3 = some 0x1020304050607 := by
  decide +kernel
-- V286
theorem test_step_muxMix :
    reg (at64 [(1, 0x706050403020100)] 0xDC0C2001) 3 = some 0x703050106020400 := by
  decide +kernel
-- V287
theorem test_step_muxShuf :
    reg (at64 [(1, 0x706050403020100)] 0xDC0C2002) 3 = some 0x703060205010400 := by
  decide +kernel
-- V288
theorem test_step_muxAlt :
    reg (at64 [(1, 0x706050403020100)] 0xDC0C2003) 3 = some 0x705030106040200 := by
  decide +kernel
-- V289
theorem test_step_muxBrcst :
    reg (at64 [(1, 0x70605040302015A)] 0xDC0C2004) 3 = some 0x5A5A5A5A5A5A5A5A := by
  decide +kernel
-- V296, V297
theorem test_step_perm :
    reg (at64 [(1, 0xAAAABBBBCCCCDDDD), (2, 0x1B)] 0xE00C2200) 3 = some 0xDDDDCCCCBBBBAAAA ∧
    reg (at64 [(1, 0xAAAABBBBCCCCDDDD), (2, 0xE4)] 0xE00C2200) 3 = some 0xAAAABBBBCCCCDDDD := by
  decide +kernel

/-! ### Traps, refusals and faults -/

-- V19
theorem test_trap_misaligned_fetch : ends (movedTo (at64 [] 0) 0x1002 0x04000004) (.unalignedAddressTrap 0x1002) = true := by
  decide +kernel
-- V20
theorem test_trap_illegal : ends (at64 [] 0x10000001) (.illegalInstructionTrap 0x10000001) = true := by decide +kernel
-- R47: `load.4` at 0x2002
theorem test_trap_misaligned_load :
    ends (at64 [(2, 0x2000)] 0x2C044002) (.unalignedAddressTrap 0x2002) = true := by decide +kernel
-- V41
theorem test_refuse_equal_predicates : refuses (at64 [(1, 1), (2, 1)] 0x18044012) .pd1EqualsPd2 = true := by decide +kernel
-- R129: `load.4.update R2,R2,4`
theorem test_refuse_update_load_to_base : refuses (at64 [(2, 0x2000)] 0x34084004) .loadUpdateRdEqualsRs1 = true := by
  decide +kernel
-- R52: `load.4 R1,R2,4` where 0x2006 does not exist
theorem test_fault_outside_mem :
    (match step (withAbsent (at64 [(2, 0x2000)] 0x2C044004) [⟨0x2006, 1⟩]) with
      | .fault f => f == .outsideMem 0x2004
      | _ => false) = true := by decide +kernel
-- R52: a fetch of a word whose last byte does not exist
theorem test_fault_outside_mem_fetch :
    (match step (withAbsent (at64 [] 0x60044005) [⟨0x1003, 8⟩]) with
      | .fault f => f == .outsideMem 0x1000
      | _ => false) = true := by decide +kernel
-- R52: an empty range, and ranges right below and right above the access, take none of its bytes away
theorem test_absent_empty_range :
    reg (withAbsent (withMA (at64 [(2, 0x2000)] 0x2C044000)) [⟨0x2002, 0⟩, ⟨0x1FFC, 4⟩, ⟨0x2004, 1⟩]) 1 =
      some 0x44332211 := by decide +kernel

/-! ### Other widths and other parameters -/

-- V59
theorem test_w32_testbit : preds (at32 [(1, 0x80000000)] 0x20047C0A) 0 = some 0x03 := by decide +kernel
-- R160 at W = 128, by hand: no carry from one 64-bit subword into the next
theorem test_w128_padd8 : reg (at128 [(1, 0xFFFFFFFFFFFFFFFF), (2, 1)] 0x8C0C22C0) 3 = some 0 := by decide +kernel
-- R125 (d): `load.4 R1,R2,4` over M_A under LOAD_EXT = sign
theorem test_loadExt_sign :
    (let s := withMA (at64 [(2, 0x2000)] 0x2C044004)
     reg ⟨{ s.cfg with loadExt := .sign }, s.mach⟩ 1) = some 0xFFFFFFFF88776655 := by decide +kernel
-- R100: `jmp 16` under JMP_SCALE = 4
theorem test_jmpScale :
    (let s := at64 [] 0x04000010
     nextPc ⟨{ s.cfg with jmpScale := 4 }, s.mach⟩) = some 0x1040 := by decide +kernel
-- R102: `jmp.reg R5` under JMPREG_MODE = absolute
theorem test_jmpRegMode :
    (let s := at64 [(5, 0x100)] 0x0C140000
     nextPc ⟨{ s.cfg with jmpRegMode := .absolute }, s.mach⟩) = some 0x100 := by decide +kernel
-- D28: 0x4000 shifted left by 1 and cut to 16 bits is -32768
theorem test_num_shiftAddLeft :
    reg (withNum (at64 [(1, 0x4000), (2, 1)] 0xC40C2240) { Num.standard with shiftAddLeft := .truncate }) 3 =
      some 0x8001 := by decide +kernel
-- D30: an amount of 16 shifts a halfword out
theorem test_num_shiftAmount :
    reg (withNum (at64 [(1, 0x1234), (2, 16)] 0xD00C2240) { Num.standard with shiftAmount := .shiftOut }) 3 = some 0 := by
  decide +kernel
-- D29: the lower halfwords are the odd ones
theorem test_num_oddHalf :
    reg (withNum (at64 [(1, 0x00020003), (2, 0x00050007)] 0xC80C2200) { Num.standard with oddHalf := .lower }) 3 =
      some 21 := by decide +kernel
-- D32: control 0x1B, its selectors 3, 2, 1, 0 from the low end, undone; destinations from the top, then sources too
theorem test_num_perm :
    reg (withNum (at64 [(1, 0xAAAABBBBCCCCDDDD), (2, 0x1B)] 0xE00C2200) { Num.standard with permDest := .fromHigh }) 3 =
      some 0xAAAABBBBCCCCDDDD ∧
    reg (withNum (at64 [(1, 0xAAAABBBBCCCCDDDD), (2, 0x55)] 0xE00C2200)
      { Num.standard with permDest := .fromHigh, permSource := .fromHigh }) 3 = some 0xBBBBBBBBBBBBBBBB := by
  decide +kernel
-- D28, U11: -2 shifted right logically by 1 is 0x7FFF, and the sum with 1 saturates; 0x7FFE with -1 does not
theorem test_num_shiftAddRight :
    reg (withNum (at64 [(1, 0xFFFEFFFC), (2, 0x0001FFFF)] 0xC40C2241) { Num.standard with shiftAddRight := .logical }) 3 =
      some 0x7FFF7FFD := by decide +kernel
-- D22, U12: `slli R1,R2,64` shifts everything out under the other reading, `slli R1,R2,65` shifts by 1 under both
theorem test_num_immShiftAtWidth :
    reg (withNum (at64 [(2, 3)] 0x74044040) { Num.standard with immShiftAtWidth := .shiftOut }) 1 = some 0 ∧
    reg (withNum (at64 [(2, 3)] 0x74044041) { Num.standard with immShiftAtWidth := .shiftOut }) 1 = some 6 ∧
    reg (at64 [(2, 3)] 0x74044040) 1 = some 3 := by decide +kernel
-- D29, U18: the two products of R191's example, 0xFFFFFFFB and 0xFFFFFFFA, in each other's words
theorem test_num_mulPlace :
    reg (withNum (at64 [(1, 0xFFFF000200030004), (2, 0x00050006FFFE0008)] 0xC80C2200)
      { Num.standard with mulPlace := .listed [1, 0] }) 3 = some 0xFFFFFFFAFFFFFFFB := by decide +kernel
-- D29: the high halves of the products of R195's example
theorem test_num_mulShiftHalf :
    reg (withNum (at64 [(1, 0x80007FFFFFFF8000), (2, 0x8000FFFFFFFF7FFF)] 0xCC0C2200)
      { Num.standard with mulShiftHalf := .high }) 3 = some 0x40007FFEFFFE3FFF := by decide +kernel
-- D27: the halved sum 2 of 3 and 2 keeps its low bits' or, 1, under the literal reading
theorem test_num_avgLow :
    reg (withNum (at64 [(1, 3), (2, 2)] 0x9C0C2200) { Num.standard with avgLow := .afterShift }) 3 = some 3 := by
  decide +kernel
-- D27: the top bit of 5 - 2 halved is inverted
theorem test_num_subAvgTop :
    reg (withNum (at64 [(1, 5), (2, 2)] 0xA00C2240) { Num.standard with subAvgTop := .carryOut }) 3 =
      some 0x8000800080008001 := by decide +kernel


-- D31: a listed permutation that swaps neighbouring bytes, in the form `mux.1.shuf R3,R1`, and one that is no permutation
theorem test_num_mux_listed :
    reg (withNum (at64 [(1, 0x0706050403020100)] 0xDC0C2002)
      { Num.standard with muxShuf := .listed [1, 0, 3, 2, 5, 4, 7, 6] }) 3 = some 0x0607040502030001 ∧
    reg (withNum (at64 [(1, 0x0706050403020100)] 0xDC0C2003)
      { Num.standard with muxAlt := .listed [0, 0, 3, 2, 5, 4, 7, 6] }) 3 = some 0x0705030106040200 := by decide +kernel
-- R7, D1: an encoding in which the word of `addi R1,R2,5` is `subi R1,R2,5`, and the all-zero word is `addi R1,R0,7`
theorem test_enc_listed :
    reg (withEnc (at64 [(2, 9)] 0x60044005) [⟨0x60044005, some (.subi 0 1 2 5)⟩]) 1 = some 4 ∧
    reg (withEnc (at64 [] 0) [⟨0x60044005, none⟩, ⟨0, some (.addi 0 1 0 7)⟩, ⟨0, none⟩]) 1 = some 7 := by decide +kernel
-- R7, R81: an encoding in which that word is illegal, and one whose term is not legal at the width
theorem test_enc_illegal :
    ends (withEnc (at64 [] 0x60044005) [⟨0x60044005, none⟩]) (.illegalInstructionTrap 0x60044005) = true ∧
    ends (withEnc (at32 [] 0x60044005) [⟨0x60044005, some (.padd 0 .b8 3 1 2)⟩])
      (.illegalInstructionTrap 0x60044005) = true := by decide +kernel

/-! ### Witnesses: the hypotheses of every obligation are met -/

/-- A machine at pc 0x1000 whose next word is `addi R1,R2,5`, with P1 set, memory image `M_A` and byte 0x3000 absent. -/
def demo : State :=
  let s := withSet (withMA (at64 [(1, 5), (2, 0x2000), (3, 0x2008), (4, 0x3000)] 0x60044005)) 0x03
  ⟨{ s.cfg with absent := [⟨0x3000, 1⟩] }, s.mach⟩

/-- The same at `W = 32`. -/
def demo32 : State := withSet (withMA (at32 [(1, 5), (2, 0x2000), (3, 0x2008)] 0x60044005)) 0x03

theorem witness_DecodeOfEncode_legal :
    Legal .w64 (.extract 7 31 31 1 63) ∧ Legal .w32 (.mixL 0 .b2 1 2 3) ∧ Legal .w128 (.testbit 0 1 127 1 2) := by
  simp only [Legal]; decide
-- the terms that R81 and R82 name: sizes past the register, sizes not offered, values past the register
theorem witness_DecodeOfEncode_illegal :
    ¬Legal .w32 (.padd 0 .b8 3 1 2) ∧ ¬Legal .w32 (.load8 0 1 2 0) ∧ ¬Legal .w32 (.mixL 0 .b4 3 1 2) ∧
      ¬Legal .w64 (.pavg 0 .b4 3 1 2) ∧ ¬Legal .w64 (.pshiftL 0 .b1 3 1 2) ∧ ¬Legal .w64 (.muxRev 0 .b2 3 1) ∧
      ¬Legal .w32 (.loadiZ 0 2 1 1) ∧ ¬Legal .w64 (.testbit 0 1 64 1 2) ∧ ¬Legal .w64 (.extract 0 3 1 2 63) := by
  simp only [Legal]; decide
theorem witness_EncodeOfDecode :
    decode .w64 0x840C220C = .ok (.extract 0 3 1 8 12) ∧ decode .w32 0xD80C2240 = .ok (.mixL 0 .b2 3 1 2) := by decide
theorem witness_ReservedOpcodesAreIllegal :
    ((0x03FFFFFF#32).extractLsb' 26 6).toNat = 0 ∧ 0x39 ≤ ((0xE4000000#32).extractLsb' 26 6).toNat ∧
      0x39 ≤ ((0xFFFFFFFF#32).extractLsb' 26 6).toNat := by decide
theorem witness_OpcodeMapWords : (31 : Reg) ≠ 0 := by decide
theorem witness_StepRunsDecodedInstruction :
    demo.mach.outcome = .running ∧ demo.mach.pc.toNat % 4 = 0 ∧ present demo.cfg.absent demo.mach.pc.toNat 4 = true ∧
      (∀ k < 4, demo.mach.mem.read (demo.mach.pc.toNat + k) = (0x60044005#32).extractLsb' (8 * k) 8) ∧
      decodeUnder demo.cfg 0x60044005 = .ok (.addi 0 1 2 5) := by decide +kernel
-- an encoding with an entry before the one for the word, whose term is legal, is not legal, or is none
theorem witness_StepRunsDecodedInstruction_enc :
    (∀ e ∈ Config.standard.enc, e.word ≠ 0x60044005) ∧ (∀ e ∈ [EncEntry.mk 0 none], e.word ≠ 0x60044005) ∧
      Legal .w64 (.padd 0 .b8 3 1 2) ∧ ¬Legal .w32 (.padd 0 .b8 3 1 2) := by
  simp only [Legal]; decide
theorem witness_FetchTraps_misaligned :
    (movedTo demo 0x1002 0).mach.outcome = .running ∧ (movedTo demo 0x1002 0).mach.pc.toNat % 4 ≠ 0 := by decide +kernel
theorem witness_FetchTraps_illegal :
    (at64 [] 0x10000001).mach.outcome = .running ∧ (at64 [] 0x10000001).mach.pc.toNat % 4 = 0 ∧
      present (at64 [] 0x10000001).cfg.absent (at64 [] 0x10000001).mach.pc.toNat 4 = true ∧
      (∀ k < 4, (at64 [] 0x10000001).mach.mem.read ((at64 [] 0x10000001).mach.pc.toNat + k) =
        (0x10000001#32).extractLsb' (8 * k) 8) ∧
      decodeUnder (at64 [] 0x10000001).cfg 0x10000001 = .error .nonzeroField := by decide +kernel
theorem witness_TerminalOutcomesTakeNoStep : (demo.raise .halted).mach.outcome ≠ .running := by decide +kernel
theorem witness_NullifiedOnlyAdvancesPc : demo.mach.pget (Instr.addi 2 1 2 5).qp = false := by decide +kernel
theorem witness_StepKeepsInvariant : demo.Inv ∧ ∃ t, step demo = .next t :=
  ⟨⟨by decide +kernel, by decide +kernel, by decide +kernel⟩,
    (next_of (p := fun _ => true) (by decide +kernel)).imp fun _ h => h.1⟩
theorem witness_EndOfRunIsPrecise :
    ∃ t, step (at64 [] 0x10000000) = .next t ∧ decide (t.mach.outcome ≠ .running) = true :=
  next_of (by decide +kernel)
-- one for each way the run may go: it goes on, it halts, it traps
theorem witness_OnlyTheseInstructionsEndTheRun :
    demo.mach.outcome = .running ∧
      (∃ t, exec (.addi 0 1 2 5) demo = .next t ∧ decide (t.mach.outcome = .running) = true) ∧
      (∃ t, exec (.trap 0) demo = .next t ∧ decide (t.mach.outcome = .halted) = true) ∧
      ∃ t, exec (.load4 0 1 2 1) demo = .next t ∧ decide (t.mach.outcome ≠ .running) = true :=
  ⟨by decide +kernel, next_of (by decide +kernel), next_of (by decide +kernel), next_of (by decide +kernel)⟩
theorem witness_OnlySetSelectionWritesAps :
    (∃ t, exec (.changepr 0 15) demo = .next t ∧ decide (t.mach.aps ≠ demo.mach.aps) = true) ∧
      ∃ t, exec (.changeprLd 0 15 0xA5) demo = .next t ∧ decide (t.mach.aps ≠ demo.mach.aps) = true :=
  ⟨next_of (by decide +kernel), next_of (by decide +kernel)⟩
theorem witness_OnlyComparesAndLoadsWritePredicates :
    (∃ t, exec (.cmp 0 .eq 1 1 7 2) demo = .next t ∧
      decide (t.mach.predOf 0 7 ≠ demo.mach.predOf 0 7) = true) ∧
      ∃ t, exec (.changeprLd 0 15 0xA5) demo = .next t ∧
        decide (t.mach.predOf 15 7 ≠ demo.mach.predOf 15 7) = true :=
  ⟨next_of (by decide +kernel), next_of (by decide +kernel)⟩
theorem witness_OnlyStoresChangeMemory :
    ∃ t, exec (.store8 0 1 2 0) demo = .next t ∧
      decide (t.mach.mem.read 0x2007 ≠ demo.mach.mem.read 0x2007) = true :=
  next_of (by decide +kernel)
theorem witness_OnlyWrittenRegistersChange :
    (∃ t, exec (.load4Update 0 1 2 4) demo = .next t ∧ decide ((t.mach.rget 3).toNat = 0x2008) = true) ∧
      (3 : Reg) ∉ writtenRegs (.load4Update 0 1 2 4) :=
  ⟨next_of (by decide +kernel), by decide⟩
theorem witness_OnlyJumpsRedirect :
    (∃ t, exec (.addi 0 1 2 5) demo = .next t ∧ decide (t.mach.pc.toNat = 0x1004) = true) ∧
      (∃ t, exec (.trap 0) demo = .next t ∧ decide (t.mach.pc.toNat = 0x1000) = true) ∧
      ∃ t, exec (.jmp 0 16) demo = .next t ∧ decide (t.mach.pc.toNat = 0x1010) = true :=
  ⟨next_of (by decide +kernel), next_of (by decide +kernel), next_of (by decide +kernel)⟩
theorem witness_RegisterFile : (31 : Reg) ≠ 30 ∧ (0 : Reg) ≠ 1 := by decide
theorem witness_JumpResults : demo.mach.pget 1 = true ∧ demo32.mach.pget 0 = true := by decide +kernel
theorem witness_RegisterJumpResults : demo.mach.pget 1 = true ∧ demo.cfg.jmpRegMode = .relative := by decide +kernel
theorem witness_TrapHalts : demo.mach.pget 1 = true := by decide +kernel
theorem witness_ChangePredicateSetResult : demo.mach.pget 1 = true := by decide +kernel
theorem witness_LoadPredicateSetResult : demo.mach.pget 1 = true ∧ (15 : SetNum) ≠ 0 := by decide +kernel
theorem witness_RelationTable : demo.mach.pget 1 = true ∧ (7 : PredNum) ≠ 0 := by decide +kernel
theorem witness_CompareResults :
    demo.mach.pget 1 = true ∧ ((6 : PredNum) ≠ 7 ∨ (6 : PredNum) = 0) ∧ (63#8).toNat < demo.W ∧
      ((0 : PredNum) ≠ 0 ∨ (0 : PredNum) = 0) ∧ (31#8).toNat < demo32.W := by decide +kernel
theorem witness_ParallelWriteCompareResults :
    demo.mach.pget 1 = true ∧ ((6 : PredNum) ≠ 7 ∨ (6 : PredNum) = 0) ∧
      relHolds .ne (demo.mach.rget 1) (demo.mach.rget 2) = true ∧
      relHolds .eq (demo.mach.rget 1) (demo.mach.rget 2) = false := by decide +kernel
theorem witness_CompareToOnePredicateRefused : demo.mach.pget 1 = true ∧ (7 : PredNum) ≠ 0 := by decide +kernel
theorem witness_ParallelWriteComparesCommute :
    (6 : PredNum) ≠ 7 ∧ (1 : PredNum) ≠ 6 ∧ (1 : PredNum) ≠ 7 ∧ (0 : PredNum) ≠ 6 ∧ (0 : PredNum) ≠ 7 := by decide
theorem witness_LoadImmediateResults :
    demo.mach.pget 1 = true ∧ 16 * (3 : Fin 4).val < demo.W ∧ demo32.mach.pget 1 = true ∧
      16 * (1 : Fin 4).val < demo32.W := by decide +kernel
-- the displaced addresses end right below the absent byte 0x3000
theorem witness_LoadResults :
    demo.mach.pget 1 = true ∧
      (demo.mach.rget 2 + (0xFFC#13).signExtend demo.W).toNat % 4 = 0 ∧
      present demo.cfg.absent (demo.mach.rget 2 + (0xFFC#13).signExtend demo.W).toNat 4 = true ∧
      64 ≤ demo.W ∧ (demo.mach.rget 2 + (0xFF8#13).signExtend demo.W).toNat % 8 = 0 ∧
      present demo.cfg.absent (demo.mach.rget 2 + (0xFF8#13).signExtend demo.W).toNat 8 = true ∧
      Sw.b8.bits ≤ demo.W ∧ (demo.mach.rget 2 + demo.mach.rget 0).toNat % Sw.b8.bytes = 0 ∧
      present demo.cfg.absent (demo.mach.rget 2 + demo.mach.rget 0).toNat Sw.b8.bytes = true := by decide +kernel
theorem witness_UpdateLoadResults :
    demo.mach.pget 1 = true ∧ ((1 : Reg) ≠ 2 ∨ (1 : Reg) = 0) ∧ ((0 : Reg) ≠ 0 ∨ (0 : Reg) = 0) ∧
      64 ≤ demo.W ∧ (demo.mach.rget 2).toNat % 8 = 0 ∧ present demo.cfg.absent (demo.mach.rget 2).toNat 8 = true ∧
      (demo.mach.rget 2).toNat % 4 = 0 ∧ present demo.cfg.absent (demo.mach.rget 2).toNat 4 = true ∧
      Sw.b8.bits ≤ demo.W ∧ (demo.mach.rget 2).toNat % Sw.b8.bytes = 0 ∧
      present demo.cfg.absent (demo.mach.rget 2).toNat Sw.b8.bytes = true := by decide +kernel
theorem witness_UpdateLoadToItsBaseRefused :
    demo.mach.pget 1 = true ∧ (2 : Reg) ≠ 0 ∧ (demo.mach.rget 2).toNat % 4 = 0 ∧
      present demo.cfg.absent (demo.mach.rget 2).toNat 4 = true ∧ (demo.mach.rget 2).toNat % 8 = 0 ∧
      present demo.cfg.absent (demo.mach.rget 2).toNat 8 = true ∧ (demo.mach.rget 2).toNat % Sw.b4.bytes = 0 ∧
      present demo.cfg.absent (demo.mach.rget 2).toNat Sw.b4.bytes = true := by decide +kernel
theorem witness_MisalignedAccessTraps :
    demo.mach.pget (Instr.load8 1 1 2 4).qp = true ∧ loadAt (.load8 1 1 2 4) demo.mach = some (0x2004, 8) ∧
      0x2004 % 8 ≠ 0 ∧ storeAt (.store2 1 1 2 1) demo.mach = some (0x2001, 2) ∧ 0x2001 % 2 ≠ 0 := by decide +kernel
theorem witness_AccessOutsideMemoryFaults :
    (⟨0x3000, 1⟩ : AddrRange) ∈ demo.cfg.absent ∧ 0x3000 ≤ 0x3000 + 0 ∧ 0x3000 + 0 < 0x3000 + 1 ∧
      demo.mach.pget (Instr.store1 1 1 4 0).qp = true ∧ storeAt (.store1 1 1 4 0) demo.mach = some (0x3000, 1) ∧
      loadAt (.load4 1 1 4 0) demo.mach = some (0x3000, 4) ∧ 0x3000 % 4 = 0 := by decide +kernel
-- the fetch, the last byte of the word being absent
theorem witness_AccessOutsideMemoryFaults_fetch :
    (⟨0x1003, 8⟩ : AddrRange) ∈ (withAbsent demo [⟨0x1003, 8⟩]).cfg.absent ∧ 0x1003 ≤ 0x1000 + 3 ∧
      (withAbsent demo [⟨0x1003, 8⟩]).mach.pc.toNat = 0x1000 ∧ 0x1000 % 4 = 0 ∧
      (withAbsent demo [⟨0x1003, 8⟩]).mach.outcome = .running := by decide +kernel
theorem witness_StoreResults :
    demo.mach.pget 1 = true ∧
      present demo.cfg.absent (demo.mach.rget 4 + (0x1FFF#13).signExtend demo.W).toNat 1 = true ∧
      (demo.mach.rget 4 + (0x1FFE#13).signExtend demo.W).toNat % 2 = 0 ∧
      present demo.cfg.absent (demo.mach.rget 4 + (0x1FFE#13).signExtend demo.W).toNat 2 = true ∧
      (demo.mach.rget 4 + (0x1FFC#13).signExtend demo.W).toNat % 4 = 0 ∧
      present demo.cfg.absent (demo.mach.rget 4 + (0x1FFC#13).signExtend demo.W).toNat 4 = true ∧ 64 ≤ demo.W ∧
      (demo.mach.rget 4 + (0x1FF8#13).signExtend demo.W).toNat % 8 = 0 ∧
      present demo.cfg.absent (demo.mach.rget 4 + (0x1FF8#13).signExtend demo.W).toNat 8 = true := by decide +kernel
theorem witness_UpdateStoreResults :
    demo.mach.pget 1 = true ∧ present demo.cfg.absent (demo.mach.rget 2).toNat 1 = true ∧
      (demo.mach.rget 2).toNat % 2 = 0 ∧ present demo.cfg.absent (demo.mach.rget 2).toNat 2 = true ∧
      (demo.mach.rget 2).toNat % 4 = 0 ∧ present demo.cfg.absent (demo.mach.rget 2).toNat 4 = true ∧ 64 ≤ demo.W ∧
      (demo.mach.rget 2).toNat % 8 = 0 ∧ present demo.cfg.absent (demo.mach.rget 2).toNat 8 = true := by decide +kernel
theorem witness_AddSubtractImmediateResults : demo.mach.pget 1 = true := by decide +kernel
theorem witness_LogicalImmediateResults : demo.mach.pget 1 = true := by decide +kernel
theorem witness_ImmediateShiftResults : demo.mach.pget 1 = true ∧ (63#13).toNat % demo.W = 63 ∧ (64#13).toNat % demo.W = 0 := by
  decide +kernel
theorem witness_ShiftRightPairResult :
    demo.mach.pget 1 = true ∧ (127#8).toNat % (2 * demo.W) = 127 ∧ (128#8).toNat % (2 * demo.W) = 0 := by decide +kernel
theorem witness_BitFieldResults :
    demo.mach.pget 1 = true ∧ (1#7).toNat + (63#6).toNat ≤ demo.W ∧ (64#7).toNat + (0#6).toNat ≤ demo.W := by
  decide +kernel
theorem witness_ModularParallelResults :
    demo.mach.pget 1 = true ∧ Sw.b8.bits ≤ demo.W ∧ Sw.b4.bits ≤ demo32.W := by decide +kernel
theorem witness_SaturatingParallelResults : demo.mach.pget 1 = true ∧ Sw.b8.bits ≤ demo.W := by decide +kernel
theorem witness_AverageResults :
    demo.mach.pget 1 = true ∧ Sw.b2.bits ≤ demo.W ∧ (Sw.b2 = .b1 ∨ Sw.b2 = .b2) := by decide +kernel
theorem witness_SubtractAverageResult :
    demo.mach.pget 1 = true ∧ Sw.b1.bits ≤ demo.W ∧ (Sw.b1 = .b1 ∨ Sw.b1 = .b2) := by decide +kernel
theorem witness_LogicalResults : demo.mach.pget 1 = true := by decide +kernel
theorem witness_ParallelCompareResults : demo.mach.pget 1 = true ∧ Sw.b8.bits ≤ demo.W := by decide +kernel
theorem witness_MaximumMinimumResults : demo.mach.pget 1 = true ∧ (Sw.b2 = .b1 ∨ Sw.b2 = .b2) := by decide +kernel
theorem witness_ShiftAndAddResults : demo.mach.pget 1 = true ∧ demo.cfg.num.shiftAddLeft = .exact := by decide +kernel
theorem witness_MultiplyResults :
    demo.mach.pget 1 = true ∧ (1 : Nat) = (if demo.cfg.num.oddHalf = .upper then 1 else 0) ∧ 0 = 1 - 1 := by
  decide +kernel
-- the default placement, and a listed one with its `lane` swapping the two words
theorem witness_MultiplyResults_place :
    (DefaultArrangement (demo.W / 32) demo.cfg.num.mulPlace ∧ ∀ j : Nat, id j = j) ∧
      [1, 0].Perm (List.range (demo.W / 32)) ∧
      ∀ j < demo.W / 32, ([1, 0] : List Nat)[j]? = some ((fun j => 1 - j) j) :=
  ⟨⟨fun _ h => (nomatch h), fun _ => rfl⟩, by decide +kernel, by decide +kernel⟩
theorem witness_MultiplyShiftResults :
    demo.mach.pget 1 = true ∧ demo.cfg.num.mulShiftHalf = .low ∧
      0 = (if demo.cfg.num.mulShiftHalf = .low then 0 else 16) := by decide +kernel
theorem witness_ParallelShiftResults :
    demo.mach.pget 1 = true ∧ (Sw.b8 = .b2 ∨ Sw.b8 = .b4 ∨ Sw.b8 = .b8) ∧ Sw.b8.bits ≤ demo.W ∧
      (31#5).toNat % Sw.b2.bits = 15 := by decide +kernel
theorem witness_MixResults :
    demo.mach.pget 1 = true ∧ (Sw.b4 = .b1 ∨ Sw.b4 = .b2 ∨ Sw.b4 = .b4) ∧ 2 * Sw.b4.bits ≤ demo.W := by decide +kernel
theorem witness_ReverseBroadcastResults : demo.mach.pget 1 = true ∧ (Sw.b2 = .b1 ∨ Sw.b2 = .b2) := by decide +kernel
-- the clauses of `mux.mix` and `mux.shuf`, `mux.alt` at both ends of their ranges
theorem witness_MuxPermutationResults :
    demo.mach.pget 1 = true ∧ 4 = demo.W / 8 / 2 ∧ 2 * 1 < 4 ∧ 7 = 4 + 2 * 1 + 1 ∧ 7 = 2 * 3 + 1 := by decide +kernel
theorem witness_DefaultArrangement :
    DefaultArrangement (demo.W / 8) demo.cfg.num.muxMix ∧ DefaultArrangement (demo.W / 8) demo.cfg.num.muxShuf ∧
      DefaultArrangement (demo.W / 8) demo.cfg.num.muxAlt ∧ DefaultArrangement 4 (.listed [0, 0, 1, 2]) := by
  refine ⟨fun _ h => ?_, fun _ h => ?_, fun _ h => ?_, fun l h => ?_⟩
  · cases h
  · cases h
  · cases h
  · cases h; decide
-- a listed permutation of the bytes of a 32-bit register, for each of the three forms
theorem witness_MuxPermutationResults_listed :
    [2, 0, 3, 1].Perm (List.range (demo32.W / 8)) ∧
      (withNum demo32 { Num.standard with
        muxMix := .listed [2, 0, 3, 1]
        muxShuf := .listed [2, 0, 3, 1]
        muxAlt := .listed [2, 0, 3, 1] }).cfg.num.muxAlt = .listed [2, 0, 3, 1] ∧ [2, 0, 3, 1][3]? = some 1 := by
  decide +kernel
theorem witness_PermuteResult : demo.mach.pget 1 = true ∧ 4 = demo.W / 16 ∧ 4 = 2 ^ 2 := by decide +kernel
theorem witness_MuxInverses : demo.mach.pget 1 = true ∧ (3 : Reg) ≠ 0 ∧ (1 : Reg) ≠ 0 := by decide +kernel

end Sys2Proof.Tests
end

/-! SUPPORT. Reasoning rules that the statements of this part share: how a completing instruction ends, written once for
each shape of instruction, and the word that four bytes of memory make. -/

namespace Sys2Proof.Machine

/-! ### Instructions that write one register -/

/-- Writing a register and going on has the effect and the frame of `WritesReg` (R33). -/
theorem Mach.writesReg_rset_advance {W : Nat} (m : Mach W) (rd : Reg) (v : BitVec W) :
    m.WritesReg (m.rset rd v).advance rd v where
  result := by simp [written]
  regs := fun r hr => by simp [Mach.rget_rset_other m v hr]
  preds := by simp [Mach.SamePredicates]
  mem := fun a => by simp
  outcome := by simp
  pc := by simp

section
variable {i : Instr} {s : State} {qp : PredNum} {rd : Reg}

/-- An instruction of the register-writing shape, under a true predicate, completes with its value in `rd`. -/
theorem completes_writesReg {v : Mach s.W → BitVec s.W} (hi : exec i s = s.writesReg qp rd v)
    (hp : s.mach.pget qp = true) : Completes i s (s.mach.WritesReg · rd (v s.mach)) :=
  ⟨_, by rw [hi, State.writesReg_eq, if_pos hp], s.mach.writesReg_rset_advance rd _⟩

/-- An instruction that writes a register made of subwords completes; what holds of each subword is to be shown of the
value it writes. -/
theorem completes_writesSubwords {v : Mach s.W → BitVec s.W} {b : Nat} {holds : Nat → BitVec b → Prop}
    (hi : exec i s = s.writesReg qp rd v) (hp : s.mach.pget qp = true)
    (hv : ∀ k < s.W / b, holds k (subword (v s.mach) b k)) : Completes i s (s.mach.WritesSubwords · rd b holds) := by
  obtain ⟨m, hm, hw⟩ := completes_writesReg hi hp
  exact ⟨m, hm, _, hw, hv⟩

/-- An instruction of the common parallel form completes with `f` of the two source subwords at every position
(R160). -/
theorem completes_parallel2 {b : Nat} {f : BitVec b → BitVec b → BitVec b} {holds : Nat → BitVec b → Prop}
    {rs1 rs2 : Reg} (hi : exec i s = s.writesReg qp rd fun m => parallel2 b f (m.rget rs1) (m.rget rs2))
    (hp : s.mach.pget qp = true)
    (hf : ∀ k, holds k (f (subword (s.mach.rget rs1) b k) (subword (s.mach.rget rs2) b k))) :
    Completes i s (s.mach.WritesSubwords · rd b holds) :=
  completes_writesSubwords hi hp fun k hk => by rw [subword_parallel2 _ _ _ hk]; exact hf k

/-- A permuting instruction completes with the source subword that its selection names at every position (R210). -/
theorem completes_permute {b : Nat} {sel : Nat → Nat} {holds : Nat → BitVec b → Prop} {rs1 : Reg}
    (hi : exec i s = s.writesReg qp rd fun m => permute b sel (m.rget rs1)) (hp : s.mach.pget qp = true)
    (hsel : ∀ k < s.W / b, holds k (subword (s.mach.rget rs1) b (sel k))) :
    Completes i s (s.mach.WritesSubwords · rd b holds) :=
  completes_writesSubwords hi hp fun k hk => by rw [subword_permute _ _ hk]; exact hsel k hk

/-! ### Instructions that write a predicate pair -/

/-- A compare under a true predicate whose destinations the guard lets through writes the pair and goes on (R110). -/
theorem State.writesPair_true {pd1 pd2 : PredNum} {b : Mach s.W → Option Bool} {v : Bool}
    (hp : s.mach.pget qp = true) (hpd : ¬(pd1 = pd2 ∧ pd1 ≠ 0)) (hb : b s.mach = some v) :
    s.writesPair qp pd1 pd2 b = .next (s.withMach (s.mach.writePair pd1 pd2 v).advance) := by
  rw [State.writesPair, State.predicated_true hp, guardPair, if_neg hpd, hb, State.answer_next]

/-- `Pd1` other than P0 reads the bit written to the pair when `Pd2` is another predicate (R110). -/
theorem Mach.pget_writePair_first {W : Nat} (m : Mach W) {pd1 pd2 : PredNum} (v : Bool) (h0 : pd1 ≠ 0)
    (hne : pd1 ≠ pd2) : (m.writePair pd1 pd2 v).pget pd1 = v := by
  simp [Mach.writePair, Mach.pget_pset, h0, hne]

/-- A compare with a destination `pd1` other than P0, its second result discarded, leaves its bit in `pd1`. -/
theorem completes_writesPair_first {pd1 : PredNum} {v : Mach s.W → Bool}
    (hi : exec i s = s.writesPair qp pd1 0 fun m => some (v m)) (hp : s.mach.pget qp = true) (h0 : pd1 ≠ 0) :
    Completes i s fun m => m.pget pd1 = v s.mach :=
  ⟨_, hi.trans (State.writesPair_true hp (fun h => h0 h.1) rfl), s.mach.pget_writePair_first _ h0 h0⟩

end

/-! ### Multi-byte reads and the fetch -/

/-- A multi-byte read of memory that holds the low bytes of a number is that number, cut to the bytes (R43, R45). -/
theorem Memory.readLE_eq_of_bytes {mem : Memory} {a n v : Nat}
    (h : ∀ k < n, (Memory.read mem (a + k)).toNat = v / 2 ^ (8 * k) % 256) :
    Memory.readLE mem a n = v % 2 ^ (8 * n) := by
  induction n generalizing a v with
  | zero => simp [Memory.readLE, Nat.mod_one]
  | succ n ih =>
    have hfirst : (Memory.read mem a).toNat = v % 256 := by simpa using h 0 (by omega)
    have hrest : Memory.readLE mem (a + 1) n = v / 256 % 2 ^ (8 * n) := ih fun k hk => by
      rw [Nat.add_assoc, Nat.add_comm 1, h (k + 1) (by omega), Nat.div_div_eq_div_mul, Nat.mul_add, Nat.pow_add,
        Nat.mul_comm]
    calc Memory.readLE mem a (n + 1) = v % 256 + 256 * (v / 256 % 2 ^ (8 * n)) := by
          rw [Memory.readLE, hfirst, hrest]
      _ = v % (256 * 2 ^ (8 * n)) := Nat.mod_mul.symm
      _ = v % 2 ^ (8 * (n + 1)) := by rw [Nat.mul_add, Nat.pow_add, Nat.mul_comm]

/-- The word fetched is the word whose four bytes stand at the pc (R45). -/
theorem Mach.fetchWord_eq_of_bytes {W : Nat} {m : Mach W} {w : BitVec 32}
    (h : ∀ k < 4, m.mem.read (m.pc.toNat + k) = w.extractLsb' (8 * k) 8) : m.fetchWord = w := by
  have hread : m.mem.readLE m.pc.toNat 4 = w.toNat % 2 ^ (8 * 4) :=
    Memory.readLE_eq_of_bytes fun k hk => by rw [h k hk, toNat_field, show 2 ^ 8 = 256 from rfl]
  apply BitVec.eq_of_toNat_eq
  simp [Mach.fetchWord, hread, Nat.mod_eq_of_lt w.isLt]

/-- An aligned fetch of four bytes that exist gives the word that stands there (R31, R45). -/
theorem Mach.fetch_eq_of_bytes {W : Nat} {m : Mach W} {absent : List AddrRange} {w : BitVec 32}
    (hal : m.pc.toNat % 4 = 0) (hex : present absent m.pc.toNat 4 = true)
    (h : ∀ k < 4, m.mem.read (m.pc.toNat + k) = w.extractLsb' (8 * k) 8) : m.fetch absent = .word w :=
  Mach.fetch_eq_word.mpr ⟨hal, hex, (Mach.fetchWord_eq_of_bytes h).symm⟩

end Sys2Proof.Machine

/-! PROOFS. The invariant is kept by every update of the state, so by every effect an instruction can have, so by every
step. -/

namespace Sys2Proof.Machine

section
variable {W : Nat} {m : Mach W}

/-- The invariant speaks of memory and the predicate sets alone. -/
theorem Mach.Inv.congr {m' : Mach W} (h : m.Inv) (hmem : m'.mem = m.mem) (hpr : m'.pr = m.pr) : m'.Inv where
  memCanonical := hmem ▸ h.memCanonical
  memInSpace := hmem ▸ h.memInSpace
  p0Set := hpr ▸ h.p0Set

/-! The updates that touch neither, and the writes to the predicate sets and to memory. -/

theorem Mach.Inv.rset (h : m.Inv) (r : Reg) (v : BitVec W) : (m.rset r v).Inv :=
  h.congr (m.rset_mem r v) (m.rset_pr r v)

theorem Mach.Inv.selectSet (h : m.Inv) (k : SetNum) : (m.selectSet k).Inv := h.congr rfl rfl

theorem Mach.Inv.jumpTo (h : m.Inv) (target : BitVec W) : (m.jumpTo target).Inv := h.congr rfl rfl

theorem Mach.Inv.advance (h : m.Inv) : m.advance.Inv := h.congr rfl rfl

theorem Mach.Inv.raise (h : m.Inv) (o : RunOutcome W) : (m.raise o).Inv := h.congr rfl rfl

/-- Loading a predicate set writes 1 to its P0 (R25, R113). -/
theorem Mach.Inv.loadSet (h : m.Inv) (k : SetNum) (image : BitVec 8) : (m.loadSet k image).Inv where
  memCanonical := h.memCanonical
  memInSpace := h.memInSpace
  p0Set := fun k' => by
    by_cases hk : k.val = k'.val
    · simp [hk]
    · simpa [Vector.getElem_set_ne _ _ hk] using h.p0Set k'

/-- A write to one predicate leaves P0 alone, since a write to P0 itself is discarded (R25). -/
theorem Mach.Inv.pset (h : m.Inv) (j : PredNum) (b : Bool) : (m.pset j b).Inv := by
  by_cases hj : j = 0
  · rw [hj, Mach.pset_zero]; exact h
  · refine ⟨by simpa using h.memCanonical, by simpa using h.memInSpace, fun k => ?_⟩
    have hj0 : 0 ≠ j.val := fun e => hj (Fin.ext e.symm)
    rw [Mach.pset_pr m j b k hj]
    split
    · rw [getLsbD_putBit _ _ _ _ (by omega), if_neg hj0]; exact h.p0Set m.aps
    · exact h.p0Set k

theorem Mach.Inv.writePair (h : m.Inv) (pd1 pd2 : PredNum) (t : Bool) : (m.writePair pd1 pd2 t).Inv :=
  (h.pset pd1 t).pset pd2 (!t)

/-- A store that ends inside the address space keeps memory canonical and inside it (R40, R41). -/
theorem Mach.Inv.store (h : m.Inv) {n a : Nat} (v : Nat) (hfits : a + n ≤ 2 ^ W) : (m.store n a v).Inv where
  memCanonical := Memory.wf_writeLE a v n h.memCanonical
  memInSpace := fun c hc => by
    rcases Memory.mem_writeLE hc with ⟨-, hlt⟩ | hc
    · omega
    · exact h.memInSpace c hc
  p0Set := h.p0Set

end

/-! ### An aligned store does not leave the address space -/

/-- The sizes of stores are 1, 2, 4 and 8 bytes (R132, R133). -/
theorem storeAt_size_dvd {W : Nat} {i : Instr} {m : Mach W} {ea : BitVec W} {n : Nat}
    (h : storeAt i m = some (ea, n)) : n ∣ 8 := by
  cases i <;> simp only [storeAt, reduceCtorEq, Option.some.injEq, Prod.mk.injEq] at h <;> obtain ⟨-, rfl⟩ := h <;>
    decide

/-- The bytes of an aligned store end inside the address space, which is a multiple of every store size (R41). -/
theorem storeAt_fits {wd : Width} {i : Instr} {m : Mach wd.bits} {ea : BitVec wd.bits} {n : Nat}
    (hat : storeAt i m = some (ea, n)) (hal : ea.toNat % n = 0) : ea.toNat + n ≤ 2 ^ wd.bits := by
  have hspace : 8 ∣ 2 ^ wd.bits := Nat.pow_dvd_pow 2 (show 3 ≤ wd.bits by cases wd <;> decide)
  have hn : n ∣ 2 ^ wd.bits := (storeAt_size_dvd hat).trans hspace
  have hea : n ∣ ea.toNat := Nat.dvd_of_mod_eq_zero hal
  exact Nat.le_of_lt_add_of_dvd (Nat.add_lt_add_right ea.isLt n) (Nat.dvd_add_self_right.mpr hea) hn

/-! ### Every effect, every step -/

/-- Every effect of an instruction keeps the invariant. -/
theorem Effect.inv {s : State} {i : Instr} {m : Mach s.W} (e : Effect s i m) (h : s.mach.Inv) : m.Inv := by
  cases e with
  | nothing => exact h.advance
  | register rd v => exact (h.rset rd v).advance
  | loadUpdate rd rs1 v base => exact ((h.rset rd v).rset rs1 base).advance
  | memory ea n v hat hal => exact (h.store v (storeAt_fits hat hal)).advance
  | storeUpdate ea n v rs1 base hat hal => exact ((h.store v (storeAt_fits hat hal)).rset rs1 base).advance
  | unaligned ea => exact h.raise _
  | halt => exact h.raise _
  | jump target => exact h.jumpTo target
  | jumpLink target => exact (h.rset _ _).jumpTo target
  | select qp k => exact (h.selectSet k).advance
  | loadSet qp k v => exact ((h.selectSet k).loadSet k v).advance
  | pair qp pd1 pd2 t => exact (h.writePair pd1 pd2 t).advance

/-- Settles O11: a step is a trap of the fetch or one of the effects of an instruction, and each keeps the invariant. -/
theorem stepKeepsInvariant : Obligations.StepKeepsInvariant := by
  intro s t hinv hstep
  obtain ⟨-, ⟨-, rfl⟩ | ⟨w, e, -, -, rfl⟩ | ⟨w, i, -, -, hexec⟩⟩ := step_next hstep
  · exact ⟨Mach.Inv.raise hinv _, rfl⟩
  · exact ⟨Mach.Inv.raise hinv _, rfl⟩
  · obtain ⟨m, rfl, heffect⟩ := exec_effect hexec
    exact ⟨heffect.inv hinv, rfl⟩

end Sys2Proof.Machine

/-! PROOFS. The step and the machine's `ENC`. -/

namespace Sys2Proof.Machine

/-- A word that the `ENC` of the machine lists without a term is illegal (R7, D1). -/
theorem decodeUnder_listed_none {cfg : Config} {before after : List EncEntry} {w : BitVec 32}
    (henc : cfg.enc = before ++ ⟨w, none⟩ :: after) (h : ∀ e ∈ before, e.word ≠ w) :
    decodeUnder cfg w = .error .notInEnc := by
  rw [decodeUnder_listed henc h]; rfl

/-- A word that the `ENC` of the machine lists with a term is that term, as far as R81 and R82 let it (R7, D1). -/
theorem decodeUnder_listed_some {cfg : Config} {before after : List EncEntry} {w : BitVec 32} {i : Instr}
    (henc : cfg.enc = before ++ ⟨w, some i⟩ :: after) (h : ∀ e ∈ before, e.word ≠ w) :
    decodeUnder cfg w = ifLegal cfg.width (.ok i) := by
  rw [decodeUnder_listed henc h]

/-- Settles O5: the decoder's clauses are the laws of a listed and of an unlisted word; the step clause holds because
the fetch gives the word whose bytes stand at the pc. -/
theorem stepRunsDecodedInstruction : Obligations.StepRunsDecodedInstruction := by
  refine ⟨fun cfg w => ⟨decodeUnder_unlisted, fun before after term henc hfirst => ⟨?_, ?_⟩⟩, ?_⟩
  · rintro rfl
    exact decodeUnder_listed_none henc hfirst
  · rintro i rfl
    rw [decodeUnder_listed_some henc hfirst]
    refine ⟨fun hlegal => ?_, fun hillegal => ?_⟩
    · exact ifLegal_eq_ok.mpr ⟨rfl, (wellFormed_iff_legal cfg.width i).mpr hlegal⟩
    · exact ifLegal_illFormed (mt (wellFormed_iff_legal cfg.width i).mp hillegal)
  · intro s w i hrun hal hex hbytes hdec
    exact step_exec hrun (Mach.fetch_eq_of_bytes hal hex hbytes) hdec

end Sys2Proof.Machine

/-! PROOFS. The relations of the compares. -/

namespace Sys2Proof.Machine

section
variable {W : Nat} (a b : BitVec W)

/-! Signed numbers are two's complement (R10); `gt` and `ge` swap the operands of `lt` and `le` (R111). -/

theorem relHolds_eq_iff : relHolds .eq a b = true ↔ a = b := beq_iff_eq
theorem relHolds_ne_iff : relHolds .ne a b = true ↔ a ≠ b := bne_iff_ne
theorem relHolds_lt_iff : relHolds .lt a b = true ↔ a.toInt < b.toInt := BitVec.slt_iff_toInt_lt
theorem relHolds_le_iff : relHolds .le a b = true ↔ a.toInt ≤ b.toInt := BitVec.sle_iff_toInt_le
theorem relHolds_gt_iff : relHolds .gt a b = true ↔ a.toInt > b.toInt := BitVec.slt_iff_toInt_lt
theorem relHolds_ge_iff : relHolds .ge a b = true ↔ a.toInt ≥ b.toInt := BitVec.sle_iff_toInt_le
theorem relHolds_ltu_iff : relHolds .ltu a b = true ↔ a.toNat < b.toNat := BitVec.ult_iff_lt
theorem relHolds_leu_iff : relHolds .leu a b = true ↔ a.toNat ≤ b.toNat := BitVec.ule_iff_le
theorem relHolds_gtu_iff : relHolds .gtu a b = true ↔ a.toNat > b.toNat := BitVec.ult_iff_lt
theorem relHolds_geu_iff : relHolds .geu a b = true ↔ a.toNat ≥ b.toNat := BitVec.ule_iff_le

end

/-- Settles O26: each relation is the order it names, and `cmp` and `cmpi` leave it in `Pd1`. -/
theorem relationTable : Obligations.RelationTable := by
  refine ⟨fun W a b => ⟨relHolds_eq_iff a b, relHolds_ne_iff a b, relHolds_lt_iff a b, relHolds_le_iff a b,
    relHolds_gt_iff a b, relHolds_ge_iff a b, relHolds_ltu_iff a b, relHolds_leu_iff a b, relHolds_gtu_iff a b,
    relHolds_geu_iff a b⟩, fun s qp pd1 rel rs1 rs2 imm8 hp h0 => ⟨?_, ?_⟩⟩
  · exact completes_writesPair_first (v := fun m => relHolds rel (m.rget rs1) (m.rget rs2)) rfl hp h0
  · exact completes_writesPair_first (v := fun m => relHolds rel (m.rget rs1) (imm8.signExtend s.W)) rfl hp h0

end Sys2Proof.Machine

/-! PROOFS. The saturating subword functions as numbers (R12). -/

namespace Sys2Proof

/-- A subword has at least one bit (R11). -/
theorem Sw.bits_pos (sw : Sw) : 0 < sw.bits := by cases sw <;> decide

end Sys2Proof

namespace Sys2Proof.Machine

section
variable {b : Nat} (a c : BitVec b)

/-- An unsigned saturating sum can only leave the range at its top (R162). -/
theorem toNat_addSatU : (addSatU a c).toNat = min (a.toNat + c.toNat) (2 ^ b - 1) := by
  have hsat := toNat_satU b ((a.toNat : Int) + c.toNat)
  have hpos := Nat.two_pow_pos b
  rw [addSatU]; omega

/-- An unsigned saturating difference can only leave the range at 0 (R166). -/
theorem toNat_subSatU : (subSatU a c).toNat = a.toNat - c.toNat := by
  have hsat := toNat_satU b ((a.toNat : Int) - c.toNat)
  have ha := a.isLt
  rw [subSatU]; omega

end

/-- Settles O45: each of the four is the parallel form of a saturating sum or difference. -/
theorem saturatingParallelResults : Obligations.SaturatingParallelResults := by
  rintro s qp sw rd rs1 rs2 hp - x y top rfl rfl rfl
  refine ⟨?_, ?_, ?_, ?_⟩
  · exact completes_parallel2 (i := .paddU qp sw rd rs1 rs2) rfl hp fun k => toNat_addSatU _ _
  · exact completes_parallel2 (i := .psubU qp sw rd rs1 rs2) rfl hp fun k => toNat_subSatU _ _
  · exact completes_parallel2 (i := .paddS qp sw rd rs1 rs2) rfl hp fun k => toInt_satS _ sw.bits_pos _
  · exact completes_parallel2 (i := .psubS qp sw rd rs1 rs2) rfl hp fun k => toInt_satS _ sw.bits_pos _

end Sys2Proof.Machine

/-! PROOFS. The selections of the byte permutations of `mux` (R214 to R216). -/

namespace Sys2Proof

/-- Each half of a register's bytes has an even number of them (R6). -/
theorem Width.four_dvd_bytes (wd : Width) : 4 ∣ wd.bits / 8 := by cases wd <;> decide

end Sys2Proof

namespace Sys2Proof.Machine

section
variable {n j : Nat}

/-! In `mux.mix` the upper half of the result is the mix left of the two halves of the source, the lower half their mix
right (R214). That an odd position stays in its half needs halves of even length. -/

theorem muxMixSel_upper_odd : muxMixSel n (n / 2 + 2 * j + 1) = n / 2 + 2 * j + 1 := by
  rw [muxMixSel, if_pos (by omega), if_pos (by omega)]

theorem muxMixSel_upper_even : muxMixSel n (n / 2 + 2 * j) = 2 * j + 1 := by
  rw [muxMixSel, if_pos (by omega), if_neg (by omega)]; omega

theorem muxMixSel_lower_odd (hn : 4 ∣ n) (hj : 2 * j < n / 2) : muxMixSel n (2 * j + 1) = n / 2 + 2 * j := by
  rw [muxMixSel, if_neg (by omega), if_pos (by omega)]; omega

theorem muxMixSel_lower_even (hj : 2 * j < n / 2) : muxMixSel n (2 * j) = 2 * j := by
  rw [muxMixSel, if_neg (by omega), if_neg (by omega)]

theorem muxShufSel_odd : muxShufSel n (2 * j + 1) = n / 2 + j := by
  rw [muxShufSel, if_pos (by omega)]; omega

theorem muxShufSel_even : muxShufSel n (2 * j) = j := by
  rw [muxShufSel, if_neg (by omega)]; omega

theorem muxAltSel_upper : muxAltSel n (n / 2 + j) = 2 * j + 1 := by
  rw [muxAltSel, if_pos (by omega)]; omega

theorem muxAltSel_lower (hj : j < n / 2) : muxAltSel n j = 2 * j := by
  rw [muxAltSel, if_neg (by omega)]

end

section
variable {i : Instr} {s : State} {qp : PredNum} {rd rs1 : Reg} {reading : Arrangement} {std : Nat → Nat → Nat}

/-- A byte permutation under a reading of `NUM` that lists a permutation takes each byte from where its entry says
(D31). -/
theorem completes_permute_listed {l : List Nat}
    (hi : exec i s = s.writesReg qp rd fun m => permute 8 (arranged reading std (s.W / 8)) (m.rget rs1))
    (hp : s.mach.pget qp = true) (hl : l.Perm (List.range (s.W / 8))) (hreading : reading = .listed l) :
    Completes i s (s.mach.WritesSubwords · rd 8 fun k r =>
      ∀ j, l[k]? = some j → r = subword (s.mach.rget rs1) 8 j) := by
  subst hreading
  refine completes_permute hi hp fun k hk j hj => ?_
  rw [arranged_listed std hl hk] at hj
  rw [Option.some.inj hj]

/-- A byte permutation under its default takes each byte from where the rule says (D31). -/
theorem completes_permute_default {holds : Nat → BitVec 8 → Prop}
    (hi : exec i s = s.writesReg qp rd fun m => permute 8 (arranged reading std (s.W / 8)) (m.rget rs1))
    (hp : s.mach.pget qp = true) (hdefault : DefaultArrangement (s.W / 8) reading)
    (hstd : ∀ k, holds k (subword (s.mach.rget rs1) 8 (std (s.W / 8) k))) :
    Completes i s (s.mach.WritesSubwords · rd 8 holds) :=
  completes_permute hi hp fun k _ => by rw [arranged_std std hdefault]; exact hstd k

end

/-- Settles O58: under the default each form selects the byte the rule names, under a listing the byte the entry
names. -/
theorem muxPermutationResults : Obligations.MuxPermutationResults := by
  rintro s qp rd rs1 hp x h rfl rfl
  refine ⟨⟨fun hdef => ?_, fun hdef => ?_, fun hdef => ?_⟩,
    fun l hl => ⟨fun hnum => ?_, fun hnum => ?_, fun hnum => ?_⟩⟩
  · refine completes_permute_default (i := .muxMix qp .b1 rd rs1) rfl hp hdef fun k j hj => ⟨?_, ?_, ?_, ?_⟩
    · rintro rfl; rw [muxMixSel_upper_odd]
    · rintro rfl; rw [muxMixSel_upper_even]
    · rintro rfl; rw [muxMixSel_lower_odd s.cfg.width.four_dvd_bytes hj]
    · rintro rfl; rw [muxMixSel_lower_even hj]
  · refine completes_permute_default (i := .muxShuf qp .b1 rd rs1) rfl hp hdef fun k j _ => ⟨?_, ?_⟩
    · rintro rfl; rw [muxShufSel_odd]
    · rintro rfl; rw [muxShufSel_even]
  · refine completes_permute_default (i := .muxAlt qp .b1 rd rs1) rfl hp hdef fun k j hj => ⟨?_, ?_⟩
    · rintro rfl; rw [muxAltSel_upper]
    · rintro rfl; rw [muxAltSel_lower hj]
  · exact completes_permute_listed (i := .muxMix qp .b1 rd rs1) rfl hp hl hnum
  · exact completes_permute_listed (i := .muxShuf qp .b1 rd rs1) rfl hp hl hnum
  · exact completes_permute_listed (i := .muxAlt qp .b1 rd rs1) rfl hp hl hnum

end Sys2Proof.Machine

/-! PROOFS. What each effect of an instruction leaves unchanged of the registers, the predicates, `aps` and the pc, and
from that the frames of every instruction. -/

namespace Sys2Proof.Machine

section
variable {W : Nat} {m m' : Mach W}

/-! ### Predicates of any set -/

@[simp] theorem Mach.writePair_aps (pd1 pd2 : PredNum) (t : Bool) : (m.writePair pd1 pd2 t).aps = m.aps := by
  simp [Mach.writePair]
@[simp] theorem Mach.writePair_pc (pd1 pd2 : PredNum) (t : Bool) : (m.writePair pd1 pd2 t).pc = m.pc := by
  simp [Mach.writePair]
@[simp] theorem Mach.rget_writePair (pd1 pd2 : PredNum) (t : Bool) (r : Reg) :
    (m.writePair pd1 pd2 t).rget r = m.rget r := by
  simp [Mach.writePair]

/-- Reading a predicate of any set depends on the stored sets alone. -/
theorem Mach.predOf_congr (h : m'.pr = m.pr) (k : SetNum) (j : PredNum) : m'.predOf k j = m.predOf k j := by
  simp [Mach.predOf, h]

/-- A write to one predicate of the active set leaves the other predicates of every set alone (R24). -/
theorem Mach.predOf_pset_other {j j' : PredNum} {k : SetNum} (b : Bool) (h : ¬(k = m.aps ∧ j' = j)) :
    (m.pset j b).predOf k j' = m.predOf k j' := by
  by_cases hj : j = 0
  · rw [hj, Mach.pset_zero]
  · rw [Mach.predOf, Mach.predOf, Mach.pset_pr m j b k hj]
    by_cases hk : k = m.aps
    · have hv : j'.val ≠ j.val := fun e => h ⟨hk, Fin.ext e⟩
      subst hk
      rw [if_pos rfl, getLsbD_putBit _ _ _ _ j'.isLt, if_neg hv]
    · rw [if_neg hk]

/-- A pair write leaves all but the two predicates of the active set alone (R110). -/
theorem Mach.predOf_writePair_other {pd1 pd2 j : PredNum} {k : SetNum} (t : Bool)
    (h : ¬(k = m.aps ∧ (j = pd1 ∨ j = pd2))) : (m.writePair pd1 pd2 t).predOf k j = m.predOf k j := by
  rw [Mach.writePair, Mach.predOf_pset_other _ fun ⟨hk, hj⟩ => h ⟨by simpa using hk, .inr hj⟩,
    Mach.predOf_pset_other _ fun ⟨hk, hj⟩ => h ⟨hk, .inl hj⟩]

end

section
variable {s t : State} {i : Instr} {m : Mach s.W}

/-! ### The frame of every effect -/

/-- An effect leaves `aps` alone, or is a set selection and leaves the set it names active (R26). -/
theorem Effect.aps_cases (e : Effect s i m) :
    m.aps = s.mach.aps ∨ (∃ qp k, i = .changepr qp k ∧ m.aps = k) ∨ ∃ qp k v, i = .changeprLd qp k v ∧ m.aps = k := by
  cases e with
  | select qp k hi => exact .inr (.inl ⟨qp, k, hi, rfl⟩)
  | loadSet qp k v hi => exact .inr (.inr ⟨qp, k, v, hi, rfl⟩)
  | _ => left; simp

/-- An effect changes no register that its instruction is not said to write (R23). -/
theorem Effect.rget_eq (e : Effect s i m) {r : Reg} (hr : r ∉ writtenRegs i) : m.rget r = s.mach.rget r := by
  have hne : ∀ {rd}, rd ∈ writtenRegs i → r ≠ rd := fun hrd h => hr (h ▸ hrd)
  cases e with
  | register rd v hrd => rw [Mach.rget_advance, Mach.rget_rset_other _ _ (hne hrd)]
  | loadUpdate rd rs1 v base hrd hrs1 =>
    rw [Mach.rget_advance, Mach.rget_rset_other _ _ (hne hrs1), Mach.rget_rset_other _ _ (hne hrd)]
  | storeUpdate ea n v rs1 base hat hal hrs1 =>
    rw [Mach.rget_advance, Mach.rget_rset_other _ _ (hne hrs1), Mach.rget_store]
  | jumpLink target hi =>
    have hlink : linkReg ∈ writtenRegs i := by
      obtain ⟨_, _, rfl, -⟩ | ⟨_, _, rfl, -⟩ := hi <;> exact List.mem_singleton.mpr rfl
    rw [Mach.rget_jumpTo, Mach.rget_rset_other _ _ (hne hlink)]
  | _ => simp

/-- The instruction is a compare or `testbit` with these two destinations (R110). -/
def WritesPairOf (i : Instr) (qp pd1 pd2 : PredNum) : Prop :=
  (∃ rel rs1 rs2, i = .cmp qp rel rs1 rs2 pd1 pd2 ∨ i = .cmpPw0 qp rel rs1 rs2 pd1 pd2 ∨
      i = .cmpPw1 qp rel rs1 rs2 pd1 pd2) ∨
    (∃ rel rs1 imm8, i = .cmpi qp rel rs1 imm8 pd1 pd2) ∨ ∃ rs1 imm8, i = .testbit qp rs1 imm8 pd1 pd2

/-- An effect leaves a predicate alone, or loads a predicate set, or is a pair write to that predicate of the active
set (R24, R27). -/
theorem Effect.predOf_cases (e : Effect s i m) (k : SetNum) (j : PredNum) :
    m.predOf k j = s.mach.predOf k j ∨ (∃ qp v, i = .changeprLd qp k v) ∨
      (k = s.mach.aps ∧ ∃ qp pd1 pd2, (j = pd1 ∨ j = pd2) ∧ WritesPairOf i qp pd1 pd2) := by
  cases e with
  | loadSet qp k' v hi =>
    by_cases hk : k = k'
    · subst hk; exact .inr (.inl ⟨qp, v, hi⟩)
    · have hne : k'.val ≠ k.val := fun h => hk (Fin.ext h.symm)
      left; simp [Mach.predOf, hne]
  | pair qp pd1 pd2 t hi =>
    by_cases hkj : k = s.mach.aps ∧ (j = pd1 ∨ j = pd2)
    · exact .inr (.inr ⟨hkj.1, qp, pd1, pd2, hkj.2, hi⟩)
    · exact .inl (Mach.predOf_writePair_other t hkj)
  | _ => exact .inl (Mach.predOf_congr (by simp) k j)

/-- Where an effect leaves the pc: at the next instruction, at the instruction where the run ends, or at the target of a
jump (R33, R105, R236). -/
theorem Effect.pc_cases (e : Effect s i m) :
    m.pc = s.mach.pc + 4 ∨ (m.pc = s.mach.pc ∧ m.outcome ≠ .running) ∨
      (∃ qp imm, (i = .jmp qp imm ∨ i = .jmpLink qp imm) ∧ m.pc = s.mach.relativeTarget s.cfg.jmpScale imm) ∨
      ∃ qp rd, (i = .jmpReg qp rd ∨ i = .jmpRegLink qp rd) ∧ m.pc = s.mach.registerTarget s.cfg.jmpRegMode rd := by
  cases e with
  | unaligned ea => exact .inr (.inl ⟨rfl, nofun⟩)
  | halt => exact .inr (.inl ⟨rfl, nofun⟩)
  | jump target hi =>
    obtain ⟨qp, imm, hi, rfl⟩ | ⟨qp, rd, hi, rfl⟩ := hi
    · exact .inr (.inr (.inl ⟨qp, imm, .inl hi, rfl⟩))
    · exact .inr (.inr (.inr ⟨qp, rd, .inl hi, rfl⟩))
  | jumpLink target hi =>
    obtain ⟨qp, imm, hi, rfl⟩ | ⟨qp, rd, hi, rfl⟩ := hi
    · exact .inr (.inr (.inl ⟨qp, imm, .inr hi, rfl⟩))
    · exact .inr (.inr (.inr ⟨qp, rd, .inr hi, rfl⟩))
  | _ => left; simp

end

/-! ### The frames of every instruction -/

/-- Settles O14: every effect but a set selection keeps `aps`. -/
theorem onlySetSelectionWritesAps : Obligations.OnlySetSelectionWritesAps := by
  intro i s t hexec hne
  obtain ⟨m, rfl, e⟩ := exec_effect hexec
  exact e.aps_cases.resolve_left hne

/-- Settles O15: every effect but the loading of a set and a pair write keeps every predicate. -/
theorem onlyComparesAndLoadsWritePredicates : Obligations.OnlyComparesAndLoadsWritePredicates := by
  intro i s t k j hexec hne
  obtain ⟨m, rfl, e⟩ := exec_effect hexec
  exact (e.predOf_cases k j).resolve_left hne

/-- Settles O17: the registers an effect writes are among those of its instruction. -/
theorem onlyWrittenRegistersChange : Obligations.OnlyWrittenRegistersChange := by
  intro i s t hexec
  obtain ⟨m, rfl, e⟩ := exec_effect hexec
  exact ⟨m, rfl, fun r hr => e.rget_eq hr⟩

/-- Settles O18: only the effect of a jump leaves the pc elsewhere than at the instruction or the next one. -/
theorem onlyJumpsRedirect : Obligations.OnlyJumpsRedirect := by
  intro i s t hexec
  obtain ⟨m, rfl, e⟩ := exec_effect hexec
  exact ⟨m, rfl, e.pc_cases⟩

end Sys2Proof.Machine

/-! PROOFS. The traps of the fetch, the nullified instruction, the state at the start of a run, and the register file. -/

namespace Sys2Proof.Machine

/-- The fetch refuses a pc that is not a multiple of 4 before it looks at memory (R48). -/
theorem Mach.fetch_eq_misaligned {W : Nat} {m : Mach W} {absent : List AddrRange} (h : m.pc.toNat % 4 ≠ 0) :
    m.fetch absent = .misaligned := by
  rw [Mach.fetch, if_pos h]

section
variable {s : State}

/-- A misaligned fetch of a running machine raises the Unaligned Address Trap (R48). -/
theorem step_misaligned (ho : s.mach.outcome = .running) (hf : s.mach.fetch s.cfg.absent = .misaligned) :
    step s = .next (s.raise (.unalignedAddressTrap s.mach.pc)) := by
  simp [step, ho, hf]

/-- A running machine that fetches an illegal word raises the Illegal Instruction Trap; no predicate is read (R83). -/
theorem step_illegal {w : BitVec 32} {e : Illegal} (ho : s.mach.outcome = .running)
    (hf : s.mach.fetch s.cfg.absent = .word w) (hd : decodeUnder s.cfg w = .error e) :
    step s = .next (s.raise (.illegalInstructionTrap w)) := by
  simp [step, ho, hf, hd]

end

/-- Settles O6: the fetch of a misaligned pc, and of the word whose bytes stand at an aligned one. -/
theorem fetchTraps : Obligations.FetchTraps := by
  intro s hrun
  refine ⟨fun hmis => ?_, fun w e hal hex hbytes hdec => ?_⟩
  · exact step_misaligned hrun (Mach.fetch_eq_misaligned hmis)
  · exact step_illegal hrun (Mach.fetch_eq_of_bytes hal hex hbytes) hdec

/-- Settles O8: every instruction is a predicated operation, which does nothing but advance the pc when its predicate
is 0. -/
theorem nullifiedOnlyAdvancesPc : Obligations.NullifiedOnlyAdvancesPc := by
  intro i s hp
  obtain ⟨f, hexec⟩ := exec_eq_predicated i s
  exact hexec.trans (State.predicated_false hp)

/-- P0 of every predicate set of the launch state is stored as 1 (R37). -/
theorem State.reset_p0 (k : SetNum) : (State.reset.mach.pr[k.val]'k.isLt).getLsbD 0 = true := by
  simp [State.reset]

/-- Settles O9: R0 reads 0 in every state; the sets and the outcome are those of `State.reset`. -/
theorem resetFixedValues : Obligations.ResetFixedValues :=
  ⟨Mach.rget_zero _, State.reset_p0, rfl⟩

/-- Settles O10: the launch state lists no byte of memory, and every set of it holds P0. -/
theorem resetMeetsInvariant : Obligations.ResetMeetsInvariant where
  memCanonical := rfl
  memInSpace := nofun
  p0Set := State.reset_p0

/-- Settles O19: what a register reads after a write to the same and to another register. -/
theorem registerFile : Obligations.RegisterFile := fun _ m r _ v =>
  ⟨m.rget_zero, m.rget_rset_same r v, m.rget_rset_other v⟩

end Sys2Proof.Machine

/-! PROOFS. Memory: what an instruction leaves unchanged of it and how a run ends, the accesses that trap or fault, and
reads and writes of different widths. -/

namespace Sys2Proof.Machine

section
variable {W : Nat} {m : Mach W}

@[simp] theorem Mach.writePair_mem (pd1 pd2 : PredNum) (t : Bool) : (m.writePair pd1 pd2 t).mem = m.mem := by
  simp [Mach.writePair]
@[simp] theorem Mach.writePair_outcome (pd1 pd2 : PredNum) (t : Bool) :
    (m.writePair pd1 pd2 t).outcome = m.outcome := by
  simp [Mach.writePair]

/-- A byte outside a store reads as before (R44). -/
theorem Mach.store_read_outside {n ea a : Nat} (v : Nat) (h : ¬(ea ≤ a ∧ a < ea + n)) :
    (m.store n ea v).mem.read a = m.mem.read a := by
  rw [Mach.store_read, if_neg h]

end

/-! ### What every effect does to memory and to the outcome -/

section
variable {s : State} {i : Instr} {m : Mach s.W}

/-- An effect leaves a byte alone, or is a store whose bytes it is among (R42, R54). -/
theorem Effect.read_cases (e : Effect s i m) (a : Nat) :
    m.mem.read a = s.mach.mem.read a ∨
      ∃ ea n, storeAt i s.mach = some (ea, n) ∧ ea.toNat ≤ a ∧ a < ea.toNat + n := by
  cases e with
  | memory ea n v hat hal =>
    by_cases ha : ea.toNat ≤ a ∧ a < ea.toNat + n
    · exact .inr ⟨ea, n, hat, ha⟩
    · exact .inl (Mach.store_read_outside v ha)
  | storeUpdate ea n v rs1 base hat hal hrs1 =>
    by_cases ha : ea.toNat ≤ a ∧ a < ea.toNat + n
    · exact .inr ⟨ea, n, hat, ha⟩
    · left; rw [Mach.advance_mem, Mach.rset_mem, Mach.store_read_outside v ha]
  | _ => left; simp

/-- An effect leaves the outcome alone, or is nothing but the end of the run (R236). -/
theorem Effect.outcome_cases (e : Effect s i m) : m.outcome = s.mach.outcome ∨ ∃ o, m = s.mach.raise o := by
  cases e with
  | unaligned ea => exact .inr ⟨_, rfl⟩
  | halt => exact .inr ⟨_, rfl⟩
  | _ => left; simp

end

/-- Settles O16: only the effect of a store changes a byte, and only one of those it stores to. -/
theorem onlyStoresChangeMemory : Obligations.OnlyStoresChangeMemory := by
  intro i s t a hexec hne
  obtain ⟨m, rfl, e⟩ := exec_effect hexec
  exact (e.read_cases a).resolve_left hne

/-- Settles O12: the traps of the fetch only set the outcome; an effect that leaves the outcome alone leaves the run
going. -/
theorem endOfRunIsPrecise : Obligations.EndOfRunIsPrecise := by
  intro s t hstep hend
  obtain ⟨hrun, ⟨-, rfl⟩ | ⟨w, e, -, -, rfl⟩ | ⟨w, i, -, -, hexec⟩⟩ := step_next hstep
  · exact ⟨_, rfl⟩
  · exact ⟨_, rfl⟩
  · obtain ⟨m, rfl, heffect⟩ := exec_effect hexec
    obtain hsame | ⟨o, rfl⟩ := heffect.outcome_cases
    · exact absurd (hsame.trans hrun) hend
    · exact ⟨o, rfl⟩

/-! ### Accesses that trap or fault -/

section
variable {s : State} {i : Instr}

/-- A plain load under a true predicate is the access of its bytes (R128, R130). -/
theorem State.loads_true {qp : PredNum} {n : Nat} {rd : Reg} {ea : Mach s.W → BitVec s.W}
    (hp : s.mach.pget qp = true) :
    s.loads qp n rd ea = s.answer (access s.cfg s.mach n (ea s.mach)
      (.next (s.mach.rset rd (s.mach.loaded s.cfg.loadExt n (ea s.mach))).advance)) :=
  State.predicated_true hp

/-- An update load under a true predicate is the access of the bytes at its base (R129, R131). -/
theorem State.loadsUpdate_true {qp : PredNum} {n : Nat} {rd rs1 : Reg} {base : Mach s.W → BitVec s.W}
    (hp : s.mach.pget qp = true) :
    s.loadsUpdate qp n rd rs1 base = s.answer (access s.cfg s.mach n (s.mach.rget rs1)
      (if rd = rs1 ∧ rd ≠ 0 then .refused .loadUpdateRdEqualsRs1
       else .next ((s.mach.rset rd (s.mach.loaded s.cfg.loadExt n (s.mach.rget rs1))).rset rs1
        (base s.mach)).advance)) :=
  State.predicated_true hp

/-- A plain store under a true predicate is the access of its bytes (R132). -/
theorem State.stores_true {qp : PredNum} {n : Nat} {rd : Reg} {ea : Mach s.W → BitVec s.W}
    (hp : s.mach.pget qp = true) :
    s.stores qp n rd ea = s.answer (access s.cfg s.mach n (ea s.mach)
      (.next (s.mach.store n (ea s.mach).toNat (s.mach.rget rd).toNat).advance)) :=
  State.predicated_true hp

/-- An update store under a true predicate is the access of the bytes at its base (R133). -/
theorem State.storesUpdate_true {qp : PredNum} {n : Nat} {rd rs1 : Reg} {base : Mach s.W → BitVec s.W}
    (hp : s.mach.pget qp = true) :
    s.storesUpdate qp n rd rs1 base = s.answer (access s.cfg s.mach n (s.mach.rget rs1)
      (.next ((s.mach.store n (s.mach.rget rs1).toNat (s.mach.rget rd).toNat).rset rs1 (base s.mach)).advance)) :=
  State.predicated_true hp

/-- Every load and store, under a true predicate, is an access of the bytes it is said to load or store (R42, R125). -/
theorem exec_eq_access {a : BitVec s.W} {n : Nat} (hp : s.mach.pget i.qp = true)
    (hat : loadAt i s.mach = some (a, n) ∨ storeAt i s.mach = some (a, n)) :
    ∃ k, exec i s = s.answer (access s.cfg s.mach n a k) := by
  cases i <;> simp only [loadAt, storeAt, reduceCtorEq, or_false, false_or, Option.some.injEq, Prod.mk.injEq] at hat <;>
    obtain ⟨rfl, rfl⟩ := hat <;> simp only [exec]
  case load4 | load8 | loadx => exact ⟨_, State.loads_true hp⟩
  case load4Update | load8Update | loadxUpdate => exact ⟨_, State.loadsUpdate_true hp⟩
  case store1 | store2 | store4 | store8 => exact ⟨_, State.stores_true hp⟩
  case store1Update | store2Update | store4Update | store8Update => exact ⟨_, State.storesUpdate_true hp⟩

/-- The bytes of an access do not all exist when one of them lies in an absent range (R52). -/
theorem present_eq_false {absent : List AddrRange} {r : AddrRange} {a n k : Nat} (hr : r ∈ absent) (hk : k < n)
    (hge : r.base ≤ a + k) (hlt : a + k < r.base + r.size) : present absent a n = false := by
  refine Bool.eq_false_iff.mpr fun hpresent => ?_
  have := present_iff.mp hpresent k hk r hr
  omega

/-- An aligned fetch of four bytes that do not all exist finds no word (R52). -/
theorem Mach.fetch_eq_outside {W : Nat} {m : Mach W} {absent : List AddrRange} (hal : m.pc.toNat % 4 = 0)
    (hex : present absent m.pc.toNat 4 = false) : m.fetch absent = .outside := by
  simp [Mach.fetch, hal, hex]

/-- The fetch of a running machine from outside memory faults (R52). -/
theorem step_outside (ho : s.mach.outcome = .running) (hf : s.mach.fetch s.cfg.absent = .outside) :
    step s = .fault (.outsideMem s.mach.pc.toNat) := by
  simp [step, ho, hf]

end

/-- Settles O35: every load and store is an access, and a misaligned access only raises the trap. -/
theorem misalignedAccessTraps : Obligations.MisalignedAccessTraps := by
  intro i s a n hp hat hmis
  obtain ⟨k, hexec⟩ := exec_eq_access hp hat
  rw [hexec, access_misaligned hmis]
  rfl

/-- Settles O36: every load and store is an access, and an aligned access or fetch of bytes that do not all exist
faults. -/
theorem accessOutsideMemoryFaults : Obligations.AccessOutsideMemoryFaults := by
  refine ⟨fun _ _ _ => present_iff, fun s a n k r hr hk hge hlt => ?_⟩
  have hex : present s.cfg.absent a n = false := present_eq_false hr hk hge hlt
  refine ⟨?_, ?_⟩
  · rintro rfl rfl hal hrun
    exact step_outside hrun (Mach.fetch_eq_outside hal hex)
  · rintro i ea rfl hp hat hal
    obtain ⟨_, hexec⟩ := exec_eq_access hp hat
    rw [hexec, access_outside hal hex, State.answer_fault]

/-! ### Accesses of different widths -/

section
variable (mem : Memory) (a : Nat) {n k : Nat}

/-- The low bytes of a multi-byte read are the read of those bytes (R43). -/
theorem Memory.readLE_mod (h : k ≤ n) : mem.readLE a n % 2 ^ (8 * k) = mem.readLE a k :=
  (Memory.readLE_eq_of_bytes fun j hj => (Memory.readLE_byte mem a n j (by omega)).symm).symm

/-- Byte `k` of a multi-byte read, as bits, is the byte at `a + k` (R43). -/
theorem Memory.extractLsb'_readLE_byte (hk : k < n) :
    (BitVec.ofNat (8 * n) (mem.readLE a n)).extractLsb' (8 * k) 8 = mem.read (a + k) := by
  apply BitVec.eq_of_toNat_eq
  rw [BitVec.extractLsb'_toNat, BitVec.toNat_ofNat, Nat.mod_eq_of_lt (Memory.readLE_lt mem a n),
    Nat.shiftRight_eq_div_pow, ← Memory.readLE_byte mem a n k hk]

/-- The low bytes of a multi-byte read, as bits, are the read of those bytes (R43). -/
theorem Memory.extractLsb'_readLE_low (h : k ≤ n) :
    (BitVec.ofNat (8 * n) (mem.readLE a n)).extractLsb' 0 (8 * k) = BitVec.ofNat (8 * k) (mem.readLE a k) := by
  apply BitVec.eq_of_toNat_eq
  rw [BitVec.extractLsb'_toNat, BitVec.toNat_ofNat, BitVec.toNat_ofNat, Nat.shiftRight_zero,
    Nat.mod_eq_of_lt (Memory.readLE_lt mem a n), Memory.readLE_mod mem a h, Nat.mod_eq_of_lt (Memory.readLE_lt mem a k)]

end

section
variable {W w : Nat} (m : Mach W) (a : Nat)

/-- A read inside the bytes of a store gives the field of the stored value that stands there (R43, R44, R46). -/
theorem Mach.readLE_store_within {size k n : Nat} (v : BitVec w) (h : k + n ≤ size) :
    BitVec.ofNat (8 * n) ((m.store size a v.toNat).mem.readLE (a + k) n) = v.extractLsb' (8 * k) (8 * n) := by
  have hbytes : (m.store size a v.toNat).mem.readLE (a + k) n = v.toNat / 2 ^ (8 * k) % 2 ^ (8 * n) :=
    Memory.readLE_eq_of_bytes fun j hj => by
      rw [Mach.store_read, if_pos (by omega), show a + k + j - a = k + j by omega, BitVec.toNat_ofNat,
        Nat.div_div_eq_div_mul, ← Nat.pow_add, ← Nat.mul_add]
  apply BitVec.eq_of_toNat_eq
  rw [hbytes, BitVec.extractLsb'_toNat, BitVec.toNat_ofNat, Nat.mod_mod, Nat.shiftRight_eq_div_pow]

/-- A read of the bytes below a store is as before (R44, R46). -/
theorem Mach.readLE_store_below (size v k : Nat) : (m.store size (a + k) v).mem.readLE a k = m.mem.readLE a k :=
  Memory.readLE_congr a k fun _ hj => Mach.store_read_outside v (by omega)

end

/-- Settles O20: a read inside an 8-byte store gives a field of the stored value; a 4-byte read whose top byte was
stored has that byte on top, and below it the bytes that stood there. -/
theorem mixedWidthAccesses : Obligations.MixedWidthAccesses := by
  intro W m a v b
  refine ⟨m.readLE_store_within a (k := 0) v (by omega), m.readLE_store_within a (k := 4) v (by omega), ?_, ?_, ?_⟩
  · exact (m.readLE_store_within a (k := 0) (n := 8) v (by omega)).trans BitVec.extractLsb'_eq_self
  · calc _ = (m.store 1 (a + 3) b.toNat).mem.read (a + 3) :=
          Memory.extractLsb'_readLE_byte _ a (n := 4) (k := 3) (by omega)
      _ = b := by rw [Mach.store_read, if_pos (by omega)]; simp
  · calc _ = BitVec.ofNat 24 ((m.store 1 (a + 3) b.toNat).mem.readLE a 3) :=
          Memory.extractLsb'_readLE_low _ a (n := 4) (k := 3) (by omega)
      _ = BitVec.ofNat 24 (m.mem.readLE a 3) := by rw [Mach.readLE_store_below]
      _ = _ := (Memory.extractLsb'_readLE_low m.mem a (n := 4) (k := 3) (by omega)).symm

end Sys2Proof.Machine

/-! PROOFS. The word of an instruction decodes to the instruction: what the opcode map answers on a word of each shape,
and from that the decoder on the word of every term. -/

namespace Sys2Proof

open Laws.EncodeHead (code_le mulCode_le addCode_le)

/-- A field that must be zero, by its number (R80). -/
theorem requireZero_eq {n : Nat} (field : BitVec n) (i : Instr) :
    requireZero field i = if field.toNat = 0 then .ok i else .error .nonzeroField := by
  have hzero : field = 0 ↔ field.toNat = 0 := by rw [← BitVec.toNat_inj]; exact Iff.rfl
  simp only [requireZero, hzero]

/-! ### The opcode map on a word of each shape

Each takes the opcode map's arm for `op` as a hypothesis `hmap`. It is to be shown of an arbitrary word of that opcode:
on an encoded word the kernel would start to compute the fields. -/

section
variable {op : Nat} (qp : PredNum) (hop : op < 64)
include hop

theorem decodeWord_enc0 {mk : PredNum → BitVec 23 → Instr}
    (hmap : ∀ {w}, opOf w = op → decodeWord w = .ok (mk (qpOf w) (w.extractLsb' 0 23))) (imm23 : BitVec 23) :
    decodeWord (enc0 op qp imm23) = .ok (mk qp imm23) := by
  obtain ⟨hw, hqp, himm⟩ := fields_enc0 qp imm23 hop
  rw [hmap hw, hqp, himm]

theorem decodeWord_enc1 {mk : PredNum → Fin 4 → Reg → BitVec 16 → Instr}
    (hmap : ∀ {w}, opOf w = op → decodeWord w = .ok (mk (qpOf w) (posAt w) (rdOf w) (w.extractLsb' 0 16)))
    (rd : Reg) (pos : Fin 4) (imm16 : BitVec 16) :
    decodeWord (enc1 op qp rd pos imm16) = .ok (mk qp pos rd imm16) := by
  obtain ⟨hw, hqp, hrd, hpos, -, himm⟩ := fields_enc1 qp rd pos imm16 hop
  rw [hmap hw, hqp, hpos, hrd, himm]

theorem decodeWord_enc2 {mk : PredNum → Reg → Reg → BitVec 13 → Instr}
    (hmap : ∀ {w}, opOf w = op → decodeWord w = fmt2Of mk w) (rd rs1 : Reg) (imm13 : BitVec 13) :
    decodeWord (enc2 op qp rd rs1 imm13) = .ok (mk qp rd rs1 imm13) := by
  obtain ⟨hw, hqp, hrd, hrs1, himm⟩ := fields_enc2 qp rd rs1 imm13 hop
  rw [hmap hw, fmt2Of, hqp, hrd, hrs1, himm]

theorem decodeWord_enc3 {mk : PredNum → Reg → Reg → BitVec 7 → BitVec 6 → Instr}
    (hmap : ∀ {w}, opOf w = op →
      decodeWord w = .ok (mk (qpOf w) (rdOf w) (rs1Of w) (w.extractLsb' 6 7) (w.extractLsb' 0 6)))
    (rd rs1 : Reg) (imm7 : BitVec 7) (imm6 : BitVec 6) :
    decodeWord (enc3 op qp rd rs1 imm7 imm6) = .ok (mk qp rd rs1 imm7 imm6) := by
  obtain ⟨hw, hqp, hrd, hrs1, h7, h6⟩ := fields_enc3 qp rd rs1 imm7 imm6 hop
  rw [hmap hw, hqp, hrd, hrs1, h7, h6]

theorem decodeWord_enc4_plain {mk : PredNum → Reg → Reg → Reg → Instr}
    (hmap : ∀ {w}, opOf w = op → decodeWord w = plain3 mk w) (rd rs1 rs2 : Reg) :
    decodeWord (enc4 op qp rd rs1 rs2 0 0) = .ok (mk qp rd rs1 rs2) := by
  obtain ⟨hw, hqp, hrd, hrs1, hrs2, -, -, -, hlow, -⟩ :=
    fields_enc4 qp rd rs1 rs2 (szc := 0) (fn := 0) hop (by decide) (by decide)
  rw [hmap hw]
  simp only [plain3, hqp, hrd, hrs1, hrs2, requireZero_eq, hlow, Nat.zero_mul, Nat.add_zero, if_true]

section
variable {fn : Nat} (hfn : fn < 64) {arms : List (BitVec 32 → Decoded)}
  (hmap : ∀ {w}, opOf w = op → decodeWord w = byFn arms w) (rd rs1 rs2 : Reg)
include hfn hmap

/-- A word whose `fn` numbers an arm is what that arm reads (R76). -/
theorem decodeWord_enc4_byFn {arm : BitVec 32 → Decoded} {szc : Nat} (f : Fin 32) (hsz : szc ≤ 3)
    (harm : arms[fn]? = some arm) :
    decodeWord (enc4 op qp rd rs1 f szc fn) = arm (enc4 op qp rd rs1 f szc fn) := by
  obtain ⟨hw, -, -, -, -, -, -, hf, -⟩ := fields_enc4 qp rd rs1 f hop (Nat.lt_succ_of_le hsz) hfn
  rw [hmap hw, byFn, hf, harm]

theorem decodeWord_enc4_sized {mk : PredNum → Sw → Reg → Reg → Reg → Instr}
    (harm : arms[fn]? = some (sized3 mk)) (sw : Sw) :
    decodeWord (enc4 op qp rd rs1 rs2 sw.code fn) = .ok (mk qp sw rd rs1 rs2) := by
  obtain ⟨-, hqp, hrd, hrs1, hrs2, -, hsz, -⟩ := fields_enc4 qp rd rs1 rs2 hop (Nat.lt_succ_of_le (code_le sw)) hfn
  rw [decodeWord_enc4_byFn qp hop hfn hmap rd rs1 rs2 (code_le sw) harm, sized3, hqp, hrd, hrs1, hrs2, swOf,
    Sw.ofCode_code sw _ hsz]

theorem decodeWord_enc4_mul {mk : PredNum → Reg → Reg → Reg → Instr} (harm : arms[fn]? = some (mul3 mk)) :
    decodeWord (enc4 op qp rd rs1 rs2 0 fn) = .ok (mk qp rd rs1 rs2) := by
  obtain ⟨-, hqp, hrd, hrs1, hrs2, -, hsz, -⟩ := fields_enc4 qp rd rs1 rs2 (szc := 0) hop (by decide) hfn
  rw [decodeWord_enc4_byFn qp hop hfn hmap rd rs1 rs2 (by decide) harm, mul3, hqp, hrd, hrs1, hrs2, requireZero_eq,
    if_pos hsz]

theorem decodeWord_enc4_shifti {mk : PredNum → Sw → Reg → Reg → BitVec 5 → Instr}
    (harm : arms[fn]? = some (shifti2 mk)) (sw : Sw) (imm5 : BitVec 5) :
    decodeWord (enc4 op qp rd rs1 (imm5Field imm5) sw.code fn) = .ok (mk qp sw rd rs1 imm5) := by
  obtain ⟨-, hqp, hrd, hrs1, -, hf, hsz, -⟩ :=
    fields_enc4 qp rd rs1 (imm5Field imm5) hop (Nat.lt_succ_of_le (code_le sw)) hfn
  have himm : (enc4 op qp rd rs1 (imm5Field imm5) sw.code fn).extractLsb' 8 5 = imm5 := BitVec.eq_of_toNat_eq hf
  rw [decodeWord_enc4_byFn qp hop hfn hmap rd rs1 _ (code_le sw) harm, shifti2, hqp, hrd, hrs1, himm, swOf,
    Sw.ofCode_code sw _ hsz]

theorem decodeWord_enc4_shiftAdd {mk : PredNum → AddSa → Reg → Reg → Reg → Instr}
    (harm : arms[fn]? = some (shiftAdd3 mk)) (sa : AddSa) :
    decodeWord (enc4 op qp rd rs1 rs2 sa.code fn) = .ok (mk qp sa rd rs1 rs2) := by
  obtain ⟨-, hqp, hrd, hrs1, hrs2, -, hsa, -⟩ :=
    fields_enc4 qp rd rs1 rs2 hop (Nat.lt_succ_of_le (addCode_le sa)) hfn
  rw [decodeWord_enc4_byFn qp hop hfn hmap rd rs1 rs2 (addCode_le sa) harm]
  exact shiftAdd3_eq_ok.mpr ⟨sa, AddSa.ofCode_code sa _ hsa, by rw [hqp, hrd, hrs1, hrs2]⟩

theorem decodeWord_enc4_mulShr {mk : PredNum → MulSa → Reg → Reg → Reg → Instr}
    (harm : arms[fn]? = some (mulShr3 mk)) (sa : MulSa) :
    decodeWord (enc4 op qp rd rs1 rs2 sa.code fn) = .ok (mk qp sa rd rs1 rs2) := by
  obtain ⟨-, hqp, hrd, hrs1, hrs2, -, hsa, -⟩ :=
    fields_enc4 qp rd rs1 rs2 hop (Nat.lt_succ_of_le (mulCode_le sa)) hfn
  rw [decodeWord_enc4_byFn qp hop hfn hmap rd rs1 rs2 (mulCode_le sa) harm, mulShr3, hqp, hrd, hrs1, hrs2,
    MulSa.ofCode_code sa _ hsa]

/-- A `mux` word is legal where the unused immediate `f` is zero (R67, R80). -/
theorem decodeWord_enc4_mux {mk : PredNum → Sw → Reg → Reg → Instr} (harm : arms[fn]? = some (mux2 mk))
    (f : Fin 32) (sw : Sw) :
    decodeWord (enc4 op qp rd rs1 f sw.code fn) = if f = 0 then .ok (mk qp sw rd rs1) else .error .nonzeroField := by
  obtain ⟨-, hqp, hrd, hrs1, -, hf, hsz, -⟩ := fields_enc4 qp rd rs1 f hop (Nat.lt_succ_of_le (code_le sw)) hfn
  rw [decodeWord_enc4_byFn qp hop hfn hmap rd rs1 f (code_le sw) harm]
  simp only [mux2, hqp, hrd, hrs1, requireZero_eq, hf, swOf, Sw.ofCode_code sw _ hsz, Fin.val_eq_zero_iff]

end

end

/-! ### The opcode map on the words of the opcodes with a layout of their own -/

section
variable (qp : PredNum)

/-- The words of opcode 03 (R63). -/
theorem decodeWord_enc1_jmpReg (rd : Reg) :
    decodeWord (enc1 0x03 qp rd 0 0) = .ok (.jmpReg qp rd) ∧
      decodeWord (enc1 0x03 qp rd 1 0) = .ok (.jmpRegLink qp rd) := by
  have hmap : ∀ {w}, opOf w = 0x03 → decodeWord w = decodeJmpReg w := fun h => by rw [decodeWord, h]; rfl
  refine ⟨?_, ?_⟩
  · obtain ⟨hw, hqp, hrd, -, hs2, himm⟩ := fields_enc1 (op := 0x03) qp rd 0 0 (by decide)
    rw [hmap hw, decodeJmpReg_eq_ok, hqp, hrd]
    exact ⟨himm, .inl ⟨hs2, rfl⟩⟩
  · obtain ⟨hw, hqp, hrd, -, hs2, himm⟩ := fields_enc1 (op := 0x03) qp rd 1 0 (by decide)
    rw [hmap hw, decodeJmpReg_eq_ok, hqp, hrd]
    exact ⟨himm, .inr ⟨hs2, rfl⟩⟩

/-- The words of opcode 04 (R62, R80). -/
theorem decodeWord_enc0_trap : decodeWord (enc0 0x04 qp 0) = .ok (.trap qp) := by
  obtain ⟨hw, hqp, himm⟩ := fields_enc0 (op := 0x04) qp 0 (by decide)
  have hmap : ∀ {w}, opOf w = 0x04 → decodeWord w = requireZero (w.extractLsb' 0 23) (.trap (qpOf w)) :=
    fun h => by rw [decodeWord, h]; rfl
  rw [hmap hw, requireZero_eq_ok, hqp]
  exact ⟨himm, rfl⟩

/-- The words of opcode 05 (R70). -/
theorem decodeWord_enc5p_changepr (imm4 : SetNum) (imm8 : BitVec 8) :
    decodeWord (enc5p 0x05 qp imm4 0 0) = .ok (.changepr qp imm4) ∧
      decodeWord (enc5p 0x05 qp imm4 imm8 1) = .ok (.changeprLd qp imm4 imm8) := by
  have hmap : ∀ {w}, opOf w = 0x05 → decodeWord w = decodeChangepr w := fun h => by rw [decodeWord, h]; rfl
  refine ⟨?_, ?_⟩
  · obtain ⟨hw, hqp, hset, himm, hfn, htop, hlow⟩ :=
      fields_enc5p (op := 0x05) (fn4 := 0) qp imm4 0 (by decide) (by decide)
    rw [hmap hw, decodeChangepr_eq_ok, hqp, hset]
    exact ⟨htop, hlow, .inl ⟨hfn, himm, rfl⟩⟩
  · obtain ⟨hw, hqp, hset, himm, hfn, htop, hlow⟩ :=
      fields_enc5p (op := 0x05) (fn4 := 1) qp imm4 imm8 (by decide) (by decide)
    rw [hmap hw, decodeChangepr_eq_ok, hqp, hset, himm]
    exact ⟨htop, hlow, .inr ⟨hfn, rfl⟩⟩

/-- The words of opcode 06: `pw` selects the compare (R69). -/
theorem decodeWord_enc5a_cmp {pw : Nat} {i : Instr} (rel : Rel) (rs1 rs2 : Reg) (pd1 pd2 : PredNum) (hpw : pw < 4)
    (hi : (pw = 0 ∧ .cmp qp rel rs1 rs2 pd1 pd2 = i) ∨ (pw = 1 ∧ .cmpPw0 qp rel rs1 rs2 pd1 pd2 = i) ∨
      (pw = 2 ∧ .cmpPw1 qp rel rs1 rs2 pd1 pd2 = i)) :
    decodeWord (enc5a 0x06 qp rs1 rs2 rel pw pd1 pd2) = .ok i := by
  obtain ⟨hw, hqp, h1, h2, hrel, hsel, hzero, hp1, hp2⟩ :=
    fields_enc5a (op := 0x06) qp rs1 rs2 rel pd1 pd2 (by decide) hpw
  have hmap : ∀ {w}, opOf w = 0x06 → decodeWord w = decodeCmp w := fun h => by rw [decodeWord, h]; rfl
  rw [hmap hw, decodeCmp_eq_ok, hqp, h1, h2, hsel, hp1, hp2]
  exact ⟨hzero, rel, Rel.ofCode_code rel _ hrel, hi⟩

/-- The words of opcode 07 (R70). -/
theorem decodeWord_enc5b_cmpi (rel : Rel) (rs1 : Reg) (imm8 : BitVec 8) (pd1 pd2 : PredNum) :
    decodeWord (enc5b 0x07 qp rs1 imm8 rel.code pd1 pd2) = .ok (.cmpi qp rel rs1 imm8 pd1 pd2) := by
  obtain ⟨hw, hqp, h1, himm, hrel, hp1, hp2⟩ :=
    fields_enc5b (op := 0x07) qp rs1 imm8 pd1 pd2 (by decide) rel.code_lt
  have hmap : ∀ {w}, opOf w = 0x07 → decodeWord w = decodeCmpi w := fun h => by rw [decodeWord, h]; rfl
  rw [hmap hw, decodeCmpi_eq_ok, hqp, h1, himm, hp1, hp2]
  exact ⟨rel, Rel.ofCode_code rel _ hrel, rfl⟩

/-- The words of opcode 08 (R70, R80). -/
theorem decodeWord_enc5b_testbit (rs1 : Reg) (imm8 : BitVec 8) (pd1 pd2 : PredNum) :
    decodeWord (enc5b 0x08 qp rs1 imm8 0 pd1 pd2) = .ok (.testbit qp rs1 imm8 pd1 pd2) := by
  obtain ⟨hw, hqp, h1, himm, hzero, hp1, hp2⟩ :=
    fields_enc5b (op := 0x08) (rel := 0) qp rs1 imm8 pd1 pd2 (by decide) (by decide)
  have hmap : ∀ {w}, opOf w = 0x08 → decodeWord w = requireZero (w.extractLsb' 6 4)
      (.testbit (qpOf w) (rdOf w) (w.extractLsb' 10 8) (predAt w 3) (predAt w 0)) := fun h => by rw [decodeWord, h]; rfl
  rw [hmap hw, requireZero_eq, hzero, if_pos rfl, hqp, h1, himm, hp1, hp2]

/-- The words of opcode 20 (R68). -/
theorem decodeWord_enc4c_shrp (rd rs1 rs2 : Reg) (imm8 : BitVec 8) :
    decodeWord (enc4c 0x20 qp rd rs1 rs2 imm8) = .ok (.shrp qp rd rs1 rs2 imm8) := by
  obtain ⟨hw, hqp, hrd, hrs1, hrs2, himm⟩ := fields_enc4c (op := 0x20) qp rd rs1 rs2 imm8 (by decide)
  have hmap : ∀ {w}, opOf w = 0x20 →
      decodeWord w = .ok (.shrp (qpOf w) (rdOf w) (rs1Of w) (rs2Of w) (w.extractLsb' 0 8)) :=
    fun h => by rw [decodeWord, h]; rfl
  rw [hmap hw, hqp, hrd, hrs1, hrs2, himm]

/-- The words of opcode 2D: a word is legal where `f`, the field of the operand that `not` does not have, is zero (R66,
R80). -/
theorem decodeWord_enc4_not (rd rs1 : Reg) (f : Fin 32) :
    decodeWord (enc4 0x2D qp rd rs1 f 0 0) = if f = 0 then .ok (.notReg qp rd rs1) else .error .nonzeroField := by
  obtain ⟨hw, hqp, hrd, hrs1, -, -, -, -, -, hlow⟩ :=
    fields_enc4 (op := 0x2D) (szc := 0) (fn := 0) qp rd rs1 f (by decide) (by decide) (by decide)
  have hmap : ∀ {w}, opOf w = 0x2D →
      decodeWord w = requireZero (w.extractLsb' 0 13) (.notReg (qpOf w) (rdOf w) (rs1Of w)) :=
    fun h => by rw [decodeWord, h]; rfl
  have hzero : f.val * 2 ^ 8 + 0 * 2 ^ 6 + 0 = 0 ↔ f = 0 := by rw [← Fin.val_eq_zero_iff]; omega
  simp only [hmap hw, requireZero_eq, hlow, hzero, hqp, hrd, hrs1]

end

/-! ### The opcode map on the word of every term -/

/-- The opcode map gives every term back from its word (R76, R77). -/
theorem decodeWord_encode (i : Instr) : decodeWord (encode i) = .ok i := by
  cases i <;> rw [encode]
  case jmp | jmpLink => exact decodeWord_enc0 _ (by decide) (fun h => by rw [decodeWord, h]; rfl) _
  case loadiZ | loadiK => exact decodeWord_enc1 _ (by decide) (fun h => by rw [decodeWord, h]; rfl) _ _ _
  case load4 | load8 | load4Update | load8Update | store1 | store2 | store4 | store8 | store1Update | store2Update
      | store4Update | store8Update | addi | andi | ori | subi | xori | slli | srai | srli =>
    exact decodeWord_enc2 _ (by decide) (fun h => by rw [decodeWord, h]; rfl) _ _ _
  case extract | deposit => exact decodeWord_enc3 _ (by decide) (fun h => by rw [decodeWord, h]; rfl) _ _ _ _
  case andReg | andcm | orReg | xorReg | perm =>
    exact decodeWord_enc4_plain _ (by decide) (fun h => by rw [decodeWord, h]; rfl) _ _ _
  case loadx | loadxUpdate | padd | paddU | paddS | paddincr | psub | psubU | psubS | psubdecr | pavg | pavgRaz
      | psubavg | pcmpEq | pcmpGt | pmax | pmin | pshiftL | pshiftR | pshiftRa | mixL | mixR =>
    exact decodeWord_enc4_sized _ (by decide) (by decide) (fun h => by rw [decodeWord, h]; rfl) _ _ _ rfl _
  case pmulOdd | pmulOddU | pmulEven | pmulEvenU =>
    exact decodeWord_enc4_mul _ (by decide) (by decide) (fun h => by rw [decodeWord, h]; rfl) _ _ _ rfl
  case pshiftiL | pshiftiR | pshiftiRa =>
    exact decodeWord_enc4_shifti _ (by decide) (by decide) (fun h => by rw [decodeWord, h]; rfl) _ _ rfl _ _
  case pshiftaddL | pshiftaddR =>
    exact decodeWord_enc4_shiftAdd _ (by decide) (by decide) (fun h => by rw [decodeWord, h]; rfl) _ _ _ rfl _
  case pmulshr | pmulshrA =>
    exact decodeWord_enc4_mulShr _ (by decide) (by decide) (fun h => by rw [decodeWord, h]; rfl) _ _ _ rfl _
  case muxRev | muxMix | muxShuf | muxAlt | muxBrcst =>
    exact (decodeWord_enc4_mux _ (by decide) (by decide) (fun h => by rw [decodeWord, h]; rfl) _ _ rfl _ _).trans
      (if_pos rfl)
  case notReg => exact (decodeWord_enc4_not _ _ _ _).trans (if_pos rfl)
  case jmpReg => exact (decodeWord_enc1_jmpReg _ _).1
  case jmpRegLink => exact (decodeWord_enc1_jmpReg _ _).2
  case trap => exact decodeWord_enc0_trap _
  case changepr => exact (decodeWord_enc5p_changepr _ _ 0).1
  case changeprLd => exact (decodeWord_enc5p_changepr _ _ _).2
  case cmp => exact decodeWord_enc5a_cmp _ _ _ _ _ _ (by decide) (.inl ⟨rfl, rfl⟩)
  case cmpPw0 => exact decodeWord_enc5a_cmp _ _ _ _ _ _ (by decide) (.inr (.inl ⟨rfl, rfl⟩))
  case cmpPw1 => exact decodeWord_enc5a_cmp _ _ _ _ _ _ (by decide) (.inr (.inr ⟨rfl, rfl⟩))
  case cmpi => exact decodeWord_enc5b_cmpi _ _ _ _ _ _
  case testbit => exact decodeWord_enc5b_testbit _ _ _ _ _
  case shrp => exact decodeWord_enc4c_shrp _ _ _ _ _

/-- The word of a term decodes to the term, as far as R81 and R82 let it. -/
theorem decode_encode (wd : Width) (i : Instr) : decode wd (encode i) = ifLegal wd (.ok i) := by
  rw [decode, decodeWord_encode]

/-- The word of a term whose legality is the condition `c` decodes to the term where `c` holds, and is illegal for the
reason `r` where it does not. -/
theorem decode_encode_eq_ite {wd : Width} {i : Instr} {r : IllFormed} {c : Prop} [Decidable c]
    (hlegal : c → check wd i = none) (hillegal : ¬c → check wd i = some r) :
    decode wd (encode i) = if c then .ok i else .error (.illFormed r) := by
  rw [decode_encode]
  split
  · rename_i hc; simp only [ifLegal, hlegal hc]
  · rename_i hc; simp only [ifLegal, hillegal hc]

end Sys2Proof

/-! PROOFS. A word that decodes is the word of its term: every word is put together from its fields by its format, and
each part of the decoder accepts only words whose fields are those of the term it gives. -/

namespace Sys2Proof

/-! ### A word from its fields -/

section
variable (w : BitVec 32)

/-- A word is its opcode and predicate over its low 23 bits, however these are written (R61). -/
theorem encHead_eq_self {rest : Nat} (h : rest = w.toNat % 2 ^ 23) : encHead (opOf w) (qpOf w) rest = w := by
  rw [h, eq_encHead]

/-! The fields of each format tile the low 23 bits (R62 to R70). Where a format has bits that no field covers, they are
zero by hypothesis (R80). -/

theorem enc0_fields : enc0 (opOf w) (qpOf w) (w.extractLsb' 0 23) = w := by
  apply encHead_eq_self
  rw [toNat_field]; omega

theorem enc1_fields : enc1 (opOf w) (qpOf w) (rdOf w) (posAt w) (w.extractLsb' 0 16) = w := by
  apply encHead_eq_self
  simp only [rdOf, regAt, posAt, toNat_field]; omega

theorem enc2_fields : enc2 (opOf w) (qpOf w) (rdOf w) (rs1Of w) (imm13Of w) = w := by
  apply encHead_eq_self
  simp only [rdOf, rs1Of, imm13Of, regAt, toNat_field]; omega

theorem enc3_fields : enc3 (opOf w) (qpOf w) (rdOf w) (rs1Of w) (w.extractLsb' 6 7) (w.extractLsb' 0 6) = w := by
  apply encHead_eq_self
  simp only [rdOf, rs1Of, regAt, toNat_field]; omega

theorem enc4_fields : enc4 (opOf w) (qpOf w) (rdOf w) (rs1Of w) (rs2Of w) (szcOf w).toNat (fnOf w) = w := by
  apply encHead_eq_self
  simp only [rdOf, rs1Of, rs2Of, szcOf, fnOf, regAt, toNat_field]; omega

/-- A format 4 word whose `szc` and `fn` are both zero (R66). -/
theorem enc4_fields_of_low_zero {w : BitVec 32} (hlow : (w.extractLsb' 0 8).toNat = 0) :
    enc4 (opOf w) (qpOf w) (rdOf w) (rs1Of w) (rs2Of w) 0 0 = w := by
  rw [toNat_field] at hlow
  have hsz : (szcOf w).toNat = 0 := by rw [szcOf, toNat_field]; omega
  have hfn : fnOf w = 0 := by rw [fnOf, toNat_field]; omega
  have hw := enc4_fields w
  rwa [hsz, hfn] at hw

theorem enc4c_fields : enc4c (opOf w) (qpOf w) (rdOf w) (rs1Of w) (rs2Of w) (w.extractLsb' 0 8) = w := by
  apply encHead_eq_self
  simp only [rdOf, rs1Of, rs2Of, regAt, toNat_field]; omega

theorem enc5a_fields {rel : Rel} (hrel : rel.code = (w.extractLsb' 9 4).toNat) (hzero : w.extractLsb' 6 1 = 0) :
    enc5a (opOf w) (qpOf w) (rdOf w) (rs1Of w) rel (w.extractLsb' 7 2).toNat (predAt w 3) (predAt w 0) = w := by
  have h6 : (w.extractLsb' 6 1).toNat = 0 := congrArg BitVec.toNat hzero
  rw [toNat_field] at h6
  apply encHead_eq_self
  simp only [hrel, rdOf, rs1Of, regAt, predAt, toNat_field]; omega

theorem enc5b_fields :
    enc5b (opOf w) (qpOf w) (rdOf w) (w.extractLsb' 10 8) (w.extractLsb' 6 4).toNat (predAt w 3) (predAt w 0) = w := by
  apply encHead_eq_self
  simp only [rdOf, regAt, predAt, toNat_field]; omega

theorem enc5p_fields (htop : w.extractLsb' 22 1 = 0) (hlow : w.extractLsb' 0 6 = 0) :
    enc5p (opOf w) (qpOf w) (setAt w) (w.extractLsb' 10 8) (w.extractLsb' 6 4).toNat = w := by
  have h22 : (w.extractLsb' 22 1).toNat = 0 := congrArg BitVec.toNat htop
  have h0 : (w.extractLsb' 0 6).toNat = 0 := congrArg BitVec.toNat hlow
  rw [toNat_field] at h22 h0
  apply encHead_eq_self
  simp only [setAt, toNat_field]; omega

end

/-! ### What each part of the decoder accepts -/

section
variable {w : BitVec 32} {i : Instr} {op : Nat} (hop : opOf w = op)
include hop

theorem encode_of_fmt2Of {mk : PredNum → Reg → Reg → BitVec 13 → Instr}
    (hmk : ∀ qp rd rs1 imm13, encode (mk qp rd rs1 imm13) = enc2 op qp rd rs1 imm13) (h : fmt2Of mk w = .ok i) :
    encode i = w := by
  cases h
  rw [hmk, ← hop, enc2_fields]

theorem encode_of_plain3 {mk : PredNum → Reg → Reg → Reg → Instr}
    (hmk : ∀ qp rd rs1 rs2, encode (mk qp rd rs1 rs2) = enc4 op qp rd rs1 rs2 0 0) (h : plain3 mk w = .ok i) :
    encode i = w := by
  obtain ⟨hzero, rfl⟩ := requireZero_eq_ok.mp h
  rw [hmk, ← hop]
  exact enc4_fields_of_low_zero (congrArg BitVec.toNat hzero)

end

/-- Of the words of opcode `op` that select arm `fn`, the arm accepts only the words of the terms it gives. -/
def ArmInverts (op fn : Nat) (arm : BitVec 32 → Decoded) : Prop :=
  ∀ w i, opOf w = op → fnOf w = fn → arm w = .ok i → encode i = w

/-- Every arm of a list inverts the encoder, the arms numbered from `fn`. -/
def ArmsInvert (op : Nat) : Nat → List (BitVec 32 → Decoded) → Prop
  | _, [] => True
  | fn, arm :: arms => ArmInverts op fn arm ∧ ArmsInvert op (fn + 1) arms

/-- The arms of a list are numbered by their places. -/
theorem ArmsInvert.getElem? {op fn k : Nat} {arms : List (BitVec 32 → Decoded)} {arm : BitVec 32 → Decoded}
    (h : ArmsInvert op fn arms) (hk : arms[k]? = some arm) : ArmInverts op (fn + k) arm := by
  induction arms generalizing fn k with
  | nil => cases hk
  | cons first rest ih =>
    obtain ⟨hfirst, hrest⟩ := h
    cases k with
    | zero => cases hk; exact hfirst
    | succ k => rw [Nat.add_comm k, ← Nat.add_assoc]; exact ih hrest (by simpa using hk)

/-- An opcode with a `fn` field inverts the encoder if its arms do (R76, R79). -/
theorem encode_of_byFn {op : Nat} {arms : List (BitVec 32 → Decoded)} {w : BitVec 32} {i : Instr} (hop : opOf w = op)
    (h : byFn arms w = .ok i) (harms : ArmsInvert op 0 arms) : encode i = w := by
  obtain ⟨arm, harm, hi⟩ := byFn_eq_ok.mp h
  exact harms.getElem? harm w i hop (Nat.zero_add _).symm hi

section
variable {op fn : Nat}

theorem armInverts_sized3 {mk : PredNum → Sw → Reg → Reg → Reg → Instr}
    (hmk : ∀ qp sw rd rs1 rs2, encode (mk qp sw rd rs1 rs2) = enc4 op qp rd rs1 rs2 sw.code fn) :
    ArmInverts op fn (sized3 mk) := by
  rintro w i rfl rfl h
  cases h
  rw [hmk, swOf, Sw.code_ofCode, enc4_fields]

theorem armInverts_mul3 {mk : PredNum → Reg → Reg → Reg → Instr}
    (hmk : ∀ qp rd rs1 rs2, encode (mk qp rd rs1 rs2) = enc4 op qp rd rs1 rs2 0 fn) :
    ArmInverts op fn (mul3 mk) := by
  rintro w i rfl rfl h
  obtain ⟨hzero, rfl⟩ := requireZero_eq_ok.mp h
  have hsz : (szcOf w).toNat = 0 := congrArg BitVec.toNat hzero
  rw [hmk, ← hsz, enc4_fields]

theorem armInverts_mux2 {mk : PredNum → Sw → Reg → Reg → Instr}
    (hmk : ∀ qp sw rd rs1, encode (mk qp sw rd rs1) = enc4 op qp rd rs1 0 sw.code fn) :
    ArmInverts op fn (mux2 mk) := by
  rintro w i rfl rfl h
  obtain ⟨hzero, rfl⟩ := requireZero_eq_ok.mp h
  have hrs2 : rs2Of w = 0 := Fin.ext (congrArg BitVec.toNat hzero)
  rw [hmk, swOf, Sw.code_ofCode, ← hrs2, enc4_fields]

theorem armInverts_shifti2 {mk : PredNum → Sw → Reg → Reg → BitVec 5 → Instr}
    (hmk : ∀ qp sw rd rs1 imm5, encode (mk qp sw rd rs1 imm5) = enc4 op qp rd rs1 (imm5Field imm5) sw.code fn) :
    ArmInverts op fn (shifti2 mk) := by
  rintro w i rfl rfl h
  cases h
  have himm : imm5Field (w.extractLsb' 8 5) = rs2Of w := rfl
  rw [hmk, swOf, Sw.code_ofCode, himm, enc4_fields]

theorem armInverts_shiftAdd3 {mk : PredNum → AddSa → Reg → Reg → Reg → Instr}
    (hmk : ∀ qp sa rd rs1 rs2, encode (mk qp sa rd rs1 rs2) = enc4 op qp rd rs1 rs2 sa.code fn) :
    ArmInverts op fn (shiftAdd3 mk) := by
  rintro w i rfl rfl h
  obtain ⟨sa, hsa, rfl⟩ := shiftAdd3_eq_ok.mp h
  rw [hmk, AddSa.code_ofCode hsa, enc4_fields]

theorem armInverts_mulShr3 {mk : PredNum → MulSa → Reg → Reg → Reg → Instr}
    (hmk : ∀ qp sa rd rs1 rs2, encode (mk qp sa rd rs1 rs2) = enc4 op qp rd rs1 rs2 sa.code fn) :
    ArmInverts op fn (mulShr3 mk) := by
  rintro w i rfl rfl h
  cases h
  rw [hmk, MulSa.code_ofCode, enc4_fields]

end

/-! ### The opcodes with a layout of their own -/

section
variable {w : BitVec 32} {i : Instr}

theorem encode_of_decodeJmpReg (hop : opOf w = 0x03) (h : decodeJmpReg w = .ok i) : encode i = w := by
  obtain ⟨himm, ⟨hs2, rfl⟩ | ⟨hs2, rfl⟩⟩ := decodeJmpReg_eq_ok.mp h
  · rw [encode, ← hop, ← himm, ← show posAt w = 0 from Fin.ext hs2, enc1_fields]
  · rw [encode, ← hop, ← himm, ← show posAt w = 1 from Fin.ext hs2, enc1_fields]

theorem encode_of_trap (hop : opOf w = 0x04) (h : requireZero (w.extractLsb' 0 23) (.trap (qpOf w)) = .ok i) :
    encode i = w := by
  have hw := enc0_fields w
  obtain ⟨hzero, rfl⟩ := requireZero_eq_ok.mp h
  rwa [hop, hzero] at hw

theorem encode_of_decodeChangepr (hop : opOf w = 0x05) (h : decodeChangepr w = .ok i) : encode i = w := by
  obtain ⟨htop, hlow, hsel⟩ := decodeChangepr_eq_ok.mp h
  have hw := enc5p_fields w htop hlow
  obtain ⟨hfn, himm, rfl⟩ | ⟨hfn, rfl⟩ := hsel
  · rw [hop, hfn, himm] at hw
    exact hw
  · rwa [hop, hfn] at hw

theorem encode_of_decodeCmp (hop : opOf w = 0x06) (h : decodeCmp w = .ok i) : encode i = w := by
  obtain ⟨hzero, rel, hrel, hsel⟩ := decodeCmp_eq_ok.mp h
  have hw := enc5a_fields w (Rel.code_ofCode hrel) hzero
  obtain ⟨hpw, rfl⟩ | ⟨hpw, rfl⟩ | ⟨hpw, rfl⟩ := hsel
  · rwa [hop, hpw] at hw
  · rwa [hop, hpw] at hw
  · rwa [hop, hpw] at hw

theorem encode_of_decodeCmpi (hop : opOf w = 0x07) (h : decodeCmpi w = .ok i) : encode i = w := by
  have hw := enc5b_fields w
  obtain ⟨rel, hrel, rfl⟩ := decodeCmpi_eq_ok.mp h
  rwa [hop, ← Rel.code_ofCode hrel] at hw

theorem encode_of_testbit (hop : opOf w = 0x08)
    (h : requireZero (w.extractLsb' 6 4)
      (.testbit (qpOf w) (rdOf w) (w.extractLsb' 10 8) (predAt w 3) (predAt w 0)) = .ok i) : encode i = w := by
  have hw := enc5b_fields w
  obtain ⟨hzero, rfl⟩ := requireZero_eq_ok.mp h
  rwa [hop, hzero] at hw

theorem encode_of_shrp (hop : opOf w = 0x20)
    (h : Except.ok (.shrp (qpOf w) (rdOf w) (rs1Of w) (rs2Of w) (w.extractLsb' 0 8)) = (.ok i : Decoded)) :
    encode i = w := by
  have hw := enc4c_fields w
  cases h
  rwa [hop] at hw

theorem encode_of_not (hop : opOf w = 0x2D)
    (h : requireZero (w.extractLsb' 0 13) (.notReg (qpOf w) (rdOf w) (rs1Of w)) = .ok i) : encode i = w := by
  obtain ⟨hzero, rfl⟩ := requireZero_eq_ok.mp h
  have hlow : (w.extractLsb' 0 13).toNat = 0 := congrArg BitVec.toNat hzero
  rw [toNat_field] at hlow
  have hrs2 : rs2Of w = 0 := Fin.ext ((toNat_field w 8 5).trans (by omega))
  rw [encode, ← hop, ← hrs2]
  exact enc4_fields_of_low_zero (by rw [toNat_field]; omega)

/-! ### The opcode map -/

/-- A word that the opcode map gives a term is the word of that term (R77, R79, R80). Arm `h_n` is that of opcode
`n`. -/
theorem encode_of_decodeWord (h : decodeWord w = .ok i) : encode i = w := by
  unfold decodeWord at h
  split at h
  case h_1 hop | h_2 hop => cases h; rw [encode, ← hop, enc0_fields]
  case h_3 hop => exact encode_of_decodeJmpReg hop h
  case h_4 hop => exact encode_of_trap hop h
  case h_5 hop => exact encode_of_decodeChangepr hop h
  case h_6 hop => exact encode_of_decodeCmp hop h
  case h_7 hop => exact encode_of_decodeCmpi hop h
  case h_8 hop => exact encode_of_testbit hop h
  case h_9 hop | h_10 hop => cases h; rw [encode, ← hop, enc1_fields]
  case h_32 hop => exact encode_of_shrp hop h
  case h_33 hop | h_34 hop => cases h; rw [encode, ← hop, enc3_fields]
  case h_41 hop | h_42 hop | h_43 hop | h_44 hop | h_56 hop => exact encode_of_plain3 hop (fun _ _ _ _ => rfl) h
  case h_45 hop => exact encode_of_not hop h
  case h_36 hop | h_38 hop | h_40 hop | h_47 hop | h_48 hop =>
    exact encode_of_byFn hop h ⟨armInverts_sized3 fun _ _ _ _ _ => rfl, trivial⟩
  case h_15 hop | h_39 hop | h_46 hop | h_54 hop =>
    exact encode_of_byFn hop h
      ⟨armInverts_sized3 fun _ _ _ _ _ => rfl, armInverts_sized3 fun _ _ _ _ _ => rfl, trivial⟩
  case h_35 hop | h_37 hop | h_52 hop =>
    exact encode_of_byFn hop h ⟨armInverts_sized3 fun _ _ _ _ _ => rfl, armInverts_sized3 fun _ _ _ _ _ => rfl,
      armInverts_sized3 fun _ _ _ _ _ => rfl, trivial⟩
  case h_49 hop =>
    exact encode_of_byFn hop h
      ⟨armInverts_shiftAdd3 fun _ _ _ _ _ => rfl, armInverts_shiftAdd3 fun _ _ _ _ _ => rfl, trivial⟩
  case h_50 hop =>
    exact encode_of_byFn hop h ⟨armInverts_mul3 fun _ _ _ _ => rfl, armInverts_mul3 fun _ _ _ _ => rfl,
      armInverts_mul3 fun _ _ _ _ => rfl, armInverts_mul3 fun _ _ _ _ => rfl, trivial⟩
  case h_51 hop =>
    exact encode_of_byFn hop h
      ⟨armInverts_mulShr3 fun _ _ _ _ _ => rfl, armInverts_mulShr3 fun _ _ _ _ _ => rfl, trivial⟩
  case h_53 hop =>
    exact encode_of_byFn hop h ⟨armInverts_shifti2 fun _ _ _ _ _ => rfl, armInverts_shifti2 fun _ _ _ _ _ => rfl,
      armInverts_shifti2 fun _ _ _ _ _ => rfl, trivial⟩
  case h_55 hop =>
    exact encode_of_byFn hop h ⟨armInverts_mux2 fun _ _ _ _ => rfl, armInverts_mux2 fun _ _ _ _ => rfl,
      armInverts_mux2 fun _ _ _ _ => rfl, armInverts_mux2 fun _ _ _ _ => rfl, armInverts_mux2 fun _ _ _ _ => rfl,
      trivial⟩
  case h_57 => cases h
  -- the opcodes of format 2
  all_goals exact encode_of_fmt2Of ‹_› (fun _ _ _ _ => rfl) h

end

end Sys2Proof

namespace Sys2Proof.Machine

/-- The decoder accepts exactly the words of the terms that are legal at the width, each as its term (R77, R81, R82). -/
theorem decode_eq_ok_iff {wd : Width} {w : BitVec 32} {i : Instr} :
    decode wd w = .ok i ↔ encode i = w ∧ Legal wd i := by
  rw [decode_eq_ok, wellFormed_iff_legal]
  exact and_congr_left fun _ => ⟨encode_of_decodeWord, fun h => h ▸ decodeWord_encode i⟩

/-- Settles O1: the opcode map gives a term back from its word, and the checks pass exactly the legal terms. -/
theorem decodeOfEncode : Obligations.DecodeOfEncode := by
  refine fun wd i => ⟨fun hlegal => decode_eq_ok_iff.mpr ⟨rfl, hlegal⟩, fun hillegal => ?_⟩
  rw [decode_encode]
  exact ifLegal_illFormed (mt (wellFormed_iff_legal wd i).mp hillegal)

/-- Settles O2: each part of the decoder accepts only words whose fields are those of its term. -/
theorem encodeOfDecode : Obligations.EncodeOfDecode := fun _ _ _ => decode_eq_ok_iff.mp

end Sys2Proof.Machine

/-! PROOFS. Words of the spec and of the opcode map, and the words that are illegal. -/

namespace Sys2Proof

/-- A word to which the opcode map gives no term is illegal for that reason at every width (R83). -/
theorem decode_of_error {wd : Width} {w : BitVec 32} {e : Illegal} (h : decodeWord w = .error e) :
    decode wd w = .error e := by
  rw [decode, h, ifLegal]

/-- The opcodes that the opcode map does not list (R78). -/
theorem decodeWord_reserved {w : BitVec 32} (h : opOf w = 0 ∨ 0x39 ≤ opOf w) :
    decodeWord w = .error .reservedOpcode := by
  unfold decodeWord
  split
  case h_57 => rfl
  all_goals omega

/-- A size that the instruction does not offer is named before one that is too wide (R81). -/
theorem sizeCheck_of_not_mem {wd : Width} {offered : List Sw} {sw : Sw} (h : sw ∉ offered) :
    sizeCheck wd offered sw = some .sizeNotOffered := if_pos h

end Sys2Proof

namespace Sys2Proof.Machine

/-- Settles O3: each word is the encoding of its term, which is legal on the 64-bit machine. -/
theorem exampleWordsDecode : Obligations.ExampleWordsDecode := by
  simp only [Obligations.ExampleWordsDecode, decode_eq_ok_iff, Legal]
  decide

/-- Settles O4: the opcode map gives a reserved opcode no term. -/
theorem reservedOpcodesAreIllegal : Obligations.ReservedOpcodesAreIllegal :=
  fun _ _ h => decode_of_error (decodeWord_reserved h)

/-- Settles O54: each word is the encoding of its term, which is legal at every width; `not` with an `Rs2` field is no
word of the opcode map. -/
theorem opcodeMapWords : Obligations.OpcodeMapWords := by
  intro wd qp k rd rs1 rs2 imm
  have hword : ∀ i, Legal wd i → decode wd (encode i) = .ok i := fun i hi => decode_eq_ok_iff.mpr ⟨rfl, hi⟩
  refine ⟨hword (.changepr qp k) trivial, hword (.addi qp rd rs1 imm) trivial, hword (.subi qp rd rs1 imm) trivial,
    hword (.andi qp rd rs1 imm) trivial, hword (.ori qp rd rs1 imm) trivial, hword (.xori qp rd rs1 imm) trivial,
    hword (.andReg qp rd rs1 rs2) trivial, hword (.andcm qp rd rs1 rs2) trivial, hword (.orReg qp rd rs1 rs2) trivial,
    hword (.xorReg qp rd rs1 rs2) trivial, hword (.notReg qp rd rs1) trivial, fun hrs2 => decode_of_error ?_⟩
  rw [decodeWord_enc4_not, if_neg hrs2]

end Sys2Proof.Machine

/-! PROOFS. The results of the compares, the load immediates, the bit fields and two of the byte permutations, and the
operands at which their words are illegal (R81, R82). -/

namespace Sys2Proof.Machine

/-! ### Compares -/

section
variable {W : Nat} (m : Mach W)

/-- `Pd2` reads the complement of the bit written to the pair, but for P0 (R110). -/
theorem Mach.pget_writePair_second (pd1 pd2 : PredNum) (t : Bool) :
    (m.writePair pd1 pd2 t).pget pd2 = if pd2 = 0 then true else !t := by
  by_cases h : pd2 = 0
  · rw [h, if_pos rfl, Mach.pget_zero]
  · rw [Mach.writePair, Mach.pget_pset, if_pos ⟨rfl, h⟩, if_neg h]

/-- Writing a pair whose destinations the guard lets through and going on has the effect and the frame of `WritesPair`
(R110). -/
theorem Mach.writesPair_writePair_advance {pd1 pd2 : PredNum} (t : Bool) (hpd : pd1 ≠ pd2 ∨ pd1 = 0) :
    m.WritesPair (m.writePair pd1 pd2 t).advance pd1 pd2 t where
  first := by
    by_cases h : pd1 = 0
    · rw [h, if_pos rfl, Mach.pget_zero]
    · rw [if_neg h, Mach.pget_advance, m.pget_writePair_first t h (hpd.resolve_right h)]
  second := m.pget_writePair_second pd1 pd2 t
  aps := by simp
  others := fun k j h => (Mach.predOf_congr (Mach.advance_pr _) k j).trans (Mach.predOf_writePair_other t h)
  regs := fun r => by simp
  mem := fun a => by simp
  outcome := by simp
  pc := by simp

end

/-- A compare under a true predicate whose destinations the guard lets through completes with its bit in the pair
(R110). -/
theorem completes_writesPair {i : Instr} {s : State} {qp pd1 pd2 : PredNum} {t : Mach s.W → Bool}
    (hi : exec i s = s.writesPair qp pd1 pd2 fun m => some (t m)) (hp : s.mach.pget qp = true)
    (hpd : pd1 ≠ pd2 ∨ pd1 = 0) : Completes i s (s.mach.WritesPair · pd1 pd2 (t s.mach)) :=
  ⟨_, hi.trans (State.writesPair_true hp (fun h => hpd.elim (· h.1) h.2) rfl),
    s.mach.writesPair_writePair_advance _ hpd⟩

/-- Settles O27: the check of R82 on `testbit`, and the pair each compare writes. -/
theorem compareResults : Obligations.CompareResults := by
  refine ⟨fun wd qp pd1 pd2 rs1 imm8 => ?_, fun s qp pd1 pd2 rel rs1 rs2 imm8 hp hpd => ⟨?_, ?_, fun _ => ?_⟩⟩
  · exact decode_encode_eq_ite (i := .testbit qp rs1 imm8 pd1 pd2) (fun h => if_neg (Nat.not_le.mpr h))
      fun h => if_pos (Nat.not_lt.mp h)
  · exact completes_writesPair (t := fun m => relHolds rel (m.rget rs1) (m.rget rs2)) rfl hp hpd
  · exact completes_writesPair (t := fun m => relHolds rel (m.rget rs1) (imm8.signExtend s.W)) rfl hp hpd
  · exact completes_writesPair (t := fun m => (m.rget rs1).getLsbD imm8.toNat) rfl hp hpd

/-! ### Load immediate -/

/-- An instruction that writes one register completes; what holds of the register's new value is to be shown of the
value it writes. -/
theorem completes_writesReg_value {i : Instr} {s : State} {qp : PredNum} {rd : Reg} {v : Mach s.W → BitVec s.W}
    {holds : BitVec s.W → Prop} (hi : exec i s = s.writesReg qp rd v) (hp : s.mach.pget qp = true)
    (hv : holds (v s.mach)) : Completes i s fun m => ∃ x, s.mach.WritesReg m rd x ∧ holds x := by
  obtain ⟨m, hm, hw⟩ := completes_writesReg hi hp
  exact ⟨m, hm, _, hw, hv⟩

/-- The bits of a placed immediate (R126). -/
theorem getLsbD_placeImm16 {W i : Nat} (pos : Fin 4) (imm16 : BitVec 16) (hi : i < W) :
    (placeImm16 W pos imm16).getLsbD i = (decide (16 * pos.val ≤ i) && imm16.getLsbD (i - 16 * pos.val)) := by
  by_cases hpos : 16 * pos.val ≤ i
  · simp [placeImm16, zext, hi, hpos, Nat.not_lt.mpr hpos]
  · simp [placeImm16, hpos, Nat.lt_of_not_le hpos]

/-- Settles O31: the check of R82 on the position, and the bits of a placed and of an inserted immediate. -/
theorem loadImmediateResults : Obligations.LoadImmediateResults := by
  refine ⟨fun wd qp pos rd imm => ⟨?_, ?_⟩, fun s qp pos rd imm hp _ => ⟨?_, ?_⟩⟩
  · exact decode_encode_eq_ite (i := .loadiZ qp pos rd imm) (fun h => if_neg (Nat.not_le.mpr h))
      fun h => if_pos (Nat.not_lt.mp h)
  · exact decode_encode_eq_ite (i := .loadiK qp pos rd imm) (fun h => if_neg (Nat.not_le.mpr h))
      fun h => if_pos (Nat.not_lt.mp h)
  · exact completes_writesReg_value (v := fun _ => placeImm16 s.W pos imm) rfl hp
      fun i hi => getLsbD_placeImm16 pos imm hi
  · refine completes_writesReg_value (v := fun m => insertField (m.rget rd) (16 * pos.val) 16 (zext s.W imm)) rfl hp
      fun i hi => ?_
    have himm : (zext s.W imm).getLsbD (i - 16 * pos.val) = imm.getLsbD (i - 16 * pos.val) := by
      simp [zext, show i - 16 * pos.val < s.W by omega]
    rw [getLsbD_insertField _ _ _ _ _ hi, himm]

/-! ### Bit fields -/

/-- The number an extracted field is (R154). -/
theorem toNat_extractField {W pos len : Nat} (v : BitVec W) (hlen : len ≤ W) :
    (extractField v pos len).toNat = v.toNat / 2 ^ pos % 2 ^ len := by
  rw [extractField, BitVec.toNat_setWidth_of_le hlen, BitVec.extractLsb'_toNat, Nat.shiftRight_eq_div_pow]

/-- Settles O43: the check of R82 on the field, the number it is when taken out, and its bits when put in. -/
theorem bitFieldResults : Obligations.BitFieldResults := by
  refine ⟨fun wd qp rd rs1 imm7 imm6 => ⟨?_, ?_⟩, fun s qp rd rs1 imm7 imm6 hp hfits => ⟨?_, ?_⟩⟩
  · exact decode_encode_eq_ite (i := .extract qp rd rs1 imm7 imm6) (fun h => if_neg (Nat.not_lt.mpr h))
      fun h => if_pos (Nat.not_le.mp h)
  · exact decode_encode_eq_ite (i := .deposit qp rd rs1 imm7 imm6) (fun h => if_neg (Nat.not_lt.mpr h))
      fun h => if_pos (Nat.not_le.mp h)
  · exact completes_writesReg_value (v := fun m => extractField (m.rget rs1) imm7.toNat imm6.toNat) rfl hp
      (toNat_extractField _ ((Nat.le_add_left _ _).trans hfits))
  · exact completes_writesReg_value (v := fun m => insertField (m.rget rd) imm7.toNat imm6.toNat (m.rget rs1)) rfl hp
      fun i hi => getLsbD_insertField _ _ _ _ i hi

/-! ### `mux.rev` and `mux.brcst` -/

/-- A word of opcode 37 whose unused immediate is not zero is illegal, whatever its size (R80, D5). -/
theorem decode_mux_nonzeroField {wd : Width} {mk : PredNum → Sw → Reg → Reg → Instr} {fn : Nat} (hfn : fn < 64)
    (harm : [mux2 .muxRev, mux2 .muxMix, mux2 .muxShuf, mux2 .muxAlt, mux2 .muxBrcst][fn]? = some (mux2 mk))
    (qp : PredNum) (rd rs1 : Reg) (sw : Sw) {f : Fin 32} (hf : f ≠ 0) :
    decode wd (enc4 0x37 qp rd rs1 f sw.code fn) = .error .nonzeroField := by
  apply decode_of_error
  rw [decodeWord_enc4_mux qp (by decide) hfn (fun h => by rw [decodeWord, h]; rfl) rd rs1 harm, if_neg hf]

/-- Settles O57: the unused immediate is tested first, then the size; the two selections at every position. -/
theorem reverseBroadcastResults : Obligations.ReverseBroadcastResults := by
  refine ⟨fun wd qp rd rs1 sw f => ⟨?_, ?_⟩, ?_⟩
  · split
    · rename_i hf
      exact decode_mux_nonzeroField (by decide) rfl qp rd rs1 sw hf
    · rename_i hf
      obtain rfl := not_not.mp hf
      exact decode_encode_eq_ite (i := .muxRev qp sw rd rs1) (wellFormed_iff_legal wd (.muxRev qp sw rd rs1)).mpr
        fun h => sizeCheck_of_not_mem (by simpa [sizes1] using h)
  · split
    · rename_i hf
      exact decode_mux_nonzeroField (by decide) rfl qp rd rs1 sw hf
    · rename_i hf
      obtain rfl := not_not.mp hf
      exact decode_encode_eq_ite (i := .muxBrcst qp sw rd rs1) (wellFormed_iff_legal wd (.muxBrcst qp sw rd rs1)).mpr
        fun h => sizeCheck_of_not_mem (by simpa [sizes12] using h)
  · rintro s qp rd rs1 hp x rfl
    refine ⟨?_, fun sw _ => ?_⟩
    · exact completes_permute (i := .muxRev qp .b1 rd rs1) rfl hp fun k _ => rfl
    · exact completes_permute (i := .muxBrcst qp sw rd rs1) rfl hp fun k _ => rfl

end Sys2Proof.Machine

/-! PROOFS. Program flow: where the jumps go, what the linking jumps leave in R31, and the halt of `trap`. -/

namespace Sys2Proof.Machine

section
variable {W : Nat} (m : Mach W) (target : BitVec W)

/-- A jump moves the pc and has the frame of `OnlyPc` (R100, R102). -/
theorem Mach.onlyPc_jumpTo : m.OnlyPc (m.jumpTo target) target where
  regs := m.rget_jumpTo target
  preds := ⟨m.jumpTo_pr target, m.jumpTo_aps target⟩
  mem := fun _ => rfl
  outcome := m.jumpTo_outcome target
  pc := m.jumpTo_pc target

/-- Writing the address of the next instruction to R31 and jumping has the effect and the frame of `Links` (R101,
R103). -/
theorem Mach.links_rset_jumpTo : m.Links ((m.rset linkReg m.nextPc).jumpTo target) target where
  link := by rw [Mach.rget_jumpTo, Mach.rget_rset_same, if_neg (by decide), Mach.nextPc]
  regs := fun r hr => by rw [Mach.rget_jumpTo, m.rget_rset_other _ hr]
  preds := by simp [Mach.SamePredicates]
  mem := fun a => by simp
  outcome := by simp
  pc := Mach.jumpTo_pc _ target

/-- The target of a register jump under each of its modes (R102, D12; log entry 27). -/
theorem Mach.registerTarget_eq_ite (mode : JmpRegMode) (rd : Reg) :
    m.registerTarget mode rd = if mode = .relative then m.pc + m.rget rd else m.rget rd := by
  cases mode <;> rfl

end

section
variable {i : Instr} {s : State} {qp : PredNum} {target : Mach s.W → BitVec s.W}

/-- A jump under a true predicate completes with the pc at its target. -/
theorem completes_jump (hi : exec i s = s.predicated qp fun m => .next (m.jumpTo (target m)))
    (hp : s.mach.pget qp = true) : Completes i s (s.mach.OnlyPc · (target s.mach)) :=
  ⟨_, hi.trans (State.predicated_true hp), s.mach.onlyPc_jumpTo _⟩

/-- A linking jump under a true predicate completes with the pc at its target, which it computes from the registers
before the link (R34). -/
theorem completes_jumpLink
    (hi : exec i s = s.predicated qp fun m => .next ((m.rset linkReg m.nextPc).jumpTo (target m)))
    (hp : s.mach.pget qp = true) : Completes i s (s.mach.Links · (target s.mach)) :=
  ⟨_, hi.trans (State.predicated_true hp), s.mach.links_rset_jumpTo _⟩

end

/-- Settles O21: both jumps go to the relative target, which is the sum the statement names. -/
theorem jumpResults : Obligations.JumpResults := by
  rintro s qp imm hp target rfl
  exact ⟨completes_jump (target := (·.relativeTarget s.cfg.jmpScale imm)) rfl hp,
    completes_jumpLink (target := (·.relativeTarget s.cfg.jmpScale imm)) rfl hp⟩

/-- Settles O22: both jumps go to the target their register gives under the machine's mode, read before the link. -/
theorem registerJumpResults : Obligations.RegisterJumpResults := by
  rintro s qp rd hp target rfl
  rw [← Mach.registerTarget_eq_ite]
  exact ⟨completes_jump (target := (·.registerTarget s.cfg.jmpRegMode rd)) rfl hp,
    completes_jumpLink (target := (·.registerTarget s.cfg.jmpRegMode rd)) rfl hp⟩

/-- Settles O23: under a true predicate `trap` does its Operation, which sets the outcome alone. -/
theorem trapHalts : Obligations.TrapHalts := by
  intro s qp hp
  exact State.predicated_true (f := fun m => .next (m.raise .halted)) hp

end Sys2Proof.Machine

/-! PROOFS. Compare and predication: the selection and the loading of predicate sets, the parallel-write compares and
their order, and the refusal of one predicate for both destinations. -/

namespace Sys2Proof.Machine

/-! ### Predicate sets -/

/-- What any predicate reads after a set is loaded: bit `j` of the image is `Pj`, P0 stays 1, and the other sets are as
before (R113, D18). -/
theorem Mach.predOf_loadSet {W : Nat} (m : Mach W) (k k' : SetNum) (image : BitVec 8) (j : PredNum) :
    (m.loadSet k image).predOf k' j =
      if k' = k then if j = 0 then true else image.getLsbD j.val else m.predOf k' j := by
  by_cases hj : j = 0
  · subst hj; simp [Mach.predOf]
  · have hj0 : j.val ≠ 0 := fun h => hj (Fin.ext h)
    by_cases hk : k' = k
    · subst hk; simp [Mach.predOf, hj, hj0]
    · have hne : k.val ≠ k'.val := fun h => hk (Fin.ext h.symm)
      simp [Mach.predOf, hk, hne]

/-- Settles O24: a predicate reads the bit that the set now active held before. -/
theorem changePredicateSetResult : Obligations.ChangePredicateSetResult := by
  intro s qp k hp
  exact ⟨_, State.predicated_true (f := fun m => .next (m.selectSet k).advance) hp, rfl, rfl, fun _ => rfl,
    fun _ => rfl, fun _ => rfl, rfl, rfl⟩

/-- Settles O25: the set loaded is the one made active, so its predicates read the image. -/
theorem loadPredicateSetResult : Obligations.LoadPredicateSetResult := by
  intro s qp k imm8 hp
  have hpred := (s.mach.selectSet k).predOf_loadSet k (image := imm8)
  refine ⟨_, State.predicated_true (f := fun m => .next ((m.selectSet k).loadSet k imm8).advance) hp, rfl,
    fun j => ?_, fun k' j hk => ?_, fun _ => rfl, fun _ => rfl, rfl, rfl⟩
  · exact (hpred k j).trans (if_pos rfl)
  · exact (hpred k' j).trans (if_neg hk)

/-! ### Parallel-write compares -/

/-- The instruction is a compare that, where `rel` holds, writes the pair `v`, `~v`, and else nothing (R115, R116). -/
def IsParallelWrite (i : Instr) (qp : PredNum) (rel : Rel) (rs1 rs2 : Reg) (pd1 pd2 : PredNum) (v : Bool) : Prop :=
  ∀ s, exec i s = s.writesPair qp pd1 pd2 fun m => if relHolds rel (m.rget rs1) (m.rget rs2) then some v else none

section
variable (qp : PredNum) (rel : Rel) (rs1 rs2 : Reg) (pd1 pd2 : PredNum)

theorem isParallelWrite_cmpPw0 :
    IsParallelWrite (.cmpPw0 qp rel rs1 rs2 pd1 pd2) qp rel rs1 rs2 pd1 pd2 false := fun _ => rfl

theorem isParallelWrite_cmpPw1 :
    IsParallelWrite (.cmpPw1 qp rel rs1 rs2 pd1 pd2) qp rel rs1 rs2 pd1 pd2 true := fun _ => rfl

end

/-- Whether a compare writes its pair under the parallel-write rule: it is executed and its relation holds (R32, R115,
R116). -/
def Mach.pairFires {W : Nat} (m : Mach W) (qp : PredNum) (rel : Rel) (rs1 rs2 : Reg) : Bool :=
  m.pget qp && relHolds rel (m.rget rs1) (m.rget rs2)

/-- The state after a parallel-write compare that writes its pair or not, as `fires` says. -/
def Mach.parallelWrite {W : Nat} (m : Mach W) (pd1 pd2 : PredNum) (v fires : Bool) : Mach W :=
  (if fires then m.writePair pd1 pd2 v else m).advance

section
variable {i : Instr} {s : State} {qp pd1 pd2 : PredNum} {rel : Rel} {rs1 rs2 : Reg} {v : Bool}

/-- All a parallel-write compare can do whose destinations the guard lets through (R115, R116). -/
theorem IsParallelWrite.exec_eq (hi : IsParallelWrite i qp rel rs1 rs2 pd1 pd2 v) (hpd : pd1 ≠ pd2 ∨ pd1 = 0) :
    exec i s = .next (s.withMach (s.mach.parallelWrite pd1 pd2 v (s.mach.pairFires qp rel rs1 rs2))) := by
  have hguard : ¬(pd1 = pd2 ∧ pd1 ≠ 0) := fun h => hpd.elim (· h.1) h.2
  rw [hi s, State.writesPair]
  cases hp : s.mach.pget qp with
  | false => simp [State.predicated_false hp, Mach.parallelWrite, Mach.pairFires, hp]
  | true =>
    rw [State.predicated_true hp, guardPair, if_neg hguard]
    cases hrel : relHolds rel (s.mach.rget rs1) (s.mach.rget rs2) <;>
      simp [Mach.parallelWrite, Mach.pairFires, hp, hrel]

/-- Where the relation holds, an executed parallel-write compare completes with its pair written (R115, R116). -/
theorem IsParallelWrite.completes_true (hi : IsParallelWrite i qp rel rs1 rs2 pd1 pd2 v)
    (hp : s.mach.pget qp = true) (hpd : pd1 ≠ pd2 ∨ pd1 = 0)
    (hrel : relHolds rel (s.mach.rget rs1) (s.mach.rget rs2) = true) :
    Completes i s (s.mach.WritesPair · pd1 pd2 v) := by
  refine ⟨_, hi.exec_eq hpd, ?_⟩
  rw [Mach.pairFires, hp, hrel]
  exact s.mach.writesPair_writePair_advance v hpd

/-- Where the relation does not hold, a parallel-write compare only advances the pc (R115, R116). -/
theorem IsParallelWrite.completes_false (hi : IsParallelWrite i qp rel rs1 rs2 pd1 pd2 v)
    (hpd : pd1 ≠ pd2 ∨ pd1 = 0) (hrel : relHolds rel (s.mach.rget rs1) (s.mach.rget rs2) = false) :
    Completes i s (s.mach.OnlyPc · (s.mach.pc + 4)) := by
  refine ⟨_, hi.exec_eq hpd, ?_⟩
  rw [Mach.pairFires, hrel, Bool.and_false]
  exact s.mach.onlyPc_jumpTo _

end

/-- Settles O28: both are parallel-write compares, of the bit 0 and of the bit 1. -/
theorem parallelWriteCompareResults : Obligations.ParallelWriteCompareResults := by
  intro s qp pd1 pd2 rel rs1 rs2 hp hpd
  have h0 := isParallelWrite_cmpPw0 qp rel rs1 rs2 pd1 pd2
  have h1 := isParallelWrite_cmpPw1 qp rel rs1 rs2 pd1 pd2
  exact ⟨fun hrel => ⟨h0.completes_true hp hpd hrel, h1.completes_true hp hpd hrel⟩,
    fun hrel => ⟨h0.completes_false hpd hrel, h1.completes_false hpd hrel⟩⟩

/-! ### The order of two parallel-write compares -/

section
variable {W : Nat} (m : Mach W)

/-- Writing a predicate and advancing the pc commute. -/
theorem Mach.pset_advance (j : PredNum) (b : Bool) : m.advance.pset j b = (m.pset j b).advance := by
  unfold Mach.pset; split <;> rfl

/-- Writing a pair and advancing the pc commute. -/
theorem Mach.writePair_advance (pd1 pd2 : PredNum) (t : Bool) :
    m.advance.writePair pd1 pd2 t = (m.writePair pd1 pd2 t).advance := by
  rw [Mach.writePair, Mach.pset_advance, Mach.pset_advance, Mach.writePair]

/-- A predicate that is no destination reads as before a pair write (R110). -/
theorem Mach.pget_writePair_other {pd1 pd2 j : PredNum} (t : Bool) (h1 : j ≠ pd1) (h2 : j ≠ pd2) :
    (m.writePair pd1 pd2 t).pget j = m.pget j := by
  simp [Mach.writePair, Mach.pget_pset, h1, h2]

/-- A parallel write does not change whether a compare fires that its destinations do not qualify: it changes no
register and not that compare's predicate. -/
theorem Mach.pairFires_parallelWrite {qp pd1 pd2 : PredNum} (v fires : Bool) (rel : Rel) (rs1 rs2 : Reg)
    (h1 : qp ≠ pd1) (h2 : qp ≠ pd2) :
    (m.parallelWrite pd1 pd2 v fires).pairFires qp rel rs1 rs2 = m.pairFires qp rel rs1 rs2 := by
  cases fires with
  | false => rfl
  | true => simp [Mach.parallelWrite, Mach.pairFires, m.pget_writePair_other v h1 h2]

/-- Two parallel writes of one bit to one pair commute: both write the same, or only one of them writes (R258). -/
theorem Mach.parallelWrite_comm (pd1 pd2 : PredNum) (v fires fires' : Bool) :
    (m.parallelWrite pd1 pd2 v fires).parallelWrite pd1 pd2 v fires' =
      (m.parallelWrite pd1 pd2 v fires').parallelWrite pd1 pd2 v fires := by
  cases fires <;> cases fires' <;> simp [Mach.parallelWrite, Mach.writePair_advance]

end

section
variable {c c' : Instr} {s : State} {qp qp' pd1 pd2 : PredNum} {rel rel' : Rel} {rs1 rs2 rs1' rs2' : Reg} {v : Bool}

/-- A parallel-write compare after another write of its bit to its pair, which does not qualify it, fires as it would
have before. -/
theorem IsParallelWrite.exec_after (hc : IsParallelWrite c qp rel rs1 rs2 pd1 pd2 v) (hpd : pd1 ≠ pd2) (h1 : qp ≠ pd1)
    (h2 : qp ≠ pd2) (fires : Bool) :
    exec c (s.withMach (s.mach.parallelWrite pd1 pd2 v fires)) = .next (s.withMach
      ((s.mach.parallelWrite pd1 pd2 v fires).parallelWrite pd1 pd2 v (s.mach.pairFires qp rel rs1 rs2))) := by
  rw [← s.mach.pairFires_parallelWrite v fires rel rs1 rs2 h1 h2]
  exact hc.exec_eq (.inl hpd)

/-- Two parallel-write compares of one bit to one pair that qualifies neither give the same state in either order
(R258). -/
theorem IsParallelWrite.exec_comm (hc : IsParallelWrite c qp rel rs1 rs2 pd1 pd2 v)
    (hc' : IsParallelWrite c' qp' rel' rs1' rs2' pd1 pd2 v) (hpd : pd1 ≠ pd2) (h1 : qp ≠ pd1) (h2 : qp ≠ pd2)
    (h1' : qp' ≠ pd1) (h2' : qp' ≠ pd2) :
    ∃ t u t', exec c s = .next t ∧ exec c' t = .next u ∧ exec c' s = .next t' ∧ exec c t' = .next u := by
  refine ⟨_, _, _, hc.exec_eq (.inl hpd), hc'.exec_after hpd h1' h2' _, hc'.exec_eq (.inl hpd), ?_⟩
  rw [hc.exec_after hpd h1 h2, Mach.parallelWrite_comm]

end

/-- Settles O30: in either case the two are parallel-write compares of one bit. -/
theorem parallelWriteComparesCommute : Obligations.ParallelWriteComparesCommute := by
  intro s qp qp' pd1 pd2 rel rel' rs1 rs2 rs1' rs2' hpd h1 h2 h1' h2' c c' hcases
  obtain ⟨rfl, rfl⟩ | ⟨rfl, rfl⟩ := hcases
  · exact (isParallelWrite_cmpPw0 qp rel rs1 rs2 pd1 pd2).exec_comm
      (isParallelWrite_cmpPw0 qp' rel' rs1' rs2' pd1 pd2) hpd h1 h2 h1' h2'
  · exact (isParallelWrite_cmpPw1 qp rel rs1 rs2 pd1 pd2).exec_comm
      (isParallelWrite_cmpPw1 qp' rel' rs1' rs2' pd1 pd2) hpd h1 h2 h1' h2'

/-! ### One predicate for both destinations -/

/-- An executed instruction of the pair-writing shape with one predicate other than P0 for both destinations is refused,
whether or not it would write (R110, R115). -/
theorem exec_refused_of_writesPair {i : Instr} {s : State} {qp pd : PredNum} {b : Mach s.W → Option Bool}
    (hi : exec i s = s.writesPair qp pd pd b) (hp : s.mach.pget qp = true) (hpd : pd ≠ 0) :
    exec i s = .refused .pd1EqualsPd2 := by
  rw [hi, State.writesPair, State.predicated_true hp, guardPair, if_pos ⟨rfl, hpd⟩, State.answer_refused]

/-- Settles O29: all five have the pair-writing shape. -/
theorem compareToOnePredicateRefused : Obligations.CompareToOnePredicateRefused := by
  intro s qp pd rel rs1 rs2 imm8 hp hpd
  refine ⟨?_, ?_, ?_, ?_, ?_⟩
  · exact exec_refused_of_writesPair (b := fun m => some (relHolds rel (m.rget rs1) (m.rget rs2))) rfl hp hpd
  · exact exec_refused_of_writesPair (isParallelWrite_cmpPw0 qp rel rs1 rs2 pd pd s) hp hpd
  · exact exec_refused_of_writesPair (isParallelWrite_cmpPw1 qp rel rs1 rs2 pd pd s) hp hpd
  · exact exec_refused_of_writesPair (b := fun m => some (relHolds rel (m.rget rs1) (sext s.W imm8))) rfl hp hpd
  · exact exec_refused_of_writesPair (b := fun m => some ((m.rget rs1).getLsbD imm8.toNat)) rfl hp hpd

end Sys2Proof.Machine

/-! PROOFS. Memory access: the value a load gives its register, the bytes a store puts in memory, the base an update
form leaves, and the refusal of an update load to its own base. -/

namespace Sys2Proof

/-- Every register has room for four bytes (R6). -/
theorem Width.four_bytes_le_bits (wd : Width) : 8 * 4 ≤ wd.bits := by cases wd <;> decide

/-- Every subword has a byte. -/
theorem Sw.bytes_pos (sw : Sw) : 0 < sw.bytes := by cases sw <;> decide

end Sys2Proof

namespace Sys2Proof.Machine

/-! ### The value of a load and the bytes of a store -/

section
variable {W : Nat} (m : Mach W) (ext : LoadExt) {n i : Nat} (a : BitVec W)

/-- The low bits of a loaded value are those of the bytes read, under either extension (R125). -/
theorem Mach.getLsbD_loaded_low (hi : i < 8 * n) (hfits : 8 * n ≤ W) :
    (m.loaded ext n a).getLsbD i = (BitVec.ofNat (8 * n) (m.mem.readLE a.toNat n)).getLsbD i := by
  have hiW : i < W := by omega
  cases ext with
  | zero => rw [Mach.loaded, zext, BitVec.getLsbD_setWidth, decide_eq_true hiW, Bool.true_and]
  | sign => rw [Mach.loaded, sext, BitVec.getLsbD_signExtend, decide_eq_true hiW, Bool.true_and, if_pos hi]

/-- The bits above are what `LOAD_EXT` makes them: 0, or copies of the top bit read (R125). -/
theorem Mach.getLsbD_loaded_high (hi : 8 * n ≤ i) (hiW : i < W) :
    (m.loaded ext n a).getLsbD i =
      (ext == .sign && (BitVec.ofNat (8 * n) (m.mem.readLE a.toNat n)).getLsbD (8 * n - 1)) := by
  cases ext with
  | zero => rw [Mach.loaded, zext, BitVec.getLsbD_setWidth, BitVec.getLsbD_of_ge _ i hi, Bool.and_false]; rfl
  | sign =>
    rw [Mach.loaded, sext, BitVec.getLsbD_signExtend, decide_eq_true hiW, if_neg (Nat.not_lt.mpr hi),
      BitVec.msb_eq_getLsbD_last]
    rfl

/-- The value of a load is the one `LoadedAs` describes, where the register has room for the bytes (R43, R125). -/
theorem Mach.loadedAs_loaded (hn : 0 < n) (hfits : 8 * n ≤ W) :
    m.LoadedAs ext a.toNat n (m.loaded ext n a) := by
  refine ⟨fun k hk => ?_, fun i hiW hi => ?_⟩
  · rw [← Memory.extractLsb'_readLE_byte m.mem a.toNat hk]
    apply BitVec.eq_of_getLsbD_eq
    intro j hj
    rw [BitVec.getLsbD_extractLsb', BitVec.getLsbD_extractLsb', m.getLsbD_loaded_low ext a (by omega) hfits]
  · rw [m.getLsbD_loaded_high ext a hi hiW, m.getLsbD_loaded_low ext a (by omega) hfits]

end

section
variable {W : Nat} {m m' : Mach W}

/-- After a store its bytes hold the low bytes of the value stored (R44). -/
theorem Mach.holds_store (m : Mach W) (n ea : Nat) (v : BitVec W) : (m.store n ea v.toNat).Holds ea n v := by
  intro k hk
  rw [Mach.store_read, if_pos (by omega), Nat.add_sub_cancel_left, BitVec.extractLsb', Nat.shiftRight_eq_div_pow]

/-- A state with the memory of a store that goes on has the effect and the frame of `StoresAt`, whatever became of the
registers (R44). -/
theorem Mach.storesAt_of_mem {n ea : Nat} {v : BitVec W} (hmem : m'.mem = (m.store n ea v.toNat).mem)
    (hpreds : m.SamePredicates m') (houtcome : m'.outcome = m.outcome) (hpc : m'.pc = m.pc + 4) :
    m.StoresAt m' ea n v where
  bytes := fun k hk => (congrArg (·.read (ea + k)) hmem).trans (m.holds_store n ea v k hk)
  mem := fun a ha => (congrArg (·.read a) hmem).trans (Mach.store_read_outside _ (by omega))
  preds := hpreds
  outcome := houtcome
  pc := hpc

/-- Storing and going on (R132). -/
theorem Mach.storesAt_store_advance (n ea : Nat) (v : BitVec W) : m.StoresAt (m.store n ea v.toNat).advance ea n v :=
  Mach.storesAt_of_mem rfl ⟨rfl, rfl⟩ rfl rfl

/-- Storing, replacing the base and going on (R133). -/
theorem Mach.storesAt_store_rset_advance (n ea : Nat) (v : BitVec W) (rs1 : Reg) (base : BitVec W) :
    m.StoresAt ((m.store n ea v.toNat).rset rs1 base).advance ea n v :=
  Mach.storesAt_of_mem (by simp) (by simp [Mach.SamePredicates]) (by simp) (by simp)

/-- Writing the data and then the base, two registers unless both are R0, has the effect and the frame of
`LoadsAndUpdates` (R129, R131). -/
theorem Mach.loadsAndUpdates_rset_rset_advance {rd rs1 : Reg} (v base : BitVec W) (hne : rd ≠ rs1 ∨ rd = 0) :
    m.LoadsAndUpdates ((m.rset rd v).rset rs1 base).advance rd rs1 v base where
  data := by
    obtain hne | rfl := hne
    · rw [Mach.rget_advance, Mach.rget_rset_other _ base hne, Mach.rget_rset_same, written]
    · rfl
  base := by rw [Mach.rget_advance, Mach.rget_rset_same, written]
  regs := fun r hrd hrs1 => by rw [Mach.rget_advance, Mach.rget_rset_other _ base hrs1, Mach.rget_rset_other m v hrd]
  preds := by simp [Mach.SamePredicates]
  mem := fun a => by simp
  outcome := by simp
  pc := by simp

end

/-! ### Loads and stores that are performed -/

section
variable {i : Instr} {s : State}

/-- An instruction that is an aligned access of bytes that exist completes as the access goes on. -/
theorem completes_of_access {n : Nat} {a : BitVec s.W} {m : Mach s.W} {holds : Mach s.W → Prop}
    (hi : exec i s = s.answer (access s.cfg s.mach n a (.next m))) (hal : a.toNat % n = 0)
    (hex : present s.cfg.absent a.toNat n = true) (hm : holds m) : Completes i s holds :=
  ⟨m, by rw [hi, access_performed hal hex, State.answer_next], hm⟩

variable {qp : PredNum} {n : Nat} {rd rs1 : Reg}

/-- A plain load that is performed completes with the value of its bytes in `rd` (R128, R130). -/
theorem completes_loads {ea : Mach s.W → BitVec s.W} (hi : exec i s = s.loads qp n rd ea)
    (hp : s.mach.pget qp = true) (hn : 0 < n) (hfits : 8 * n ≤ s.W) (hal : (ea s.mach).toNat % n = 0)
    (hex : present s.cfg.absent (ea s.mach).toNat n = true) :
    Completes i s fun m =>
      ∃ v, s.mach.WritesReg m rd v ∧ s.mach.LoadedAs s.cfg.loadExt (ea s.mach).toNat n v :=
  completes_of_access (hi.trans (State.loads_true hp)) hal hex
    ⟨_, s.mach.writesReg_rset_advance rd _, s.mach.loadedAs_loaded _ _ hn hfits⟩

/-- An update load that is performed, its two destinations being two registers or both R0, completes with the value of
its bytes in `rd` and the new base in `rs1` (R129, R131). -/
theorem completes_loadsUpdate {base : Mach s.W → BitVec s.W} (hi : exec i s = s.loadsUpdate qp n rd rs1 base)
    (hp : s.mach.pget qp = true) (hne : rd ≠ rs1 ∨ rd = 0) (hn : 0 < n) (hfits : 8 * n ≤ s.W)
    (hal : (s.mach.rget rs1).toNat % n = 0) (hex : present s.cfg.absent (s.mach.rget rs1).toNat n = true) :
    Completes i s fun m => ∃ v, s.mach.LoadsAndUpdates m rd rs1 v (base s.mach) ∧
      s.mach.LoadedAs s.cfg.loadExt (s.mach.rget rs1).toNat n v := by
  have hguard : ¬(rd = rs1 ∧ rd ≠ 0) := fun h => hne.elim (· h.1) h.2
  have haccess := hi.trans (State.loadsUpdate_true hp)
  rw [if_neg hguard] at haccess
  exact completes_of_access haccess hal hex
    ⟨_, Mach.loadsAndUpdates_rset_rset_advance _ _ hne, s.mach.loadedAs_loaded _ _ hn hfits⟩

/-- An update load to its own base, other than R0, is refused where its access would be performed (R129, R131, D17). -/
theorem exec_refused_of_loadsUpdate {base : Mach s.W → BitVec s.W} (hi : exec i s = s.loadsUpdate qp n rd rd base)
    (hp : s.mach.pget qp = true) (hrd : rd ≠ 0) (hal : (s.mach.rget rd).toNat % n = 0)
    (hex : present s.cfg.absent (s.mach.rget rd).toNat n = true) : exec i s = .refused .loadUpdateRdEqualsRs1 := by
  rw [hi, State.loadsUpdate_true hp, if_pos ⟨rfl, hrd⟩, access_performed hal hex, State.answer_refused]

/-- A plain store that is performed completes with the bytes of `rd` in memory and every register as before (R132). -/
theorem completes_stores {ea : Mach s.W → BitVec s.W} (hi : exec i s = s.stores qp n rd ea)
    (hp : s.mach.pget qp = true) (hal : (ea s.mach).toNat % n = 0)
    (hex : present s.cfg.absent (ea s.mach).toNat n = true) :
    Completes i s fun m => s.mach.StoresAt m (ea s.mach).toNat n (s.mach.rget rd) ∧ s.mach.SameRegs m :=
  completes_of_access (hi.trans (State.stores_true hp)) hal hex ⟨Mach.storesAt_store_advance _ _ _, fun _ => rfl⟩

/-- An update store that is performed completes with the bytes of the old `rd` in memory and the new base in `rs1`
(R133). -/
theorem completes_storesUpdate {base : Mach s.W → BitVec s.W} (hi : exec i s = s.storesUpdate qp n rd rs1 base)
    (hp : s.mach.pget qp = true) (hal : (s.mach.rget rs1).toNat % n = 0)
    (hex : present s.cfg.absent (s.mach.rget rs1).toNat n = true) :
    Completes i s fun m => s.mach.StoresAt m (s.mach.rget rs1).toNat n (s.mach.rget rd) ∧
      m.rget rs1 = written rs1 (base s.mach) ∧ s.mach.SameRegsBut m rs1 :=
  completes_of_access (hi.trans (State.storesUpdate_true hp)) hal hex
    ⟨Mach.storesAt_store_rset_advance _ _ _ _ _, Mach.rget_rset_same _ _ _,
      fun _ hr => Mach.rget_rset_other _ _ hr⟩

end

/-! ### The statements -/

/-- Settles O32: all three are plain loads, at the displaced or at the indexed address. -/
theorem loadResults : Obligations.LoadResults := by
  intro s qp rd rs1 rs2 imm13 hp
  refine ⟨?_, ?_⟩
  · rintro ea rfl
    exact ⟨completes_loads (ea := (·.displaced rs1 imm13)) rfl hp (by decide) (Width.four_bytes_le_bits _),
      completes_loads (n := 8) (ea := (·.displaced rs1 imm13)) rfl hp (by decide)⟩
  · rintro ea rfl sw - hfits
    exact completes_loads (ea := (·.indexed rs1 rs2)) rfl hp sw.bytes_pos hfits

/-- Settles O33: all three are update loads, whose new base is the displaced or the indexed address. -/
theorem updateLoadResults : Obligations.UpdateLoadResults := by
  rintro s qp rd rs1 rs2 imm13 hp hne ea rfl
  refine ⟨?_, ?_, fun sw _ hfits => ?_⟩
  · exact completes_loadsUpdate (base := (·.displaced rs1 imm13)) rfl hp hne (by decide) (Width.four_bytes_le_bits _)
  · exact completes_loadsUpdate (n := 8) (base := (·.displaced rs1 imm13)) rfl hp hne (by decide)
  · exact completes_loadsUpdate (base := (·.indexed rs1 rs2)) rfl hp hne sw.bytes_pos hfits

/-- Settles O34: all three are update loads, whose guard refuses the two writes to one register. -/
theorem updateLoadToItsBaseRefused : Obligations.UpdateLoadToItsBaseRefused := by
  rintro s qp r rs2 imm13 hp hr ea rfl
  refine ⟨?_, ?_, fun sw _ => ?_⟩
  · exact exec_refused_of_loadsUpdate (base := (·.displaced r imm13)) rfl hp hr
  · exact exec_refused_of_loadsUpdate (base := (·.displaced r imm13)) rfl hp hr
  · exact exec_refused_of_loadsUpdate (base := (·.indexed r rs2)) rfl hp hr

/-- Settles O37: all four are plain stores; every address is a multiple of 1. -/
theorem storeResults : Obligations.StoreResults := by
  rintro s qp rd rs1 imm13 hp ea rfl
  refine ⟨?_, ?_, ?_, fun _ => ?_⟩
  · exact completes_stores (ea := (·.displaced rs1 imm13)) rfl hp (Nat.mod_one _)
  · exact completes_stores (ea := (·.displaced rs1 imm13)) rfl hp
  · exact completes_stores (ea := (·.displaced rs1 imm13)) rfl hp
  · exact completes_stores (ea := (·.displaced rs1 imm13)) rfl hp

/-- Settles O38: all four are update stores, whose new base is the displaced address. -/
theorem updateStoreResults : Obligations.UpdateStoreResults := by
  rintro s qp rd rs1 imm13 hp ea base rfl rfl
  refine ⟨?_, ?_, ?_, fun _ => ?_⟩
  · exact completes_storesUpdate (base := (·.displaced rs1 imm13)) rfl hp (Nat.mod_one _)
  · exact completes_storesUpdate (base := (·.displaced rs1 imm13)) rfl hp
  · exact completes_storesUpdate (base := (·.displaced rs1 imm13)) rfl hp
  · exact completes_storesUpdate (base := (·.displaced rs1 imm13)) rfl hp

end Sys2Proof.Machine

/-! PROOFS. ALU with an immediate (R140 to R144). -/

namespace Sys2Proof.Machine

/-- Settles O39: both write one register, with the sum or the difference of the source and the immediate that `sext`
extends. -/
theorem addSubtractImmediateResults : Obligations.AddSubtractImmediateResults := by
  intro s qp rd rs1 imm hp
  refine ⟨?_, ?_⟩
  · exact completes_writesReg (v := fun m => m.rget rs1 + sext s.W imm) rfl hp
  · exact completes_writesReg (v := fun m => m.rget rs1 - sext s.W imm) rfl hp

/-- Settles O40: all three write one register, with the bitwise operation on the source and the immediate that `zext`
extends. -/
theorem logicalImmediateResults : Obligations.LogicalImmediateResults := by
  intro s qp rd rs1 imm hp
  refine ⟨?_, ?_, ?_⟩
  · exact completes_writesReg (v := fun m => m.rget rs1 &&& zext s.W imm) rfl hp
  · exact completes_writesReg (v := fun m => m.rget rs1 ||| zext s.W imm) rfl hp
  · exact completes_writesReg (v := fun m => m.rget rs1 ^^^ zext s.W imm) rfl hp

end Sys2Proof.Machine

/-! PROOFS. Shifts with an immediate: the amounts, and the bits of a shifted pair (R150 to R153, R156). -/

namespace Sys2Proof.Machine

/-- The amount of an immediate shift is `u(imm13) mod W`, but for `imm13 = W` under the reading that shifts everything
out (R156, D22, U12). -/
theorem immShiftAmount_eq (reading : ShiftAmount) (W : Nat) (imm13 : BitVec 13) :
    immShiftAmount reading W imm13 =
      if imm13.toNat = W ∧ reading = .shiftOut then W else imm13.toNat % W := by
  cases reading <;> simp [immShiftAmount]

/-- The bits of a shifted pair: from the low half up to its top, from the high half above it; above the pair the high
half reads as 0 (R153, D23). -/
theorem getLsbD_shiftRightPair {W i : Nat} (hi lo : BitVec W) (k : Nat) (hiW : i < W) :
    (shiftRightPair hi lo k).getLsbD i =
      if i + k < W then lo.getLsbD (i + k) else hi.getLsbD (i + k - W) := by
  rw [shiftRightPair, BitVec.getLsbD_setWidth, decide_eq_true hiW, Bool.true_and, BitVec.getLsbD_ushiftRight,
    Nat.add_comm k i, BitVec.getLsbD_append]

/-- Settles O41: all three write one register, with the shift of the source by the one amount, which multiplies or
divides its unsigned or signed value by a power of 2. -/
theorem immediateShiftResults : Obligations.ImmediateShiftResults := by
  intro s qp rd rs1 imm hp k hk
  obtain rfl : k = immShiftAmount s.cfg.num.immShiftAtWidth s.W imm := hk.trans (immShiftAmount_eq _ _ _).symm
  refine ⟨?_, ?_, ?_⟩
  · refine completes_writesReg_value (v := fun m => m.rget rs1 <<< immShiftAmount _ _ imm) rfl hp ?_
    rw [BitVec.toNat_shiftLeft, Nat.shiftLeft_eq]
  · refine completes_writesReg_value (v := fun m => (m.rget rs1).sshiftRight (immShiftAmount _ _ imm)) rfl hp ?_
    rw [BitVec.toInt_sshiftRight, Int.shiftRight_eq_div_pow]
  · refine completes_writesReg_value (v := fun m => m.rget rs1 >>> immShiftAmount _ _ imm) rfl hp ?_
    rw [BitVec.toNat_ushiftRight, Nat.shiftRight_eq_div_pow]

/-- Settles O42: `shrp` writes one register, with the pair of the sources shifted by `pairShiftAmount`. -/
theorem shiftRightPairResult : Obligations.ShiftRightPairResult := by
  rintro s qp rd rs1 rs2 imm8 hp k rfl
  exact completes_writesReg_value
    (v := fun m => shiftRightPair (m.rget rs1) (m.rget rs2) (pairShiftAmount s.W imm8)) rfl hp
    fun _ => getLsbD_shiftRightPair _ _ _

end Sys2Proof.Machine

/-! PROOFS. The parallel and logical ALU (R160 to R182): the number that each subword function gives, and from that the
results of the instructions, which are all of the shape of R160 or write a whole register. -/

namespace Sys2Proof

/-- A subword has at least two bits (R11). -/
theorem Sw.two_le_bits (sw : Sw) : 2 ≤ sw.bits := by cases sw <;> decide

end Sys2Proof

namespace Sys2Proof.Machine

/-! ### Numbers cut to a width -/

section
variable {b : Nat}

/-- The word of an integer, read as unsigned, is the integer modulo `2^b` (R10). -/
theorem natCast_toNat_ofInt (z : Int) : ((BitVec.ofInt b z).toNat : Int) = z % ((2 ^ b : Nat) : Int) := by
  rw [BitVec.toNat_ofInt, Int.toNat_of_nonneg (Int.emod_nonneg _ (by positivity))]

/-- The word of a difference is the difference of the words. -/
theorem ofInt_sub (y z : Int) : BitVec.ofInt b (y - z) = BitVec.ofInt b y - BitVec.ofInt b z := by
  rw [Int.sub_eq_add_neg, BitVec.ofInt_add, BitVec.ofInt_neg, BitVec.sub_eq_add_neg]

/-- The wide difference of two unsigned numbers is the word of their difference as a signed number. -/
theorem setWidth_sub_setWidth (w : Nat) (a c : BitVec b) :
    a.setWidth w - c.setWidth w = BitVec.ofInt w ((a.toNat : Int) - c.toNat) := by
  rw [ofInt_sub, BitVec.ofInt_natCast, BitVec.ofInt_natCast, BitVec.ofNat_toNat, BitVec.ofNat_toNat]

end

/-! ### Sums and differences modulo `2^b` (R161, R164, R165, R168) -/

section
variable {b : Nat} (a c : BitVec b)

theorem toNat_addMod : (addMod a c).toNat = (a.toNat + c.toNat) % 2 ^ b := BitVec.toNat_add a c

theorem toNat_addIncr : (addIncr a c).toNat = (a.toNat + c.toNat + 1) % 2 ^ b := by
  simp [addIncr, BitVec.toNat_add]

theorem subMod_eq_ofInt : subMod a c = BitVec.ofInt b ((a.toNat : Int) - c.toNat) := by
  simpa [subMod] using setWidth_sub_setWidth b a c

theorem subDecr_eq_ofInt : subDecr a c = BitVec.ofInt b ((a.toNat : Int) - c.toNat - 1) := by
  rw [ofInt_sub, ← subMod_eq_ofInt]; rfl

theorem toNat_subMod : ((subMod a c).toNat : Int) = ((a.toNat : Int) - c.toNat) % ((2 ^ b : Nat) : Int) := by
  rw [subMod_eq_ofInt, natCast_toNat_ofInt]

theorem toNat_subDecr : ((subDecr a c).toNat : Int) = ((a.toNat : Int) - c.toNat - 1) % ((2 ^ b : Nat) : Int) := by
  rw [subDecr_eq_ofInt, natCast_toNat_ofInt]

end

/-! ### Halves (R169 to R171) -/

section
variable {b : Nat}

/-- The upper bits of a number of one bit more are its half. -/
theorem toNat_extractLsb'_one (t : BitVec (b + 1)) : (t.extractLsb' 1 b).toNat = t.toNat / 2 := by
  have ht := t.isLt
  rw [BitVec.extractLsb'_toNat, Nat.shiftRight_eq_div_pow, Nat.pow_one, Nat.mod_eq_of_lt (by omega)]

/-- The upper bits of the word of an integer are the word of its half, rounded down. -/
theorem extractLsb'_one_ofInt (d : Int) : (BitVec.ofInt (b + 1) d).extractLsb' 1 b = BitVec.ofInt b (d / 2) := by
  apply BitVec.eq_of_toNat_eq
  have hcut : d % (2 * ((2 ^ b : Nat) : Int)) / 2 = d / 2 % ((2 ^ b : Nat) : Int) := by
    rw [Int.emod_def, Int.emod_def (d / 2), Int.ediv_ediv_of_nonneg (by decide), Int.mul_assoc]
    omega
  have hpow : ((2 ^ (b + 1) : Nat) : Int) = 2 * ((2 ^ b : Nat) : Int) := by rw [Nat.pow_succ']; rfl
  zify
  rw [toNat_extractLsb'_one, Int.natCast_ediv, natCast_toNat_ofInt, natCast_toNat_ofInt, hpow]
  exact hcut

/-- The lowest bit of the word of an integer is its parity. -/
theorem getLsbD_zero_ofInt (d : Int) (hb : 0 < b) : (BitVec.ofInt b d).getLsbD 0 = decide (d % 2 = 1) := by
  have hdvd : (2 : Int) ∣ ((2 ^ b : Nat) : Int) := by exact_mod_cast dvd_pow_self 2 hb.ne'
  have hnat := natCast_toNat_ofInt (b := b) d
  have hpar := Int.emod_emod_of_dvd d hdvd
  rw [← BitVec.testBit_toNat, Nat.testBit_zero, decide_eq_decide]
  omega

/-- The sum of two subwords fits in one bit more, with room for 1. -/
theorem toNat_setWidth_add_setWidth (a c : BitVec b) :
    (a.setWidth (b + 1) + c.setWidth (b + 1)).toNat = a.toNat + c.toNat := by
  have ha := a.isLt
  have hc := c.isLt
  rw [BitVec.toNat_add, BitVec.toNat_setWidth_of_le (by omega), BitVec.toNat_setWidth_of_le (by omega),
    Nat.mod_eq_of_lt (by omega)]

/-- Half the sum, a half rounded up (R170). -/
theorem toNat_averageRaz (a c : BitVec b) : (averageRaz a c).toNat = (a.toNat + c.toNat + 1) / 2 := by
  have ha := a.isLt
  have hc := c.isLt
  rw [averageRaz, toNat_extractLsb'_one, BitVec.toNat_add, toNat_setWidth_add_setWidth]
  simp only [BitVec.ofNat_eq_ofNat, BitVec.toNat_one (Nat.succ_pos b)]
  rw [Nat.mod_eq_of_lt (by omega)]

/-- Replacing the lowest bit by the or of it and another is oring with the other. -/
theorem putLowBit_or (v : BitVec b) (x : Bool) :
    putLowBit v (v.getLsbD 0 || x) = v ||| (BitVec.ofBool x).setWidth b := by
  apply BitVec.eq_of_getLsbD_eq
  intro i hi
  rw [getLsbD_putLowBit _ _ _ hi, BitVec.getLsbD_or, BitVec.getLsbD_setWidth, BitVec.getLsbD_ofBool]
  by_cases h : i = 0
  · subst h; simp [hi]
  · simp [h]

theorem toNat_putLowBit_or (v : BitVec b) (x : Bool) (hb : 0 < b) :
    (putLowBit v (v.getLsbD 0 || x)).toNat = v.toNat ||| x.toNat := by
  rw [putLowBit_or, BitVec.toNat_or, BitVec.toNat_setWidth_of_le hb, BitVec.toNat_ofBool]

/-- A sum halved to odd is its half, ored with the bit that the reading of `NUM` names: the one shifted out, or bit 1 of
the half (R169, D27). -/
theorem toNat_halveToOdd (reading : AvgLow) (t : BitVec (b + 1)) (hb : 2 ≤ b) :
    (halveToOdd reading t).toNat =
      if reading = .beforeShift then t.toNat / 2 ||| t.toNat % 2 else t.toNat / 2 ||| t.toNat / 4 % 2 := by
  have h0 : 0 < b := by omega
  have h1 : 1 < b := by omega
  cases reading with
  | beforeShift =>
    have hlow : t.getLsbD 1 = (t.extractLsb' 1 b).getLsbD 0 := by simp [h0]
    rw [halveToOdd, hlow, toNat_putLowBit_or _ _ h0, toNat_extractLsb'_one, ← BitVec.testBit_toNat,
      Nat.toNat_testBit, if_pos rfl, Nat.pow_zero, Nat.div_one]
  | afterShift =>
    rw [halveToOdd, Bool.or_comm, toNat_putLowBit_or _ _ h0, toNat_extractLsb'_one, ← BitVec.testBit_toNat,
      Nat.toNat_testBit, toNat_extractLsb'_one, if_neg (by decide), Nat.pow_one, Nat.div_div_eq_div_mul]

/-- Half the sum, rounded to odd (R169). -/
theorem toNat_average (reading : AvgLow) (a c : BitVec b) (hb : 2 ≤ b) :
    (average reading a c).toNat =
      if reading = .beforeShift then (a.toNat + c.toNat) / 2 ||| (a.toNat + c.toNat) % 2
      else (a.toNat + c.toNat) / 2 ||| (a.toNat + c.toNat) / 4 % 2 := by
  rw [average, toNat_halveToOdd reading _ hb, toNat_setWidth_add_setWidth]

/-- The bits of an integer's word halved to odd, by those of the word `h` of its half rounded down (R171, D27). -/
theorem getLsbD_halveToOdd_ofInt (reading : AvgLow) {d : Int} {h : BitVec b} (hh : h = BitVec.ofInt b (d / 2)) {i : Nat}
    (hb : 2 ≤ b) (hi : i < b) :
    (halveToOdd reading (BitVec.ofInt (b + 1) d)).getLsbD i =
      if i = 0 then
        (if reading = .beforeShift then h.getLsbD 0 || decide (d % 2 = 1) else h.getLsbD 0 || h.getLsbD 1)
      else h.getLsbD i := by
  have hbit : ∀ j < b, (BitVec.ofInt (b + 1) d).getLsbD (j + 1) = h.getLsbD j := by
    intro j hj
    rw [hh, ← extractLsb'_one_ofInt, BitVec.getLsbD_extractLsb', decide_eq_true hj, Bool.true_and, Nat.add_comm j]
  rw [getLsbD_halveToOdd _ _ _ hb hi, hbit i hi, hbit 0 (by omega), hbit 1 (by omega),
    getLsbD_zero_ofInt d (by omega), Bool.or_comm (h.getLsbD 1)]

/-- The bits of half the difference, rounded to odd, the top one by the reading of `NUM` (R171, D27). -/
theorem getLsbD_subAverage (num : Num) (a c : BitVec b) {d : Int} {h : BitVec b} (hd : d = (a.toNat : Int) - c.toNat)
    (hh : h = BitVec.ofInt b (d / 2)) {i : Nat} (hb : 2 ≤ b) (hi : i < b) :
    (subAverage num a c).getLsbD i =
      if i = 0 then
        (if num.avgLow = .beforeShift then h.getLsbD 0 || decide (d % 2 = 1) else h.getLsbD 0 || h.getLsbD 1)
      else if i = b - 1 then (h.getLsbD i ^^ decide (num.subAvgTop = .carryOut))
      else h.getLsbD i := by
  have hhalf := getLsbD_halveToOdd_ofInt num.avgLow hh hb hi
  rw [subAverage, setWidth_sub_setWidth, ← hd]
  cases num.subAvgTop with
  | borrow => simp [hhalf]
  | carryOut =>
    have htop : (1#b <<< (b - 1)).getLsbD i = decide (i = b - 1) := by
      rw [← BitVec.twoPow_eq, BitVec.getLsbD_twoPow, decide_eq_true (show b - 1 < b by omega), Bool.true_and,
        decide_eq_decide, eq_comm]
    rw [BitVec.getLsbD_xor, hhalf, htop]
    by_cases h0 : i = 0
    · rw [if_pos h0, if_pos h0, decide_eq_false (show i ≠ b - 1 by omega), Bool.xor_false]
    · rw [if_neg h0, if_neg h0]
      by_cases h1 : i = b - 1 <;> simp [h1]

end

/-! ### Masks and choices (R177 to R180) -/

section
variable {b : Nat} (a c : BitVec b)

theorem toNat_maskIf (p : Bool) : (maskIf b p).toNat = if p then 2 ^ b - 1 else 0 := by
  cases p
  · rfl
  · exact BitVec.toNat_allOnes

theorem toNat_cmpEqMask : (cmpEqMask a c).toNat = if a = c then 2 ^ b - 1 else 0 := by
  simp only [cmpEqMask, toNat_maskIf, beq_iff_eq]

theorem toNat_cmpGtMask : (cmpGtMask a c).toNat = if a.toInt > c.toInt then 2 ^ b - 1 else 0 := by
  simp only [cmpGtMask, toNat_maskIf, BitVec.slt_iff_toInt_lt, gt_iff_lt]

theorem toInt_maxSigned : (maxSigned a c).toInt = max a.toInt c.toInt := by
  by_cases h : c.toInt ≤ a.toInt
  · rw [maxSigned, if_pos (BitVec.sle_iff_toInt_le.mpr h), max_eq_left h]
  · rw [maxSigned, if_neg (mt BitVec.sle_iff_toInt_le.mp h), max_eq_right (by omega)]

theorem toInt_minSigned : (minSigned a c).toInt = min a.toInt c.toInt := by
  by_cases h : a.toInt ≤ c.toInt
  · rw [minSigned, if_pos (BitVec.sle_iff_toInt_le.mpr h), min_eq_left h]
  · rw [minSigned, if_neg (mt BitVec.sle_iff_toInt_le.mp h), min_eq_right (by omega)]

end

/-! ### Shift and add (R181, R182) -/

section
variable (a c : BitVec 16) (sa : Nat)

/-- Signed saturation to a halfword (R12). -/
theorem toInt_satS_16 (z : Int) : (satS 16 z).toInt = min (max z (-32768)) 32767 := toInt_satS 16 (by decide) z

theorem shiftLeft_eq_ofInt {w : Nat} (v : BitVec w) : v <<< sa = BitVec.ofInt w (v.toInt * ((2 ^ sa : Nat) : Int)) := by
  have hpow : BitVec.ofInt w ((2 ^ sa : Nat) : Int) = BitVec.twoPow w sa :=
    BitVec.eq_of_toNat_eq (by rw [BitVec.ofInt_natCast, BitVec.toNat_ofNat, BitVec.toNat_twoPow])
  rw [BitVec.ofInt_mul, BitVec.ofInt_toInt, hpow, BitVec.shiftLeft_eq_mul_twoPow]

theorem toInt_shiftLeftAdd (reading : ShiftAddLeft) :
    (shiftLeftAdd reading sa a c).toInt =
      min (max ((if reading = .exact then a.toInt * ((2 ^ sa : Nat) : Int)
        else (BitVec.ofInt 16 (a.toInt * ((2 ^ sa : Nat) : Int))).toInt) + c.toInt) (-32768)) 32767 := by
  cases reading with
  | exact => rw [shiftLeftAdd, toInt_satS_16, if_pos rfl]
  | truncate => rw [shiftLeftAdd, toInt_satS_16, if_neg (by decide), shiftLeft_eq_ofInt]

theorem toInt_shiftRightAdd (reading : ShiftAddRight) :
    (shiftRightAdd reading sa a c).toInt =
      min (max ((if reading = .arithmetic then a.toInt else (a.toNat : Int)) / ((2 ^ sa : Nat) : Int) + c.toInt)
        (-32768)) 32767 := by
  cases reading with
  | arithmetic =>
    rw [shiftRightAdd, toInt_satS_16, if_pos rfl, BitVec.toInt_sshiftRight, Int.shiftRight_eq_div_pow]
  | logical =>
    rw [shiftRightAdd, toInt_satS_16, if_neg (by decide), BitVec.toNat_ushiftRight, Nat.shiftRight_eq_div_pow,
      Int.natCast_ediv]

end

/-! ### The statements -/

/-- Settles O44: each of the four is the parallel form of a sum or a difference modulo `2^b`. -/
theorem modularParallelResults : Obligations.ModularParallelResults := by
  rintro s qp sw rd rs1 rs2 hp - x y rfl rfl
  refine ⟨?_, ?_, ?_, ?_⟩
  · exact completes_parallel2 (i := .padd qp sw rd rs1 rs2) rfl hp fun k => toNat_addMod _ _
  · exact completes_parallel2 (i := .paddincr qp sw rd rs1 rs2) rfl hp fun k => toNat_addIncr _ _
  · exact completes_parallel2 (i := .psub qp sw rd rs1 rs2) rfl hp fun k => toNat_subMod _ _
  · exact completes_parallel2 (i := .psubdecr qp sw rd rs1 rs2) rfl hp fun k => toNat_subDecr _ _

/-- Settles O46: both are the parallel form of half a sum, which is taken with one bit more. -/
theorem averageResults : Obligations.AverageResults := by
  intro s qp sw rd rs1 rs2 hp _ _ sum hsum
  refine ⟨?_, ?_⟩
  · refine completes_parallel2 (i := .pavgRaz qp sw rd rs1 rs2) rfl hp fun k => ?_
    rw [hsum, toNat_averageRaz]
  · refine completes_parallel2 (i := .pavg qp sw rd rs1 rs2) rfl hp fun k => ?_
    rw [hsum, toNat_average _ _ _ sw.two_le_bits]

/-- Settles O47: `psubavg` is the parallel form of half a difference, which is taken with one bit more. -/
theorem subtractAverageResult : Obligations.SubtractAverageResult := by
  intro s qp sw rd rs1 rs2 hp _ _
  exact completes_parallel2 (i := .psubavg qp sw rd rs1 rs2) rfl hp fun k d h hd hh i hi =>
    getLsbD_subAverage _ _ _ hd hh sw.two_le_bits hi

/-- Settles O48: each of the five writes one register, with the bitwise operation on the sources. -/
theorem logicalResults : Obligations.LogicalResults := by
  rintro s qp rd rs1 rs2 hp x y rfl rfl
  refine ⟨?_, ?_, ?_, ?_, ?_⟩
  · exact completes_writesReg (v := fun m => m.rget rs1 &&& m.rget rs2) rfl hp
  · exact completes_writesReg (v := fun m => m.rget rs1 &&& ~~~m.rget rs2) rfl hp
  · exact completes_writesReg (v := fun m => m.rget rs1 ||| m.rget rs2) rfl hp
  · exact completes_writesReg (v := fun m => m.rget rs1 ^^^ m.rget rs2) rfl hp
  · exact completes_writesReg (v := fun m => ~~~m.rget rs1) rfl hp

/-- Settles O49: both are the parallel form of a mask; the predicates are in the frame of the register write. -/
theorem parallelCompareResults : Obligations.ParallelCompareResults := by
  rintro s qp sw rd rs1 rs2 hp - x y rfl rfl
  refine ⟨?_, ?_⟩
  · exact completes_parallel2 (i := .pcmpEq qp sw rd rs1 rs2) rfl hp fun k => toNat_cmpEqMask _ _
  · exact completes_parallel2 (i := .pcmpGt qp sw rd rs1 rs2) rfl hp fun k => toNat_cmpGtMask _ _

/-- Settles O50: both are the parallel form of a choice by the signed comparison. -/
theorem maximumMinimumResults : Obligations.MaximumMinimumResults := by
  rintro s qp sw rd rs1 rs2 hp - x y rfl rfl
  refine ⟨?_, ?_⟩
  · exact completes_parallel2 (i := .pmax qp sw rd rs1 rs2) rfl hp fun k => toInt_maxSigned _ _
  · exact completes_parallel2 (i := .pmin qp sw rd rs1 rs2) rfl hp fun k => toInt_minSigned _ _

/-- Settles O51: both are the parallel form on halfwords of a shift and one saturating sum. -/
theorem shiftAndAddResults : Obligations.ShiftAndAddResults := by
  rintro s qp sa rd rs1 rs2 hp x y rfl rfl
  refine ⟨?_, ?_⟩
  · exact completes_parallel2 (i := .pshiftaddL qp sa rd rs1 rs2) rfl hp fun k => toInt_shiftLeftAdd _ _ _ _
  · exact completes_parallel2 (i := .pshiftaddR qp sa rd rs1 rs2) rfl hp fun k => toInt_shiftRightAdd _ _ _ _

end Sys2Proof.Machine

/-! PROOFS. Multiply (R190 to R196): the word whose product goes to each word of `pmul`, and the number that a half of a
shifted product of `pmulshr` is. -/

namespace Sys2Proof.Machine

/-! ### `pmul` (R190 to R194) -/

theorem oddHalfPos_eq_ite (reading : OddHalf) : oddHalfPos reading = if reading = .upper then 1 else 0 := by
  cases reading <;> rfl

/-- The even halfword of a word is the other one than the odd (R190 (a)). -/
theorem evenHalfPos_eq (reading : OddHalf) : evenHalfPos reading = 1 - oddHalfPos reading := by
  cases reading <;> rfl

/-- The source word of every word of the result: the same one under the default, and the one its entry names under a
listing (D29, U18). -/
theorem arranged_same_eq_lane {reading : Arrangement} {n k : Nat} {lane : Nat → Nat} (hk : k < n)
    (hdefault : DefaultArrangement n reading → ∀ j, lane j = j)
    (hlisted : ∀ l, reading = .listed l → l.Perm (List.range n) → ∀ j < n, l[j]? = some (lane j)) :
    arranged reading (fun _ k => k) n k = lane k := by
  by_cases hdef : DefaultArrangement n reading
  · rw [arranged_std _ hdef, hdefault hdef]
  · obtain ⟨l, rfl, hperm⟩ : ∃ l, reading = .listed l ∧ l.Perm (List.range n) := by
      simpa [DefaultArrangement] using hdef
    exact Option.some.inj ((arranged_listed _ hperm hk).symm.trans (hlisted l rfl hperm k hk))

/-- What `pmul` computes in each word (R190 (b), D29). -/
theorem subword_mulHalves {W k : Nat} (product : BitVec 16 → BitVec 16 → BitVec 32) (place : Arrangement) (half : Nat)
    (x y : BitVec W) (hk : k < W / 32) :
    subword (mulHalves product place half x y) 32 k =
      product (subword x 16 (2 * arranged place (fun _ k => k) (W / 32) k + half))
        (subword y 16 (2 * arranged place (fun _ k => k) (W / 32) k + half)) :=
  subword_bySubword _ hk

/-- An instruction of the form of `pmul` completes with the product from source word `lane j` in every word `j`. -/
theorem completes_mulHalves {i : Instr} {s : State} {qp : PredNum} {rd rs1 rs2 : Reg} {half : Nat}
    {product : BitVec 16 → BitVec 16 → BitVec 32} {place : Arrangement} {lane : Nat → Nat}
    {holds : Nat → BitVec 32 → Prop}
    (hi : exec i s = s.writesReg qp rd fun m => mulHalves product place half (m.rget rs1) (m.rget rs2))
    (hp : s.mach.pget qp = true)
    (hlane : ∀ j < s.W / 32, arranged place (fun _ k => k) (s.W / 32) j = lane j)
    (hproduct : ∀ j, holds j (product (subword (s.mach.rget rs1) 16 (2 * lane j + half))
      (subword (s.mach.rget rs2) 16 (2 * lane j + half)))) :
    Completes i s (s.mach.WritesSubwords · rd 32 holds) :=
  completes_writesSubwords hi hp fun j hj => by
    rw [subword_mulHalves _ _ _ _ _ hj, hlane j hj]
    exact hproduct j

/-- Settles O52: all four are the form of `pmul`, with an exact product. -/
theorem multiplyResults : Obligations.MultiplyResults := by
  intro s qp rd rs1 rs2 hp x y odd even hx hy hodd heven lane hdefault hlisted
  subst hx hy
  obtain rfl : odd = oddHalfPos s.cfg.num.oddHalf := hodd.trans (oddHalfPos_eq_ite _).symm
  obtain rfl : even = evenHalfPos s.cfg.num.oddHalf := heven.trans (evenHalfPos_eq _).symm
  have hlane := fun j (hj : j < s.W / 32) => arranged_same_eq_lane hj hdefault hlisted
  refine ⟨?_, ?_, ?_, ?_⟩
  · exact completes_mulHalves (i := .pmulOdd qp rd rs1 rs2) rfl hp hlane fun j => toInt_mulS _ _
  · exact completes_mulHalves (i := .pmulOddU qp rd rs1 rs2) rfl hp hlane fun j => toNat_mulU _ _
  · exact completes_mulHalves (i := .pmulEven qp rd rs1 rs2) rfl hp hlane fun j => toInt_mulS _ _
  · exact completes_mulHalves (i := .pmulEvenU qp rd rs1 rs2) rfl hp hlane fun j => toNat_mulU _ _

/-! ### `pmulshr` (R195, R196) -/

/-- The low bits of a word are the word of its signed number. -/
theorem setWidth_eq_ofInt_toInt {b w : Nat} (t : BitVec w) (hb : b ≤ w) : t.setWidth b = BitVec.ofInt b t.toInt :=
  (BitVec.signExtend_eq_setWidth_of_le t hb).symm

/-- The bits of a field are the word of the signed number shifted down to it, rounding down. -/
theorem extractLsb'_eq_ofInt_toInt {w : Nat} (t : BitVec w) (pos len : Nat) (h : pos + len ≤ w) :
    t.extractLsb' pos len = BitVec.ofInt len (t.toInt / ((2 ^ pos : Nat) : Int)) := by
  have hshift : t.extractLsb' pos len = (t.sshiftRight pos).setWidth len := by
    apply BitVec.eq_of_getLsbD_eq
    intro i hi
    have hlow : pos + i < w := by omega
    have hiw : ¬w ≤ i := by omega
    simp [BitVec.getLsbD_sshiftRight, hi, hlow, hiw]
  rw [hshift, setWidth_eq_ofInt_toInt _ (by omega), BitVec.toInt_sshiftRight, Int.shiftRight_eq_div_pow]

/-- The number that half of a product is, of a product read as signed (R196). -/
theorem productHalf_eq_ofInt (reading : ProductHalf) (t : BitVec 32) :
    productHalf reading t =
      BitVec.ofInt 16 (t.toInt / ((2 ^ (if reading = .low then 0 else 16) : Nat) : Int)) := by
  cases reading with
  | low => simpa [productHalf] using setWidth_eq_ofInt_toInt t (by decide : 16 ≤ 32)
  | high => exact extractLsb'_eq_ofInt_toInt t 16 16 (by decide)

section
variable (half : ProductHalf) (sa : Nat) (a c : BitVec 16)

theorem toNat_mulShiftU :
    (mulShiftU half sa a c).toNat =
      a.toNat * c.toNat / 2 ^ sa / 2 ^ (if half = .low then 0 else 16) % 2 ^ 16 := by
  have hshift : (mulU a c >>> sa).toNat = a.toNat * c.toNat / 2 ^ sa := by
    rw [BitVec.toNat_ushiftRight, Nat.shiftRight_eq_div_pow, toNat_mulU]
  have hlt := (mulU a c >>> sa).isLt
  rw [hshift] at hlt
  rw [mulShiftU, toNat_productHalf, hshift]
  cases half with
  | low => simp
  | high =>
    rw [if_neg (by decide), if_neg (by decide), Nat.mod_eq_of_lt (by omega)]

theorem mulShiftS_eq_ofInt :
    mulShiftS half sa a c =
      BitVec.ofInt 16 (a.toInt * c.toInt / ((2 ^ sa : Nat) : Int) /
        ((2 ^ (if half = .low then 0 else 16) : Nat) : Int)) := by
  rw [mulShiftS, productHalf_eq_ofInt, BitVec.toInt_sshiftRight, toInt_mulS, Int.shiftRight_eq_div_pow]

/-- The low half of the unshifted unsigned product is the product of the halfwords modulo `2^16`. -/
theorem mulShiftU_low_zero : mulShiftU .low 0 a c = a * c := by
  apply BitVec.eq_of_toNat_eq
  simp [toNat_mulShiftU]

/-- The low half of the unshifted signed product is the product of the halfwords modulo `2^16`. -/
theorem mulShiftS_low_zero : mulShiftS .low 0 a c = a * c := by
  simp [mulShiftS_eq_ofInt, BitVec.ofInt_mul]

end

/-- Settles O53: both are the parallel form on halfwords of a half of a shifted exact product; the low halves of the two
unshifted products are the same. -/
theorem multiplyShiftResults : Obligations.MultiplyShiftResults := by
  refine ⟨fun s qp rd rs1 rs2 hlow => ?_, ?_⟩
  · have hfun : mulShiftS .low 0 = mulShiftU .low 0 := by
      funext a c
      rw [mulShiftS_low_zero, mulShiftU_low_zero]
    change execPmulshrA qp .sa0 rd rs1 rs2 s = execPmulshr qp .sa0 rd rs1 rs2 s
    rw [execPmulshrA, execPmulshr, hlow, MulSa.amount, hfun]
  · rintro s qp sa rd rs1 rs2 hp x y below rfl rfl rfl
    refine ⟨?_, ?_⟩
    · exact completes_parallel2 (i := .pmulshr qp sa rd rs1 rs2) rfl hp fun k => toNat_mulShiftU _ _ _ _
    · exact completes_parallel2 (i := .pmulshrA qp sa rd rs1 rs2) rfl hp fun k => mulShiftS_eq_ofInt _ _ _ _

end Sys2Proof.Machine

/-! PROOFS. How a run ends from the step and from `exec` (R230 to R237). -/

namespace Sys2Proof.Machine

/-- Settles O7: the test of the outcome is the first of the step. -/
theorem terminalOutcomesTakeNoStep : Obligations.TerminalOutcomesTakeNoStep := fun _ hended => if_pos hended

/-- Settles O13: of the effects an instruction can have, only the trap of an access and the halt set the outcome. -/
theorem onlyTheseInstructionsEndTheRun : Obligations.OnlyTheseInstructionsEndTheRun := by
  intro i s t hrun hexec
  obtain ⟨m, rfl, heffect⟩ := exec_effect hexec
  refine ⟨m, rfl, ?_⟩
  cases heffect with
  | unaligned ea n hp hat hal => exact .inr (.inr ⟨ea, n, hat, hal, hp, rfl⟩)
  | halt qp hi hp => exact .inr (.inl ⟨rfl, qp, hi, hp⟩)
  | _ => left; simpa using hrun

end Sys2Proof.Machine

/-! PROOFS. Parallel shift (R200 to R206): the amount, and the number that a shifted subword is. -/

namespace Sys2Proof.Machine

/-- Under either reading of `NUM` the amount is the one the reading names, cut off at the subword width (R200, D30). -/
theorem subwordShiftAmount_eq_min (reading : ShiftAmount) {b : Nat} (hb : 0 < b) (k : Nat) :
    subwordShiftAmount reading b k = min (if reading = .modulo then k % b else k) b := by
  cases reading with
  | modulo => exact (min_eq_left (Nat.mod_lt k hb).le).symm
  | shiftOut => rfl

section
variable {b : Nat} (a : BitVec b) (n : Nat)

/-! An amount at or above the width shifts everything out, so that the cut at the width changes no shift. -/

theorem toNat_shiftLeft_min : (a <<< min n b).toNat = a.toNat * 2 ^ n % 2 ^ b := by
  have hcut : a <<< min n b = a <<< n := by
    rcases le_total n b with h | h
    · rw [min_eq_left h]
    · rw [min_eq_right h, BitVec.shiftLeft_eq_zero le_rfl, BitVec.shiftLeft_eq_zero h]
  rw [hcut, BitVec.toNat_shiftLeft, Nat.shiftLeft_eq]

theorem toNat_ushiftRight_min : (a >>> min n b).toNat = a.toNat / 2 ^ n := by
  have hcut : a >>> min n b = a >>> n := by
    rcases le_total n b with h | h
    · rw [min_eq_left h]
    · rw [min_eq_right h, BitVec.ushiftRight_eq_zero le_rfl, BitVec.ushiftRight_eq_zero h]
  rw [hcut, BitVec.toNat_ushiftRight, Nat.shiftRight_eq_div_pow]

theorem toInt_sshiftRight_min : (a.sshiftRight (min n b)).toInt = a.toInt / ((2 ^ n : Nat) : Int) := by
  have hcut : a.sshiftRight (min n b) = a.sshiftRight n := by
    rcases le_total n b with h | h
    · rw [min_eq_left h]
    · apply BitVec.eq_of_getLsbD_eq
      intro i _
      simp only [BitVec.getLsbD_sshiftRight, min_eq_right h, if_neg (show ¬b + i < b by omega),
        if_neg (show ¬n + i < b by omega)]
  rw [hcut, BitVec.toInt_sshiftRight, Int.shiftRight_eq_div_pow]

end

section
variable {reading : ShiftAmount} {W b k amount n : Nat} (x : BitVec W)

/-! Every subword shifted by the amount `n` that the reading of `NUM` makes of the operand (R200, D30). -/

theorem toNat_subword_shiftSubwordsLeft (hk : k < W / b) (hb : 0 < b)
    (hn : n = if reading = .modulo then amount % b else amount) :
    (subword (shiftSubwordsLeft reading b amount x) b k).toNat = (subword x b k).toNat * 2 ^ n % 2 ^ b := by
  rw [shiftSubwordsLeft, subword_parallel1 _ _ hk, subwordShiftAmount_eq_min reading hb, ← hn, toNat_shiftLeft_min]

theorem toNat_subword_shiftSubwordsRight (hk : k < W / b) (hb : 0 < b)
    (hn : n = if reading = .modulo then amount % b else amount) :
    (subword (shiftSubwordsRight reading b amount x) b k).toNat = (subword x b k).toNat / 2 ^ n := by
  rw [shiftSubwordsRight, subword_parallel1 _ _ hk, subwordShiftAmount_eq_min reading hb, ← hn, toNat_ushiftRight_min]

theorem toInt_subword_shiftSubwordsRightArith (hk : k < W / b) (hb : 0 < b)
    (hn : n = if reading = .modulo then amount % b else amount) :
    (subword (shiftSubwordsRightArith reading b amount x) b k).toInt =
      (subword x b k).toInt / ((2 ^ n : Nat) : Int) := by
  rw [shiftSubwordsRightArith, subword_parallel1 _ _ hk, subwordShiftAmount_eq_min reading hb, ← hn,
    toInt_sshiftRight_min]

end

/-- Settles O55: all six write one register, with the subwords of the source shifted by the one amount. -/
theorem parallelShiftResults : Obligations.ParallelShiftResults := by
  rintro s qp sw rd rs1 rs2 imm5 hp - - x amount rfl hamount
  refine ⟨?_, ?_⟩
  · rintro n rfl
    refine ⟨?_, ?_, ?_⟩
    · exact completes_writesSubwords (v := fun m => shiftSubwordsLeft _ sw.bits (m.rget rs2).toNat (m.rget rs1)) rfl hp
        fun k hk => toNat_subword_shiftSubwordsLeft _ hk sw.bits_pos (hamount _)
    · exact completes_writesSubwords
        (v := fun m => shiftSubwordsRight _ sw.bits (m.rget rs2).toNat (m.rget rs1)) rfl hp
        fun k hk => toNat_subword_shiftSubwordsRight _ hk sw.bits_pos (hamount _)
    · exact completes_writesSubwords
        (v := fun m => shiftSubwordsRightArith _ sw.bits (m.rget rs2).toNat (m.rget rs1)) rfl hp
        fun k hk => toInt_subword_shiftSubwordsRightArith _ hk sw.bits_pos (hamount _)
  · rintro n rfl
    refine ⟨?_, ?_, ?_⟩
    · exact completes_writesSubwords (v := fun m => shiftSubwordsLeft _ sw.bits imm5.toNat (m.rget rs1)) rfl hp
        fun k hk => toNat_subword_shiftSubwordsLeft _ hk sw.bits_pos (hamount _)
    · exact completes_writesSubwords (v := fun m => shiftSubwordsRight _ sw.bits imm5.toNat (m.rget rs1)) rfl hp
        fun k hk => toNat_subword_shiftSubwordsRight _ hk sw.bits_pos (hamount _)
    · exact completes_writesSubwords (v := fun m => shiftSubwordsRightArith _ sw.bits imm5.toNat (m.rget rs1)) rfl hp
        fun k hk => toInt_subword_shiftSubwordsRightArith _ hk sw.bits_pos (hamount _)

end Sys2Proof.Machine

/-! PROOFS. Subword permutation: `mix` (R211, R212), `perm` (R218), and the permutations that undo one another (R213,
R215, R216). -/

namespace Sys2Proof

/-- A register is a whole number of bytes (R6). -/
theorem Width.bytes_mul_eight (wd : Width) : wd.bits / 8 * 8 = wd.bits := by cases wd <;> decide

end Sys2Proof

namespace Sys2Proof.Machine

/-! ### `mix` -/

section
variable {W b j : Nat} (x y : BitVec W)

theorem subword_mixLeft_odd (hj : 2 * j + 1 < W / b) :
    subword (mixLeft b x y) b (2 * j + 1) = subword x b (2 * j + 1) := by
  rw [mixLeft, subword_bySubword _ hj, if_pos (by omega)]

theorem subword_mixLeft_even (hj : 2 * j < W / b) :
    subword (mixLeft b x y) b (2 * j) = subword y b (2 * j + 1) := by
  rw [mixLeft, subword_bySubword _ hj, if_neg (by omega)]

theorem subword_mixRight_odd (hj : 2 * j + 1 < W / b) :
    subword (mixRight b x y) b (2 * j + 1) = subword x b (2 * j) := by
  rw [mixRight, subword_bySubword _ hj, if_pos (by omega), Nat.add_sub_cancel]

theorem subword_mixRight_even (hj : 2 * j < W / b) :
    subword (mixRight b x y) b (2 * j) = subword y b (2 * j) := by
  rw [mixRight, subword_bySubword _ hj, if_neg (by omega)]

end

/-- Settles O56: what each form puts at an odd and at an even position. -/
theorem mixResults : Obligations.MixResults := by
  rintro s qp sw rd rs1 rs2 hp - - x y rfl rfl
  refine ⟨?_, ?_⟩
  · refine completes_writesSubwords (v := fun m => mixLeft sw.bits (m.rget rs1) (m.rget rs2)) rfl hp
      fun k hk j => ⟨?_, ?_⟩
    · rintro rfl; exact subword_mixLeft_odd _ _ hk
    · rintro rfl; exact subword_mixLeft_even _ _ hk
  · refine completes_writesSubwords (v := fun m => mixRight sw.bits (m.rget rs1) (m.rget rs2)) rfl hp
      fun k hk j => ⟨?_, ?_⟩
    · rintro rfl; exact subword_mixRight_odd _ _ hk
    · rintro rfl; exact subword_mixRight_even _ _ hk

/-! ### `perm` -/

/-- The selectors of a register's halfwords have as many bits as number them (R218). -/
theorem two_pow_selectorBits_halfwords (wd : Width) : 2 ^ selectorBits (wd.bits / 16) = wd.bits / 16 := by
  cases wd <;> decide

theorem countedFrom_eq_ite (order : PermOrder) (n k : Nat) :
    countedFrom order n k = if order = .fromLow then k else n - 1 - k := by
  cases order <;> rfl

/-- A selector of a `perm` control as a number (R218). -/
theorem permSelector_eq {W : Nat} (ctl : BitVec W) (n j : Nat) :
    permSelector ctl n j = ctl.toNat / 2 ^ (j * selectorBits n) % 2 ^ selectorBits n := by
  rw [permSelector, BitVec.extractLsb'_toNat, Nat.shiftRight_eq_div_pow]

/-- Settles O59: `perm` is a permutation whose selection counts its destinations and sources as `NUM` says. -/
theorem permuteResult : Obligations.PermuteResult := by
  intro s qp rd rs1 rs2 hp x n g sel hx hn hg hsel
  subst hx hn
  have hbits : selectorBits (s.W / 16) = g :=
    Nat.pow_right_injective le_rfl ((two_pow_selectorBits_halfwords s.cfg.width).trans hg)
  have hselector (j : Nat) : permSelector (s.mach.rget rs2) (s.W / 16) j = sel j := by
    rw [permSelector_eq, hbits, hsel]
  refine completes_writesSubwords
    (v := fun m => permute 16 (permSel _ _ (m.rget rs2) (s.W / 16)) (m.rget rs1)) rfl hp ?_
  rintro k hk j i rfl rfl
  rw [subword_permute _ _ hk, permSel, hselector, countedFrom_eq_ite, countedFrom_eq_ite]

/-! ### Permutations that undo one another -/

/-- Permuting twice gives the register back when the first selection undoes the second. -/
theorem permute_permute_eq_self {W b : Nat} {sel sel' : Nat → Nat} (x : BitVec W) (hb : W / b * b = W)
    (hinv : ∀ k < W / b, sel' k < W / b ∧ sel (sel' k) = k) : permute b sel' (permute b sel x) = x :=
  eq_of_subwords _ _ hb fun k hk => by
    obtain ⟨hlt, heq⟩ := hinv k hk
    rw [subword_permute _ _ hk, subword_permute _ _ hlt, heq]

/-- An instruction that writes one register other than R0 leaves its value there, and every predicate as it was. -/
theorem completes_rget {s : State} {i : Instr} {qp : PredNum} {rd : Reg} {v : Mach s.W → BitVec s.W}
    (hi : exec i s = s.writesReg qp rd v) (hp : s.mach.pget qp = true) (hrd : rd ≠ 0) :
    Completes i s fun m => m.rget rd = v s.mach ∧ m.pget qp = true :=
  ⟨(s.mach.rset rd (v s.mach)).advance, by rw [hi, State.writesReg_eq, if_pos hp], by simp [hrd], by simpa using hp⟩

/-- A byte permutation and then, on its result, one that undoes it leave the original value. -/
theorem completes_permute_inverse {s : State} {i i' : Instr} {qp : PredNum} {rd rd' rs1 : Reg} {sel sel' : Nat → Nat}
    (hi : exec i s = s.writesReg qp rd fun m => permute 8 sel (m.rget rs1))
    (hi' : ∀ m : Mach s.W,
      exec i' (s.withMach m) = (s.withMach m).writesReg qp rd' fun m => permute 8 sel' (m.rget rd))
    (hp : s.mach.pget qp = true) (hrd : rd ≠ 0) (hrd' : rd' ≠ 0)
    (hinv : ∀ k < s.W / 8, sel' k < s.W / 8 ∧ sel (sel' k) = k) :
    Completes i s fun m => Completes i' (s.withMach m) fun m' => m'.rget rd' = s.mach.rget rs1 := by
  obtain ⟨m, hexec, hread, hpm⟩ := completes_rget hi hp hrd
  obtain ⟨m', hexec', hread', -⟩ := completes_rget (hi' m) hpm hrd'
  have hself : permute 8 sel' (m.rget rd) = s.mach.rget rs1 := by
    rw [hread, permute_permute_eq_self _ s.cfg.width.bytes_mul_eight hinv]
  exact ⟨m, hexec, m', hexec', hread'.trans hself⟩

theorem muxShufSel_muxAltSel {n k : Nat} (hn : 2 ∣ n) (hk : k < n) :
    muxAltSel n k < n ∧ muxShufSel n (muxAltSel n k) = k := by
  by_cases hhalf : k < n / 2
  · rw [muxAltSel_lower hhalf, muxShufSel_even]
    omega
  · obtain ⟨j, rfl⟩ := Nat.exists_eq_add_of_le (Nat.le_of_not_lt hhalf)
    rw [muxAltSel_upper, muxShufSel_odd]
    omega

theorem muxRevSel_muxRevSel {n k : Nat} (hk : k < n) : muxRevSel n k < n ∧ muxRevSel n (muxRevSel n k) = k := by
  unfold muxRevSel
  omega

/-- Settles O60: the selection of `mux.shuf` undoes that of `mux.alt`, and the one of `mux.rev` itself. -/
theorem muxInverses : Obligations.MuxInverses := by
  intro s qp rd rd' rs1 hp hrd hrd'
  refine ⟨fun hshuf halt => ?_, ?_⟩
  · refine completes_permute_inverse (i := .muxShuf qp .b1 rd rs1) (i' := .muxAlt qp .b1 rd' rd)
      (sel := arranged s.cfg.num.muxShuf muxShufSel (s.W / 8)) (sel' := arranged s.cfg.num.muxAlt muxAltSel (s.W / 8))
      rfl (fun _ => rfl) hp hrd hrd' fun k hk => ?_
    rw [arranged_std _ hshuf, arranged_std _ halt]
    exact muxShufSel_muxAltSel (dvd_trans (by decide) s.cfg.width.four_dvd_bytes) hk
  · exact completes_permute_inverse (i := .muxRev qp .b1 rd rs1) (i' := .muxRev qp .b1 rd' rd)
      (sel := muxRevSel (s.W / 8)) (sel' := muxRevSel (s.W / 8)) rfl (fun _ => rfl) hp hrd hrd'
      fun _ => muxRevSel_muxRevSel

end Sys2Proof.Machine
